-- ==== Sys2Proof/Word.lean ====
section
/-! DEFINITION. The widths of the kriptoloji CORE's data: a byte, a bus word, a 128-bit operand register, a
64-bit DES block and a 48-bit DES round key. -/

namespace Sys2Proof

/-- A byte (00_scope.md R8). -/
abbrev Byte := BitVec 8

/-- A 32-bit word: a bus word, a command word, an AES key-schedule word (00_scope.md R5). -/
abbrev Word := BitVec 32

/-- A 128-bit operand register or AES block: bytes `X[0] .. X[15]`, byte 0 in the most significant
position, which is the order of its hex string (00_scope.md R8, 20_memory.md R36). -/
abbrev Block := BitVec 128

/-- A 64-bit DES block or key: bytes 0..7, byte 0 in the most significant position, so that bit 1 of the
DES bit vector is the most significant bit (00_scope.md R9, 44_transcoder.md R109). -/
abbrev Half := BitVec 64

/-- A DES round key `K_n` of 48 bits (41_des.md R76). -/
abbrev RoundKey := BitVec 48

end Sys2Proof
end

