-- ==== Sys2Proof/Config.lean ====
section
/-! DEFINITION. The fixed parameters of the hardware (00_scope.md R2, R5), the error codes
(60_exceptions.md R114), and the one value the spec leaves free (70_reset_and_hazards.md R130). -/

namespace Sys2Proof

/-- The two algorithms of the ALG field (00_scope.md R2). -/
inductive Alg where
  | aes
  | des
deriving DecidableEq, Repr

/-- `KLEN(a)`, the key length in bytes (00_scope.md R5). -/
def Alg.klen : Alg → Nat
  | .aes => 16
  | .des => 8

/-- `BLK(a)`, the block size in bytes (00_scope.md R5). -/
def Alg.blk : Alg → Nat
  | .aes => 16
  | .des => 8

/-- The values of STATUS.ERR (60_exceptions.md R114). Codes 6 to 15 are never produced, so they have no
constructor (93_implementation_defined.md I9). -/
inductive ErrCode where
  | none
  | keyLengthError
  | invalidEncodingError
  | paddingError
  | unknownAlgorithm
  | illegalCommand
deriving DecidableEq, Repr

/-- The number of an error code in STATUS[7:4] (60_exceptions.md R114). -/
def ErrCode.code : ErrCode → BitVec 4
  | .none => 0#4
  | .keyLengthError => 1#4
  | .invalidEncodingError => 2#4
  | .paddingError => 3#4
  | .unknownAlgorithm => 4#4
  | .illegalCommand => 5#4

namespace Config

/-- Free value (log entry 4): the word that the `n`-th read of KEY, DIN, IV, DOUT or RKDATA made while
BUSY returns. The spec lets it be any 32-bit value, fresh on each read (70_reset_and_hazards.md R130). It has
no body, so nothing can be proved of it. -/
opaque busyRead : Nat → Word

end Config

end Sys2Proof
end

