-- ==== Sys2Proof/Syntax.lean ====
section
/-! DEFINITION. The 20 instructions of the command engine: one constructor per row of spec/opcode_table.json
(30_encoding.md R46). -/

namespace Sys2Proof

/-- A command. The only operand is ARG, the 4-bit immediate `n` of PAD and B64E (30_encoding.md R48). -/
inductive Instr where
  /-- ENC.AES (R87). -/
  | encAes
  /-- ENC.DES (R88). -/
  | encDes
  /-- DEC.AES (R89). -/
  | decAes
  /-- DEC.DES (R90). -/
  | decDes
  /-- CBCE.AES (R95). -/
  | cbceAes
  /-- CBCE.DES (R96). -/
  | cbceDes
  /-- CBCD.AES (R97). -/
  | cbcdAes
  /-- CBCD.DES (R98). -/
  | cbcdDes
  /-- KSCHED.AES (R91). -/
  | kschedAes
  /-- KSCHED.DES (R92). -/
  | kschedDes
  /-- KNORM.AES (R93). -/
  | knormAes
  /-- KNORM.DES (R94). -/
  | knormDes
  /-- IVGEN.AES (R99). -/
  | ivgenAes
  /-- IVGEN.DES (R100). -/
  | ivgenDes
  /-- PAD.AES n (R102). -/
  | padAes (n : BitVec 4)
  /-- PAD.DES n (R103). -/
  | padDes (n : BitVec 4)
  /-- UNPAD.AES (R104). -/
  | unpadAes
  /-- UNPAD.DES (R105). -/
  | unpadDes
  /-- B64E n (R111). -/
  | b64e (n : BitVec 4)
  /-- B64D (R112). -/
  | b64d
deriving DecidableEq, Repr

end Sys2Proof
end

