-- ==== Sys2Proof/WellFormed.lean ====
section
/-! DEFINITION. Which instruction terms are instructions: the ranges of ARG (30_encoding.md R46, R48). -/

namespace Sys2Proof

/-- The free field of the instruction is in its range: `n < 8` for PAD.DES, `n` in 1..3 for B64E, every
4-bit `n` for PAD.AES (30_encoding.md R46, R48). -/
def Instr.wf : Instr → Bool
  | .encAes => true
  | .encDes => true
  | .decAes => true
  | .decDes => true
  | .cbceAes => true
  | .cbceDes => true
  | .cbcdAes => true
  | .cbcdDes => true
  | .kschedAes => true
  | .kschedDes => true
  | .knormAes => true
  | .knormDes => true
  | .ivgenAes => true
  | .ivgenDes => true
  | .padAes n => n.toNat < Alg.aes.blk
  | .padDes n => n.toNat < Alg.des.blk
  | .unpadAes => true
  | .unpadDes => true
  | .b64e n => 1 ≤ n.toNat && n.toNat ≤ 3
  | .b64d => true

end Sys2Proof
end

