-- ==== Sys2Proof/Decode.lean ====
section
/-! DEFINITION. The command word: its fields (30_encoding.md R44), its decoding in the order of R50, which
answers an instruction or the error code the command completes with, and the encoder of R46. -/

namespace Sys2Proof

/-- OP, bits [3:0] (R44). -/
def opField (v : Word) : Nat := (v.extractLsb' 0 4).toNat

/-- ALG, bits [7:4] (R44). -/
def algField (v : Word) : Nat := (v.extractLsb' 4 4).toNat

/-- ARG, bits [11:8], an unsigned immediate (R44, R48). -/
def argField (v : Word) : BitVec 4 := v.extractLsb' 8 4

/-- RSV, bits [31:12] (R44). -/
def rsvField (v : Word) : BitVec 20 := v.extractLsb' 12 20

/-- The instruction of a legal (OP, ALG) pair with its ARG (R46); the pairs that are none are IllegalCommand
(they do not reach this function from `decode`). -/
def instrOf (op alg : Nat) (arg : BitVec 4) : Except ErrCode Instr :=
  match op, alg with
  | 1, 0 => .ok .encAes
  | 1, 1 => .ok .encDes
  | 2, 0 => .ok .decAes
  | 2, 1 => .ok .decDes
  | 3, 0 => .ok .cbceAes
  | 3, 1 => .ok .cbceDes
  | 4, 0 => .ok .cbcdAes
  | 4, 1 => .ok .cbcdDes
  | 5, 0 => .ok .kschedAes
  | 5, 1 => .ok .kschedDes
  | 6, 0 => .ok .knormAes
  | 6, 1 => .ok .knormDes
  | 7, 0 => .ok .ivgenAes
  | 7, 1 => .ok .ivgenDes
  | 8, 0 => .ok (.padAes arg)
  | 8, 1 => .ok (.padDes arg)
  | 9, 0 => .ok .unpadAes
  | 9, 1 => .ok .unpadDes
  | 10, 0 => .ok (.b64e arg)
  | 11, 0 => .ok .b64d
  | _, _ => .error .illegalCommand

/-- `B`, the block size that an ALG field selects (R50). -/
def blockSize (alg : Nat) : Nat := if alg = 0 then 16 else 8

/-- `Decode(v)`: an instruction or the error code of the first check that fails (R50). -/
def decode (v : Word) : Except ErrCode Instr :=
  let op := opField v
  let alg := algField v
  let arg := (argField v).toNat
  if rsvField v ≠ 0#20 then .error .illegalCommand
  else if op = 0 ∨ 12 ≤ op then .error .illegalCommand
  else if op ≤ 9 ∧ 1 < alg then .error .unknownAlgorithm
  else if (op = 10 ∨ op = 11) ∧ alg ≠ 0 then .error .illegalCommand
  else if op = 8 ∧ blockSize alg ≤ arg then .error .illegalCommand
  else if op = 10 ∧ (arg = 0 ∨ 3 < arg) then .error .illegalCommand
  else if op ≠ 8 ∧ op ≠ 10 ∧ arg ≠ 0 then .error .illegalCommand
  else instrOf op alg (argField v)

/-- The instruction that the decoder reads from the first 32-bit word of a numbered bit string (the host's
question about an opcode-table row): every command is one 32-bit word (R45), so a string with a bit set above
bit 31 is none. -/
def decodeTableWord (nbits w : Nat) : Option Instr :=
  if w % 2 ^ nbits < 2 ^ 32 then (decode (BitVec.ofNat 32 (w % 2 ^ nbits))).toOption else none

/-- The word with the given ARG, ALG and OP and with RSV = 0 (R44). -/
def commandWord (arg alg op : BitVec 4) : Word := 0#20 ++ arg ++ alg ++ op

/-- The command word of an instruction (R46). -/
def encode : Instr → Word
  | .encAes => commandWord 0#4 0#4 0x1#4
  | .encDes => commandWord 0#4 1#4 0x1#4
  | .decAes => commandWord 0#4 0#4 0x2#4
  | .decDes => commandWord 0#4 1#4 0x2#4
  | .cbceAes => commandWord 0#4 0#4 0x3#4
  | .cbceDes => commandWord 0#4 1#4 0x3#4
  | .cbcdAes => commandWord 0#4 0#4 0x4#4
  | .cbcdDes => commandWord 0#4 1#4 0x4#4
  | .kschedAes => commandWord 0#4 0#4 0x5#4
  | .kschedDes => commandWord 0#4 1#4 0x5#4
  | .knormAes => commandWord 0#4 0#4 0x6#4
  | .knormDes => commandWord 0#4 1#4 0x6#4
  | .ivgenAes => commandWord 0#4 0#4 0x7#4
  | .ivgenDes => commandWord 0#4 1#4 0x7#4
  | .padAes n => commandWord n 0#4 0x8#4
  | .padDes n => commandWord n 1#4 0x8#4
  | .unpadAes => commandWord 0#4 0#4 0x9#4
  | .unpadDes => commandWord 0#4 1#4 0x9#4
  | .b64e n => commandWord n 0#4 0xA#4
  | .b64d => commandWord 0#4 0#4 0xB#4

end Sys2Proof
end

