-- ==== Sys2Proof/Machine/State.lean ====
section
/-! DEFINITION. The state of the kriptoloji CORE (10_state.md), the reasons a step can stop, and the state
after reset (70_reset_and_hazards.md R126). Plain data. -/

namespace Sys2Proof.Machine

/-- The hidden state PHASE (R28). STATUS.BUSY is 1 exactly when it is `busy`. -/
inductive Phase where
  | idle
  | busy
deriving DecidableEq, Repr

/-- The round-key store with its tag (R27, R22): empty is RKV = 0 (contents 0, RKALG = 0); the other two are
RKV = 1 with RKALG = 0 (AES words `w[0..43]`) and RKALG = 1 (DES round keys `K_1..K_16`). -/
inductive RkStore where
  | empty
  | aes (words : List Word)
  | des (keys : List RoundKey)
deriving DecidableEq, Repr

/-- One access of a bus master: its size in bytes, its bus address and, for a write, its 32-bit value
(R10, R33). -/
inductive Access where
  | read (size addr : Nat)
  | write (size addr : Nat) (value : Word)
deriving DecidableEq, Repr

/-- One step of an agent of R12, or of the input `rst` of R13. -/
inductive Event where
  /-- HOST: a bus access (R12). -/
  | host (a : Access)
  /-- CORE: the completion of the command in flight (R84). Nothing happens where none is enabled. -/
  | complete
  /-- ENTROPY: the entropy input delivers bytes (R13, R99). -/
  | entropy (bytes : List Byte)
  /-- `rst` is 1 at a rising edge of `clk`; `lost` is the access on the same edge, if any (R126). -/
  | reset (lost : Option Access)
deriving DecidableEq, Repr

/-- Why a step faults. -/
inductive Fault where
  /-- A bus error: an access of a size other than 4 bytes, or to an offset that is misaligned or unmapped
  (R34). Raised by a host access only. Safe: the spec has the host's step fault with no state changed. -/
  | busError
deriving DecidableEq, Repr

/-- Why a step is refused. -/
inductive Refusal where
  /-- An instruction that has no meaning in the model. No instruction is left so. Safe. -/
  | notModelled (mnemonic : String)
  /-- A host access outside the window of 0x100 bytes at BASE: it does not reach this hardware, and what
  answers it belongs to the platform (R32). Raised by a host access only. Safe. -/
  | outsideWindow
deriving DecidableEq, Repr

/-- The machine. The fields from `ieDone` to `entropy` are the spec's state, `page` its parameter BASE; the
last three are the model's own (log entries 2 to 4). -/
structure State where
  /-- CTRL.IE_DONE (R21). -/
  ieDone : Bool
  /-- CTRL.IE_ERR (R21). -/
  ieErr : Bool
  /-- PHASE, and so STATUS.BUSY (R22, R28). -/
  phase : Phase
  /-- STATUS.DONE (R22). -/
  done : Bool
  /-- STATUS.WERR (R22). -/
  werr : Bool
  /-- STATUS.ERR (R22, R114). -/
  err : ErrCode
  /-- The RK store, and so STATUS.RKV and STATUS.RKALG (R22, R27). -/
  rk : RkStore
  /-- RESULT.LEN (R24). -/
  result : BitVec 5
  /-- KEYLEN[7:0] (R16). -/
  keylen : BitVec 8
  /-- RKSEL[5:0] (R25). -/
  rksel : BitVec 6
  /-- KEY (R15). -/
  key : Block
  /-- DIN (R17). -/
  din : Block
  /-- DOUT (R18). -/
  dout : Block
  /-- IV (R19). -/
  iv : Block
  /-- CUR, the accepted command word (R28). -/
  cur : Word
  /-- The bytes that the entropy input has delivered to the draw of the IVGEN in flight (R13, R99). -/
  entropy : List Byte
  /-- The platform's BASE, as BASE / 0x100: BASE is aligned to 0x100 (R6). No step changes it. -/
  page : Nat
  /-- The model's own: the steps that the agents are still to take, next first. -/
  inputs : List Event
  /-- The model's own: the words that the host's reads have returned, newest first (R135). -/
  reads : List Word
  /-- The model's own: how many free values of R130 have been drawn. -/
  draws : Nat
deriving DecidableEq, Repr

/-- The machine right after reset (R126). -/
def State.reset : State where
  ieDone := false
  ieErr := false
  phase := .idle
  done := false
  werr := false
  err := .none
  rk := .empty
  result := 0#5
  keylen := 0#8
  rksel := 0#6
  key := 0#128
  din := 0#128
  dout := 0#128
  iv := 0#128
  cur := 0#32
  entropy := []
  page := 0
  inputs := []
  reads := []
  draws := 0

end Sys2Proof.Machine
end

