-- ==== Sys2Proof/Machine/Ops.lean ====
section
/-! DEFINITION. The shared operations of command life: accept (R83), the two ways a command completes (R84,
R117), the key-length check (R85), the entropy draw (R99), writes that BUSY drops (R129) and reset (R126). -/

namespace Sys2Proof.Machine

/-- What a meaning answers. -/
abbrev Result := Host.Outcome State Fault Refusal

/-- BASE, the bus address of the register window (R6). -/
def State.base (s : State) : Nat := 0x100 * s.page

/-- Accept of the command word `v` (R83). -/
def State.accept (v : Word) (s : State) : State :=
  { s with phase := .busy, cur := v, done := false, err := .none }

/-- A command that ends in error `e`: it writes STATUS.ERR and STATUS.DONE, and PHASE is IDLE again (R84,
R117). This is all that taking an error does: nothing is saved and control goes nowhere (R118). -/
def State.raise (e : ErrCode) (s : State) : State :=
  { s with err := e, done := true, phase := .idle }

/-- The end of a KSCHED that does not raise: the RK store stays (R84). -/
def State.finishKeepingStore (s : State) : State :=
  { s with err := .none, done := true, phase := .idle }

/-- The end of any other command that does not raise: the RK store is cleared (R84, R27). -/
def State.finish (s : State) : State :=
  { s with err := .none, done := true, phase := .idle, rk := .empty }

/-- The key-length check of a cipher command or KSCHED: KEYLEN must be KLEN of its algorithm (R85). -/
def withKeyLength (a : Alg) (s : State) (body : State) : Result :=
  if s.keylen.toNat = a.klen then .next body else .next (s.raise .keyLengthError)

/-- The key-length check of KNORM: KEYLEN must not be 0 (R85). -/
def withKeyMaterial (s : State) (body : State) : Result :=
  if s.keylen.toNat ≠ 0 then .next body else .next (s.raise .keyLengthError)

/-- How many bytes of the entropy input an instruction draws (R99, R100). -/
def entropyBytes : Instr → Nat
  | .ivgenAes => 16
  | .ivgenDes => 8
  | .encAes => 0
  | .encDes => 0
  | .decAes => 0
  | .decDes => 0
  | .cbceAes => 0
  | .cbceDes => 0
  | .cbcdAes => 0
  | .cbcdDes => 0
  | .kschedAes => 0
  | .kschedDes => 0
  | .knormAes => 0
  | .knormDes => 0
  | .padAes _ => 0
  | .padDes _ => 0
  | .unpadAes => 0
  | .unpadDes => 0
  | .b64e _ => 0
  | .b64d => 0

/-- How many bytes the command word in CUR draws: 0 where it is no instruction. -/
def State.drawSize (s : State) : Nat :=
  match decode s.cur with
  | .ok i => entropyBytes i
  | .error _ => 0

/-- `Draw(n)`: the first `n` bytes delivered, once that many have been (R10, R99). -/
def State.draw (n : Nat) (s : State) : Option (List Byte) :=
  if n ≤ s.entropy.length then some (s.entropy.take n) else none

/-- The entropy input delivers bytes: they go to the draw of the IVGEN in flight, as far as it needs them;
bytes that answer no draw are discarded (R99, R126). -/
def State.deliver (bytes : List Byte) (s : State) : State :=
  match s.phase with
  | .busy => { s with entropy := (s.entropy ++ bytes).take s.drawSize }
  | .idle => s

/-- A host write that BUSY drops, setting WERR (R129). -/
def State.whenIdle (s : State) (written : State) : State :=
  match s.phase with
  | .idle => written
  | .busy => { s with werr := true }

/-- The reset step (R126): every register and hidden state at its reset value. BASE is the platform's; the
steps still to come and what the host has read stay. -/
def State.resetStep (s : State) : State :=
  { State.reset with page := s.page, inputs := s.inputs, reads := s.reads, draws := s.draws }

/-- The bytes `a0 a1 .. af` of the spec's vectors CB5 and CB6 (95_test_vectors.md L2.6): what the entropy
input has delivered where a command word is placed for the very next step to run (log entry 6). -/
def sampleEntropy : List Byte :=
  [0xA0#8, 0xA1#8, 0xA2#8, 0xA3#8, 0xA4#8, 0xA5#8, 0xA6#8, 0xA7#8,
   0xA8#8, 0xA9#8, 0xAA#8, 0xAB#8, 0xAC#8, 0xAD#8, 0xAE#8, 0xAF#8]

/-- The state in which the next step completes the command word `v`: `v` has been accepted, the CORE moves
next, and an IVGEN's draw has been answered (log entry 6). -/
def State.place (v : Word) (s : State) : State :=
  let t := s.accept v
  { t with
    inputs := .complete :: s.inputs
    entropy := if t.drawSize = 0 then s.entropy else sampleEntropy.take t.drawSize }

end Sys2Proof.Machine
end

