-- ==== Sys2Proof/Machine/Flags.lean ====
section
/-! DEFINITION. The control and status registers as words, and the interrupt line (R21 to R26, R120). -/

namespace Sys2Proof.Machine

/-- STATUS.BUSY (R22, R28). -/
def State.busy (s : State) : Bool := s.phase == .busy

/-- STATUS.RKV (R22, R27). -/
def State.rkv (s : State) : Bool :=
  match s.rk with
  | .empty => false
  | .aes _ => true
  | .des _ => true

/-- STATUS.RKALG (R22, R27). -/
def State.rkalg (s : State) : Bool :=
  match s.rk with
  | .empty => false
  | .aes _ => false
  | .des _ => true

/-- CTRL as the host reads it; bits [31:2] read 0 (R21). -/
def State.ctrlWord (s : State) : Word :=
  0#30 ++ BitVec.ofBool s.ieErr ++ BitVec.ofBool s.ieDone

/-- STATUS as the host reads it; bit 3 and bits [31:10] read 0 (R22). -/
def State.statusWord (s : State) : Word :=
  0#22 ++ BitVec.ofBool s.rkalg ++ BitVec.ofBool s.rkv ++ s.err.code ++ 0#1 ++
    BitVec.ofBool s.werr ++ BitVec.ofBool s.done ++ BitVec.ofBool s.busy

/-- A host write of CTRL (R21). -/
def State.writeCtrl (v : Word) (s : State) : State :=
  { s with ieDone := v.getLsbD 0, ieErr := v.getLsbD 1 }

/-- A host write of STATUS: W1C of DONE and WERR, and nothing else (R22). -/
def State.writeStatus (v : Word) (s : State) : State :=
  { s with done := s.done && !v.getLsbD 1, werr := s.werr && !v.getLsbD 2 }

/-- RKDATA: a function of the RK store and RKSEL (R26). -/
def State.rkdataWord (s : State) : Word :=
  let i := s.rksel.toNat
  match s.rk with
  | .empty => 0#32
  | .aes w => if i < 44 then w.getD i 0#32 else 0#32
  | .des k =>
    if i < 32 then
      0#8 ++ (k.getD (i / 2) 0#48).extractLsb' (if i % 2 = 0 then 24 else 0) 24
    else 0#32

/-- The interrupt line (R120). -/
def State.irq (s : State) : Bool :=
  s.done && (s.ieDone || (s.ieErr && s.err != .none))

end Sys2Proof.Machine
end

