-- ==== Sys2Proof/Machine/Bytes.lean ====
section
/-! DEFINITION. The bytes of 128-bit, 64-bit and 32-bit values, and the DES bit numbering: the packing that
20_memory.md R36, 40_aes.md R59 and 44_transcoder.md R109 fix. -/

namespace Sys2Proof.Machine

/-- Byte `X[i]` of a 128-bit value, `i` in 0..15 (00_scope.md R8). -/
def getByte (x : Block) (i : Nat) : Byte := x.extractLsb' (120 - 8 * i) 8

/-- The 128-bit value whose byte `X[i]` is `f i` for `i` in 0..15 (00_scope.md R8). -/
def blockOf (f : Nat → Byte) : Block :=
  f 0 ++ f 1 ++ f 2 ++ f 3 ++ f 4 ++ f 5 ++ f 6 ++ f 7 ++
  f 8 ++ f 9 ++ f 10 ++ f 11 ++ f 12 ++ f 13 ++ f 14 ++ f 15

/-- Byte `b[i]` of an 8-byte value, `i` in 0..7. -/
def getByte64 (x : Half) (i : Nat) : Byte := x.extractLsb' (56 - 8 * i) 8

/-- The 8-byte value whose byte `b[i]` is `f i` for `i` in 0..7. -/
def halfOf (f : Nat → Byte) : Half :=
  f 0 ++ f 1 ++ f 2 ++ f 3 ++ f 4 ++ f 5 ++ f 6 ++ f 7

/-- Byte `w[i]` of a 32-bit word, `i` in 0..3, byte 0 in bits [31:24] (20_memory.md R36). -/
def wordByte (w : Word) (i : Nat) : Byte := w.extractLsb' (24 - 8 * i) 8

/-- The word of the four bytes `{b0, b1, b2, b3}`, `b0` in bits [31:24] (20_memory.md R36). -/
def wordOf (b0 b1 b2 b3 : Byte) : Word := b0 ++ b1 ++ b2 ++ b3

/-- Bus word `j` of a 128-bit operand: bytes `X[4j] .. X[4j+3]` (20_memory.md R36). -/
def getWord (x : Block) (j : Nat) : Word := x.extractLsb' (96 - 32 * j) 32

/-- The operand with bus word `j` replaced: `X[4j] <- v[31:24]` to `X[4j+3] <- v[7:0]`
(20_memory.md R36). -/
def setWord (x : Block) (j : Nat) (v : Word) : Block :=
  blockOf fun i => if i / 4 = j then wordByte v (i % 4) else getByte x i

/-- Bytes 0..7 of a 128-bit operand, all that a `.DES` instruction reads of it (42_block_core.md R86). -/
def low64 (x : Block) : Half := x.extractLsb' 64 64

/-- `Put64(X, b)`: bytes 0..7 are `b`, bytes 8..15 are 0 (42_block_core.md R86). -/
def put64 (b : Half) : Block := b ++ 0#64

/-- The operand whose bytes are those of a list, first byte first; bytes past its end are 0. -/
def blockOfList (l : List Byte) : Block := blockOf fun i => l.getD i 0

/-- The 8-byte value whose bytes are those of a list, first byte first; bytes past its end are 0. -/
def halfOfList (l : List Byte) : Half := halfOf fun i => l.getD i 0

/-- Bit `k` of an n-bit DES vector, numbered from 1, left to right (00_scope.md R9). -/
def desBit {n : Nat} (v : BitVec n) (k : Nat) : Bool := v.getMsbD (k - 1)

/-- `T(v)` for a table `T`: output bit `k` is bit `T[k]` of `v`, bits numbered from 1 (00_scope.md R9). -/
def permute {n : Nat} (m : Nat) (t : List Nat) (v : BitVec n) : BitVec m :=
  t.foldl (fun acc k => acc.shiftConcat (desBit v k)) 0#m

end Sys2Proof.Machine
end

