-- ==== Sys2Proof/Machine/Operands.lean ====
section
/-! DEFINITION. The operand registers as the instructions read and write them: whole for `.AES`, bytes 0..7
for `.DES` (42_block_core.md R86), and the bytes that KNORM and PAD write. -/

namespace Sys2Proof.Machine

/-- KEY[0..7], the key of a `.DES` instruction (R15, R86). -/
def State.key64 (s : State) : Half := low64 s.key

/-- DIN[0..7], the input of a `.DES` instruction (R17, R86). -/
def State.din64 (s : State) : Half := low64 s.din

/-- IV[0..7], the chaining value of a `.DES` instruction (R19, R86). -/
def State.iv64 (s : State) : Half := low64 s.iv

/-- A block that keeps its bytes below `n` and holds `p` from there up to byte `b - 1`; bytes from `b` on are
0. With `b` the block or key size this is the write of KNORM (R93, R94) and of PAD (R102, R103). -/
def fillFrom (b n : Nat) (p : Byte) (x : Block) : Block :=
  blockOf fun i => if b ≤ i then 0#8 else if i < n then getByte x i else p

/-- The pad-equals-length check on the first `b` bytes of a block: the number of message bytes, or none where
UNPAD raises PaddingError (R104, R105). -/
def messageLength (b : Nat) (x : Block) : Option Nat :=
  let last := getByte x (b - 1)
  let p := last.toNat
  if p = 0 ∨ b < p then none
  else if (List.range b).any (fun j => decide (b - p ≤ j) && getByte x j != last) then none
  else some (b - p)

end Sys2Proof.Machine
end

