-- ==== Sys2Proof/Machine/Bus.lean ====
section
/-! DEFINITION. The register window (10_state.md R14) and what a host access does (20_memory.md R33 to R37;
70_reset_and_hazards.md R129, R130). -/

namespace Sys2Proof.Machine

/-- A 128-bit operand register (R14). -/
inductive Operand where
  | key
  | din
  | dout
  | iv
deriving DecidableEq, Repr

/-- A host-visible register of one bus word (R14): word `j` of an operand, `j` in 0..3, or another. -/
inductive Reg where
  | ctrl
  | status
  | cmd
  | result
  | keylen
  | rksel
  | rkdata
  | word (x : Operand) (j : Nat)
deriving DecidableEq, Repr

/-- The register map: offset and register (R14, R36). -/
def regTable : List (Nat × Reg) :=
  [(0x00, .ctrl), (0x04, .status), (0x08, .cmd), (0x0C, .result),
   (0x10, .keylen), (0x14, .rksel), (0x18, .rkdata),
   (0x20, .word .key 0), (0x24, .word .key 1), (0x28, .word .key 2), (0x2C, .word .key 3),
   (0x30, .word .din 0), (0x34, .word .din 1), (0x38, .word .din 2), (0x3C, .word .din 3),
   (0x40, .word .dout 0), (0x44, .word .dout 1), (0x48, .word .dout 2), (0x4C, .word .dout 3),
   (0x50, .word .iv 0), (0x54, .word .iv 1), (0x58, .word .iv 2), (0x5C, .word .iv 3)]

/-- The register mapped at an offset of the window; none where it is unmapped (R14). -/
def regAt (off : Nat) : Option Reg := regTable.lookup off

/-- The offset of a register (R14, R36). -/
def Reg.offset : Reg → Nat
  | .ctrl => 0x00
  | .status => 0x04
  | .cmd => 0x08
  | .result => 0x0C
  | .keylen => 0x10
  | .rksel => 0x14
  | .rkdata => 0x18
  | .word .key j => 0x20 + 4 * j
  | .word .din j => 0x30 + 4 * j
  | .word .dout j => 0x40 + 4 * j
  | .word .iv j => 0x50 + 4 * j

/-- An operand register's value. -/
def State.operand (s : State) : Operand → Block
  | .key => s.key
  | .din => s.din
  | .dout => s.dout
  | .iv => s.iv

/-- The word a register holds (R14, R21 to R26, R36). CMD reads 0 (R23). -/
def State.regWord (s : State) : Reg → Word
  | .ctrl => s.ctrlWord
  | .status => s.statusWord
  | .cmd => 0#32
  | .result => s.result.setWidth 32
  | .keylen => s.keylen.setWidth 32
  | .rksel => s.rksel.setWidth 32
  | .rkdata => s.rkdataWord
  | .word x j => getWord (s.operand x) j

/-- The registers whose reads are free while BUSY: KEY, DIN, IV, DOUT and RKDATA (R130). -/
def Reg.inDataPath : Reg → Bool
  | .ctrl => false
  | .status => false
  | .cmd => false
  | .result => false
  | .keylen => false
  | .rksel => false
  | .rkdata => true
  | .word _ _ => true

/-- A host read of a mapped register: the word it returns is added to what the host has read. While BUSY a
data-path register returns the next free value (R35, R130). -/
def State.hostRead (r : Reg) (s : State) : State :=
  if s.phase = .busy ∧ r.inDataPath then
    { s with reads := Config.busyRead s.draws :: s.reads, draws := s.draws + 1 }
  else { s with reads := s.regWord r :: s.reads }

/-- A host write of `v` to a mapped register (R21 to R26, R35, R36, R129). -/
def State.hostWrite (r : Reg) (v : Word) (s : State) : State :=
  match r with
  | .ctrl => s.writeCtrl v
  | .status => s.writeStatus v
  | .cmd => s.whenIdle (s.accept v)
  | .result => s
  | .keylen => s.whenIdle { s with keylen := v.setWidth 8 }
  | .rksel => s.whenIdle { s with rksel := v.setWidth 6 }
  | .rkdata => s
  | .word .key j => s.whenIdle { s with key := setWord s.key j v }
  | .word .din j => s.whenIdle { s with din := setWord s.din j v }
  | .word .dout _ => s
  | .word .iv j => s.whenIdle { s with iv := setWord s.iv j v }

/-- The size of an access in bytes. -/
def Access.size : Access → Nat
  | .read n _ => n
  | .write n _ _ => n

/-- The bus address of an access. -/
def Access.addr : Access → Nat
  | .read _ a => a
  | .write _ a _ => a

/-- What an access does to the register it names. -/
def Access.perform (a : Access) (r : Reg) (s : State) : State :=
  match a with
  | .read _ _ => s.hostRead r
  | .write _ _ v => s.hostWrite r v

/-- The offset in the window of a bus address; none outside the window (R32). -/
def State.windowOffset (s : State) (addr : Nat) : Option Nat :=
  if s.base ≤ addr ∧ addr < s.base + 0x100 then some (addr - s.base) else none

/-- One host access (R33, R34): a bus error where its size is not 4 bytes, its offset is misaligned, or its
offset is unmapped. An access outside the window is not this hardware's. -/
def busAccess (a : Access) (s : State) : Result :=
  match s.windowOffset a.addr with
  | none => .refused .outsideWindow
  | some off =>
    if a.size ≠ 4 ∨ off % 4 ≠ 0 then .fault .busError
    else
      match regAt off with
      | none => .fault .busError
      | some r => .next (a.perform r s)

end Sys2Proof.Machine
end

