-- ==== Sys2Proof/Machine/Aes.lean ====
section
/-! DEFINITION. The AES-like 128-bit SPN core: the pure functions of 40_aes.md (field arithmetic, ROM tables,
round steps, key schedule, cipher and inverse cipher). A state is a `Block`: the matrix entry `s[r,c]` is byte
`r + 4c` (R59). -/

namespace Sys2Proof.Machine

/-- `xtime(a)`: multiplication by 0x02 in GF(2^8) (R54). -/
def xtime (a : Byte) : Byte :=
  if a.getLsbD 7 then (a <<< 1) ^^^ 0x1B#8 else a <<< 1

/-- `xtime` applied `i` times (R55). -/
def xtimes : Nat → Byte → Byte
  | 0, a => a
  | i + 1, a => xtime (xtimes i a)

/-- `gmul(a, b)`: the xor, over every bit `i` of `b` that is 1, of `xtime` applied `i` times to `a` (R55). -/
def gmul (a b : Byte) : Byte :=
  (List.range 8).foldl (fun acc i => if b.getLsbD i then acc ^^^ xtimes i a else acc) 0#8

/-- The rows of `SBOX`: row `h` holds the entries of the inputs with high hex digit `h`, column 0 first
(R56). -/
def sboxRows : List Block :=
  [0x637c777bf26b6fc53001672bfed7ab76#128,
   0xca82c97dfa5947f0add4a2af9ca472c0#128,
   0xb7fd9326363ff7cc34a5e5f171d83115#128,
   0x04c723c31896059a071280e2eb27b275#128,
   0x09832c1a1b6e5aa0523bd6b329e32f84#128,
   0x53d100ed20fcb15b6acbbe394a4c58cf#128,
   0xd0efaafb434d338545f9027f503c9fa8#128,
   0x51a3408f929d38f5bcb6da2110fff3d2#128,
   0xcd0c13ec5f974417c4a77e3d645d1973#128,
   0x60814fdc222a908846eeb814de5e0bdb#128,
   0xe0323a0a4906245cc2d3ac629195e479#128,
   0xe7c8376d8dd54ea96c56f4ea657aae08#128,
   0xba78252e1ca6b4c6e8dd741f4bbd8b8a#128,
   0x703eb5664803f60e613557b986c11d9e#128,
   0xe1f8981169d98e949b1e87e9ce5528df#128,
   0x8ca1890dbfe6426841992d0fb054bb16#128]

/-- The rows of `INV_SBOX`, laid out as `sboxRows` (R57). -/
def invSboxRows : List Block :=
  [0x52096ad53036a538bf40a39e81f3d7fb#128,
   0x7ce339829b2fff87348e4344c4dee9cb#128,
   0x547b9432a6c2233dee4c950b42fac34e#128,
   0x082ea16628d924b2765ba2496d8bd125#128,
   0x72f8f66486689816d4a45ccc5d65b692#128,
   0x6c704850fdedb9da5e154657a78d9d84#128,
   0x90d8ab008cbcd30af7e45805b8b34506#128,
   0xd02c1e8fca3f0f02c1afbd0301138a6b#128,
   0x3a9111414f67dcea97f2cfcef0b4e673#128,
   0x96ac7422e7ad3585e2f937e81c75df6e#128,
   0x47f11a711d29c5896fb7620eaa18be1b#128,
   0xfc563e4bc6d279209adbc0fe78cd5af4#128,
   0x1fdda8338807c731b11210592780ec5f#128,
   0x60517fa919b54a0d2de57a9f93c99cef#128,
   0xa0e03b4dae2af5b0c8ebbb3c83539961#128,
   0x172b047eba77d626e169146355210c7d#128]

/-- The entry of a 256-entry byte table: the row is the high hex digit of the input and the column its low
digit (R56). -/
def lookupByte (rows : List Block) (x : Byte) : Byte :=
  getByte (rows.getD (x.toNat / 16) 0#128) (x.toNat % 16)

/-- `SBOX[x]` (R56). -/
def sbox (x : Byte) : Byte := lookupByte sboxRows x

/-- `INV_SBOX[x]` (R57). -/
def invSbox (x : Byte) : Byte := lookupByte invSboxRows x

/-- `RC[1..10]` (R58). -/
def roundConstants : List Byte :=
  [0x01#8, 0x02#8, 0x04#8, 0x08#8, 0x10#8, 0x20#8, 0x40#8, 0x80#8, 0x1B#8, 0x36#8]

/-- `Rcon[j]`, the word `RC[j], 00, 00, 00`, for `j` in 1..10 (R58). -/
def rcon (j : Nat) : Word := wordOf (roundConstants.getD (j - 1) 0#8) 0#8 0#8 0#8

/-- `s[r,c]`, row `r` and column `c` of the state (R59). -/
def cell (s : Block) (r c : Nat) : Byte := getByte s (r + 4 * c)

/-- The state whose entry in row `r` and column `c` is `f r c` (R59). -/
def stateOf (f : Nat → Nat → Byte) : Block := blockOf fun i => f (i % 4) (i / 4)

/-- SubBytes, step (a) (R60). -/
def subBytes (s : Block) : Block := stateOf fun r c => sbox (cell s r c)

/-- ShiftRows, step (b): row `r` rotates left by `r` (R61). -/
def shiftRows (s : Block) : Block := stateOf fun r c => cell s r ((c + r) % 4)

/-- The fixed matrix of a column mix applied to the column `s0, s1, s2, s3`: row `r` is the first row
`m0, m1, m2, m3` rotated right by `r` (the circulant of R62 and R64). -/
def mixColumn (m0 m1 m2 m3 : Byte) (s0 s1 s2 s3 : Byte) : Nat → Byte
  | 0 => gmul m0 s0 ^^^ gmul m1 s1 ^^^ gmul m2 s2 ^^^ gmul m3 s3
  | 1 => gmul m3 s0 ^^^ gmul m0 s1 ^^^ gmul m1 s2 ^^^ gmul m2 s3
  | 2 => gmul m2 s0 ^^^ gmul m3 s1 ^^^ gmul m0 s2 ^^^ gmul m1 s3
  | _ => gmul m1 s0 ^^^ gmul m2 s1 ^^^ gmul m3 s2 ^^^ gmul m0 s3

/-- MixColumns, step (c): the circulant of 02 03 01 01 (R62). -/
def mixColumns (s : Block) : Block :=
  stateOf fun r c => mixColumn 2#8 3#8 1#8 1#8 (cell s 0 c) (cell s 1 c) (cell s 2 c) (cell s 3 c) r

/-- The 16-byte string of round `k`'s words `w[4k .. 4k+3]` (R63). -/
def roundKey (w : List Word) (k : Nat) : Block :=
  w.getD (4 * k) 0#32 ++ w.getD (4 * k + 1) 0#32 ++ w.getD (4 * k + 2) 0#32 ++ w.getD (4 * k + 3) 0#32

/-- AddRoundKey of round `k` (R63). -/
def addRoundKey (w : List Word) (k : Nat) (s : Block) : Block := s ^^^ roundKey w k

/-- InvSubBytes (R64). -/
def invSubBytes (s : Block) : Block := stateOf fun r c => invSbox (cell s r c)

/-- InvShiftRows: row `r` rotates right by `r` (R64). -/
def invShiftRows (s : Block) : Block := stateOf fun r c => cell s r ((c + 4 - r) % 4)

/-- InvMixColumns: the circulant of 0E 0B 0D 09 (R64). -/
def invMixColumns (s : Block) : Block :=
  stateOf fun r c => mixColumn 14#8 11#8 13#8 9#8 (cell s 0 c) (cell s 1 c) (cell s 2 c) (cell s 3 c) r

/-- `RotWord`: one-byte left rotation of a word (R65). -/
def rotWord (t : Word) : Word := wordOf (wordByte t 1) (wordByte t 2) (wordByte t 3) (wordByte t 0)

/-- `SubWord`: SBOX on each byte of a word (R65). -/
def subWord (t : Word) : Word :=
  wordOf (sbox (wordByte t 0)) (sbox (wordByte t 1)) (sbox (wordByte t 2)) (sbox (wordByte t 3))

/-- The `n` words from `w[i]` on, where `a, b, c, d` are `w[i-4] .. w[i-1]` (the loop of R65). -/
def keyWordsFrom : Nat → Nat → Word → Word → Word → Word → List Word
  | 0, _, _, _, _, _ => []
  | n + 1, i, a, b, c, d =>
    let t := if i % 4 = 0 then subWord (rotWord d) ^^^ rcon (i / 4) else d
    (a ^^^ t) :: keyWordsFrom n (i + 1) b c d (a ^^^ t)

/-- `AES_KeyExpand(K)`: the 44 words `w[0..43]` (R65). -/
def aesKeyExpand (k : Block) : List Word :=
  getWord k 0 :: getWord k 1 :: getWord k 2 :: getWord k 3 ::
    keyWordsFrom 40 4 (getWord k 0) (getWord k 1) (getWord k 2) (getWord k 3)

/-- A full round: SubBytes, ShiftRows, MixColumns, AddRoundKey (R66). -/
def aesRound (w : List Word) (s : Block) (k : Nat) : Block :=
  addRoundKey w k (mixColumns (shiftRows (subBytes s)))

/-- `AES_Encrypt(K, P)` (R66). -/
def aesEncrypt (key p : Block) : Block :=
  let w := aesKeyExpand key
  let s := [1, 2, 3, 4, 5, 6, 7, 8, 9].foldl (aesRound w) (addRoundKey w 0 p)
  addRoundKey w 10 (shiftRows (subBytes s))

/-- A full inverse round: InvShiftRows, InvSubBytes, AddRoundKey, InvMixColumns (R67). -/
def aesInvRound (w : List Word) (s : Block) (k : Nat) : Block :=
  invMixColumns (addRoundKey w k (invSubBytes (invShiftRows s)))

/-- `AES_Decrypt(K, C)` (R67). -/
def aesDecrypt (key c : Block) : Block :=
  let w := aesKeyExpand key
  let s := [9, 8, 7, 6, 5, 4, 3, 2, 1].foldl (aesInvRound w) (addRoundKey w 10 c)
  addRoundKey w 0 (invSubBytes (invShiftRows s))

end Sys2Proof.Machine
end

