-- ==== Sys2Proof/Machine/BlockCore.lean ====
section
/-! DEFINITION. The block-core instructions (42_block_core.md R87 to R94): what each does at completion. -/

namespace Sys2Proof.Machine

/-- ENC.AES (R87). -/
def execEncAes (s : State) : Result :=
  withKeyLength .aes s (State.finish { s with dout := aesEncrypt s.key s.din })

/-- ENC.DES (R88). -/
def execEncDes (s : State) : Result :=
  withKeyLength .des s (State.finish { s with dout := put64 (desEncrypt s.key64 s.din64) })

/-- DEC.AES (R89). -/
def execDecAes (s : State) : Result :=
  withKeyLength .aes s (State.finish { s with dout := aesDecrypt s.key s.din })

/-- DEC.DES (R90). -/
def execDecDes (s : State) : Result :=
  withKeyLength .des s (State.finish { s with dout := put64 (desDecrypt s.key64 s.din64) })

/-- KSCHED.AES (R91). -/
def execKschedAes (s : State) : Result :=
  withKeyLength .aes s (State.finishKeepingStore { s with rk := .aes (aesKeyExpand s.key) })

/-- KSCHED.DES (R92). -/
def execKschedDes (s : State) : Result :=
  withKeyLength .des s (State.finishKeepingStore { s with rk := .des (desKeySchedule s.key64) })

/-- KNORM.AES: zero-padding from byte KEYLEN on, or truncation to the 16 bytes held (R93). -/
def execKnormAes (s : State) : Result :=
  withKeyMaterial s (State.finish { s with key := fillFrom 16 s.keylen.toNat 0#8 s.key, keylen := 16#8 })

/-- KNORM.DES: zero-padding from byte KEYLEN on, and truncation to 8 bytes (R94). -/
def execKnormDes (s : State) : Result :=
  withKeyMaterial s (State.finish { s with key := fillFrom 8 s.keylen.toNat 0#8 s.key, keylen := 8#8 })

end Sys2Proof.Machine
end

