-- ==== Sys2Proof/Machine/Cbc.lean ====
section
/-! DEFINITION. The CBC wrapper's instructions (43_cbc.md R95 to R105): what each does at completion. -/

namespace Sys2Proof.Machine

/-- CBCE.AES (R95). -/
def execCbceAes (s : State) : Result :=
  let c := aesEncrypt s.key (s.din ^^^ s.iv)
  withKeyLength .aes s (State.finish { s with dout := c, iv := c })

/-- CBCE.DES (R96). -/
def execCbceDes (s : State) : Result :=
  let c := desEncrypt s.key64 (s.din64 ^^^ s.iv64)
  withKeyLength .des s (State.finish { s with dout := put64 c, iv := put64 c })

/-- CBCD.AES (R97). -/
def execCbcdAes (s : State) : Result :=
  withKeyLength .aes s (State.finish { s with dout := aesDecrypt s.key s.din ^^^ s.iv, iv := s.din })

/-- CBCD.DES (R98). -/
def execCbcdDes (s : State) : Result :=
  withKeyLength .des s
    (State.finish { s with dout := put64 (desDecrypt s.key64 s.din64 ^^^ s.iv64), iv := put64 s.din64 })

/-- IVGEN.AES (R99): it waits, changing nothing, until the entropy input has delivered 16 bytes. -/
def execIvgenAes (s : State) : Result :=
  match s.draw 16 with
  | some bytes => .next (State.finish { s with iv := blockOfList bytes, entropy := [] })
  | none => .next s

/-- IVGEN.DES (R100): it waits, changing nothing, until the entropy input has delivered 8 bytes. -/
def execIvgenDes (s : State) : Result :=
  match s.draw 8 with
  | some bytes => .next (State.finish { s with iv := put64 (halfOfList bytes), entropy := [] })
  | none => .next s

/-- PAD.AES n (R102). -/
def execPadAes (n : BitVec 4) (s : State) : Result :=
  .next (State.finish { s with din := fillFrom 16 n.toNat (BitVec.ofNat 8 (16 - n.toNat)) s.din })

/-- PAD.DES n (R103); ARG 8..15 is IllegalCommand. -/
def execPadDes (n : BitVec 4) (s : State) : Result :=
  if n.toNat < 8 then
    .next (State.finish { s with din := fillFrom 8 n.toNat (BitVec.ofNat 8 (8 - n.toNat)) s.din })
  else .next (s.raise .illegalCommand)

/-- UNPAD.AES (R104). -/
def execUnpadAes (s : State) : Result :=
  match messageLength 16 s.dout with
  | some len => .next (State.finish { s with result := BitVec.ofNat 5 len })
  | none => .next (s.raise .paddingError)

/-- UNPAD.DES (R105). -/
def execUnpadDes (s : State) : Result :=
  match messageLength 8 s.dout with
  | some len => .next (State.finish { s with result := BitVec.ofNat 5 len })
  | none => .next (s.raise .paddingError)

end Sys2Proof.Machine
end

