-- ==== Sys2Proof/Machine/Base64.lean ====
section
/-! DEFINITION. The base64 alphabet and the coding of one group (44_transcoder.md R110 to R112), as pure
functions of bytes. -/

namespace Sys2Proof.Machine

/-- The pad character `=` (R110). -/
def padChar : Byte := 0x3D#8

/-- `B64[x]`: the ASCII code of a 6-bit value (R110). -/
def b64Char (x : BitVec 6) : Byte :=
  let n := x.toNat
  if n < 26 then BitVec.ofNat 8 (0x41 + n)
  else if n < 52 then BitVec.ofNat 8 (0x61 + (n - 26))
  else if n < 62 then BitVec.ofNat 8 (0x30 + (n - 52))
  else if n = 62 then 0x2B#8
  else 0x2F#8

/-- The index of a character in the alphabet; none for a byte outside it (R110). The pad character is
outside the alphabet. -/
def b64Index (c : Byte) : Option (BitVec 6) :=
  let n := c.toNat
  if 0x41 ≤ n ∧ n ≤ 0x5A then some (BitVec.ofNat 6 (n - 0x41))
  else if 0x61 ≤ n ∧ n ≤ 0x7A then some (BitVec.ofNat 6 (n - 0x61 + 26))
  else if 0x30 ≤ n ∧ n ≤ 0x39 then some (BitVec.ofNat 6 (n - 0x30 + 52))
  else if n = 0x2B then some 62#6
  else if n = 0x2F then some 63#6
  else none

/-- The four characters of the base64 group of the first `n` bytes (`n` in 1..3) of a block (the body of
B64E, R111). -/
def b64Encode (n : Nat) (x : Block) : Word :=
  let t : BitVec 24 :=
    getByte x 0 ++ (if 1 < n then getByte x 1 else 0#8) ++ (if 2 < n then getByte x 2 else 0#8)
  wordOf (b64Char (t.extractLsb' 18 6)) (b64Char (t.extractLsb' 12 6))
    (if 2 ≤ n then b64Char (t.extractLsb' 6 6) else padChar)
    (if n = 3 then b64Char (t.extractLsb' 0 6) else padChar)

/-- The index of a character that may be the pad character: 0 for `=` (R112). -/
def b64IndexOrPad (c : Byte) : Option (BitVec 6) := if c = padChar then some 0#6 else b64Index c

/-- The decoding of one base64 group: the number of bytes and the bytes, bytes past the number being 0, or
none where B64D raises InvalidEncodingError (R112). -/
def b64Decode (c0 c1 c2 c3 : Byte) : Option (Nat × Block) :=
  match b64Index c0, b64Index c1, b64IndexOrPad c2, b64IndexOrPad c3 with
  | some x0, some x1, some x2, some x3 =>
    let t : BitVec 24 := x0 ++ x1 ++ x2 ++ x3
    let p := (if c2 = padChar then 1 else 0) + (if c3 = padChar then 1 else 0)
    if c2 = padChar ∧ c3 ≠ padChar then none
    else if p = 1 ∧ t.extractLsb' 0 8 ≠ 0#8 then none
    else if p = 2 ∧ t.extractLsb' 0 16 ≠ 0#16 then none
    else some (3 - p, blockOf fun i => if i < 3 - p then t.extractLsb' (16 - 8 * i) 8 else 0#8)
  | _, _, _, _ => none

end Sys2Proof.Machine
end

