-- ==== Sys2Proof/Machine/Transcoder.lean ====
section
/-! DEFINITION. The transcoder's instructions (44_transcoder.md R111, R112): what each does at completion. -/

namespace Sys2Proof.Machine

/-- B64E n (R111); ARG outside 1..3 is IllegalCommand. -/
def execB64e (n : BitVec 4) (s : State) : Result :=
  if 1 ≤ n.toNat ∧ n.toNat ≤ 3 then
    .next (State.finish { s with dout := b64Encode n.toNat s.din ++ 0#96 })
  else .next (s.raise .illegalCommand)

/-- B64D (R112). -/
def execB64d (s : State) : Result :=
  match b64Decode (getByte s.din 0) (getByte s.din 1) (getByte s.din 2) (getByte s.din 3) with
  | some (len, bytes) => .next (State.finish { s with dout := bytes, result := BitVec.ofNat 5 len })
  | none => .next (s.raise .invalidEncodingError)

end Sys2Proof.Machine
end

