-- ==== Sys2Proof/Machine/Dispatch.lean ====
section
/-! DEFINITION. One arm per instruction: the body that runs at completion, with the key-length check, the
flags and the RK store (42_block_core.md R84). -/

namespace Sys2Proof.Machine

/-- The completion of a decoded command (R84). -/
def exec (i : Instr) (s : State) : Host.Outcome State Fault Refusal :=
  match i with
  | .encAes => Sys2Proof.Machine.execEncAes s
  | .encDes => Sys2Proof.Machine.execEncDes s
  | .decAes => Sys2Proof.Machine.execDecAes s
  | .decDes => Sys2Proof.Machine.execDecDes s
  | .cbceAes => Sys2Proof.Machine.execCbceAes s
  | .cbceDes => Sys2Proof.Machine.execCbceDes s
  | .cbcdAes => Sys2Proof.Machine.execCbcdAes s
  | .cbcdDes => Sys2Proof.Machine.execCbcdDes s
  | .kschedAes => Sys2Proof.Machine.execKschedAes s
  | .kschedDes => Sys2Proof.Machine.execKschedDes s
  | .knormAes => Sys2Proof.Machine.execKnormAes s
  | .knormDes => Sys2Proof.Machine.execKnormDes s
  | .ivgenAes => Sys2Proof.Machine.execIvgenAes s
  | .ivgenDes => Sys2Proof.Machine.execIvgenDes s
  | .padAes n => Sys2Proof.Machine.execPadAes n s
  | .padDes n => Sys2Proof.Machine.execPadDes n s
  | .unpadAes => Sys2Proof.Machine.execUnpadAes s
  | .unpadDes => Sys2Proof.Machine.execUnpadDes s
  | .b64e n => Sys2Proof.Machine.execB64e n s
  | .b64d => Sys2Proof.Machine.execB64d s

end Sys2Proof.Machine
end

