-- ==== Sys2Proof/Machine/Agents.lean ====
section
/-! DEFINITION. The steps of the agents (00_scope.md R12): the CORE's completion (R84), the host's accesses,
the entropy input, reset, and which of them moves next. -/

namespace Sys2Proof.Machine

/-- The CORE's completion of the command in flight (R84): a word that is no instruction completes with its
error code, an instruction runs its body. Nothing happens where no command is in flight. -/
def complete (s : State) : Result :=
  match s.phase with
  | .idle => .next s
  | .busy =>
    match decode s.cur with
    | .error e => .next (s.raise e)
    | .ok i => exec i s

/-- One event. -/
def perform (e : Event) (s : State) : Result :=
  match e with
  | .host a => busAccess a s
  | .complete => complete s
  | .entropy bytes => .next (s.deliver bytes)
  | .reset _ => .next s.resetStep

/-- One step: the next event, and where none is left the completion of the command in flight, which weak
fairness lets happen (R133). -/
def takeStep (s : State) : Result :=
  match s.inputs with
  | [] => complete s
  | e :: rest => perform e { s with inputs := rest }

end Sys2Proof.Machine
end

