-- ==== Sys2Proof/Machine/Step.lean ====
section
/-! DEFINITION. The step function, and where a command word is placed for the next step to run. -/

namespace Sys2Proof.Machine

/-- One atomic step of one agent (00_scope.md R12). -/
def step (s : State) : Host.Outcome State Fault Refusal := takeStep s

/-- The state with the command word whose bits are `w` accepted and about to complete: the core has no fetch
(10_state.md R30); the word that the next step runs is the one in CUR (R28, R84; log entry 6). -/
def State.withFetchWord (s : State) (nbits w : Nat) : State :=
  s.place (BitVec.ofNat 32 (w % 2 ^ nbits))

end Sys2Proof.Machine
end

