-- ==== Sys2Proof/Machine/HostSyntax.lean ====
section
/-! DEFINITION. The host's line syntax and its pseudo-operations as lists of events (30_encoding.md R51, R52).
`b` is BASE. -/

namespace Sys2Proof.Machine

/-- `wr REG, v` (R51). -/
def lineWr (b : Nat) (r : Reg) (v : Word) : List Event := [.host (.write 4 (b + r.offset) v)]

/-- `rd REG` (R51). -/
def lineRd (b : Nat) (r : Reg) : List Event := [.host (.read 4 (b + r.offset))]

/-- `wr128 X, h0h1…h15` (R52). -/
def lineWr128 (b : Nat) (x : Operand) (v : Block) : List Event :=
  [0, 1, 2, 3].flatMap fun j => lineWr b (.word x j) (getWord v j)

/-- `rd128 X` (R52). -/
def lineRd128 (b : Nat) (x : Operand) : List Event :=
  [0, 1, 2, 3].flatMap fun j => lineRd b (.word x j)

/-- `cmd MNEMONIC [n]` (R52). -/
def lineCmd (b : Nat) (i : Instr) : List Event := lineWr b .cmd (encode i)

/-- `clr`: clears DONE and WERR (R52). -/
def lineClr (b : Nat) : List Event := lineWr b .status 0x00000006#32

/-- A run of `wait` in which the host polls `k` times before the command completes and once after: the loop
is the host's own branch, which ends at the first poll that reads BUSY = 0 (R52). -/
def lineWait (b : Nat) (k : Nat) : List Event :=
  (List.replicate k (lineRd b .status)).flatten ++ .complete :: lineRd b .status

end Sys2Proof.Machine
end

