-- ==== Sys2Proof/Safety.lean ====
section
/-! DEFINITION. What is observed of a run, and what always holds of the machine. -/

namespace Sys2Proof.Machine

/-- A run has ended when the host has no step left to take and no command is in flight (R135). -/
def State.runEnded (s : State) : Bool := s.inputs.isEmpty && s.phase == .idle

/-- The observation of a run: the register file and what the host has read (R135). -/
structure Observation where
  key : Block
  keylen : BitVec 8
  din : Block
  dout : Block
  iv : Block
  result : BitVec 5
  rksel : BitVec 6
  rk : RkStore
  ctrl : Word
  status : Word
  reads : List Word
deriving DecidableEq, Repr

/-- The observation at a state (R135). -/
def State.observation (s : State) : Observation :=
  { key := s.key, keylen := s.keylen, din := s.din, dout := s.dout, iv := s.iv, result := s.result,
    rksel := s.rksel, rk := s.rk, ctrl := s.ctrlWord, status := s.statusWord, reads := s.reads }

/-- The RK store is empty or holds the schedule of some key: only KSCHED writes one (R27). -/
def RkStore.isSchedule : RkStore → Prop
  | .empty => True
  | .aes words => ∃ k : Block, words = aesKeyExpand k
  | .des keys => ∃ k : Half, keys = desKeySchedule k

/-- What holds at reset and after every step, whatever the agents do. -/
structure State.Inv (s : State) : Prop where
  /-- DONE and ERR are clear from accept to completion (R22, R83). -/
  busy_clear : s.phase = .busy → s.done = false ∧ s.err = .none
  /-- RESULT.LEN is a message length 0..15 or a decoded length 1..3 (R24). -/
  result_le : s.result.toNat ≤ 15
  /-- The RK store holds nothing or the schedule of some key (R27). -/
  rk_schedule : s.rk.isSchedule
  /-- Entropy waits only for an IVGEN in flight, and never more than it draws (R99, R100). -/
  entropy_le : s.entropy.length ≤ (if s.phase = .busy then s.drawSize else 0)

end Sys2Proof.Machine
end

