-- ==== Sys2Proof/Certificates/Slice0/Obligations.lean ====
section
/-! DEFINITION. The statements for the provers. Each docstring names the rule of spec/ it formalises. A host
access, a reset or a completion that is the next step stands first in the state's `inputs` (log entry 2). -/

open Sys2Proof Sys2Proof.Machine

/-! ## The command word -/

/-- Words written out from the table of R46 decode to the instructions they stand for. -/
def Obligations.DecodeReadsTheTablesWords : Prop :=
  decode 0x00000001#32 = .ok .encAes ∧ decode 0x00000012#32 = .ok .decDes ∧
  decode 0x00000003#32 = .ok .cbceAes ∧ decode 0x00000014#32 = .ok .cbcdDes ∧
  decode 0x00000005#32 = .ok .kschedAes ∧ decode 0x00000016#32 = .ok .knormDes ∧
  decode 0x00000007#32 = .ok .ivgenAes ∧ decode 0x00000F08#32 = .ok (.padAes 15#4) ∧
  decode 0x00000718#32 = .ok (.padDes 7#4) ∧ decode 0x00000009#32 = .ok .unpadAes ∧
  decode 0x0000030A#32 = .ok (.b64e 3#4) ∧ decode 0x0000000B#32 = .ok .b64d

/-- Decode and encode agree: every well-formed instruction, with its operand at every value the encoding
admits, is read back from its word (R46, R50). -/
def Obligations.DecodeOfEncode : Prop :=
  ∀ i : Instr, i.wf = true → decode (encode i) = .ok i

/-- A word that decodes is the word of the instruction it decodes to, so at most one instruction matches any
word and no bit is ignored (R46). -/
def Obligations.DecodedWordIsTheEncoding : Prop :=
  ∀ (v : Word) (i : Instr), decode v = .ok i → i.wf = true ∧ encode i = v

/-- The first check that fails decides the error, and a word that passes all of them is an instruction's
(R50). -/
def Obligations.FirstFailingDecodeCheckDecides : Prop :=
  ∀ v : Word,
    let op := (v.extractLsb' 0 4).toNat
    let alg := (v.extractLsb' 4 4).toNat
    let arg := (v.extractLsb' 8 4).toNat
    let b := if alg = 0 then 16 else 8
    if v.extractLsb' 12 20 ≠ 0#20 then decode v = .error .illegalCommand
    else if op = 0x0 ∨ op ≥ 0xC then decode v = .error .illegalCommand
    else if (1 ≤ op ∧ op ≤ 9) ∧ alg > 1 then decode v = .error .unknownAlgorithm
    else if (op = 0xA ∨ op = 0xB) ∧ alg ≠ 0 then decode v = .error .illegalCommand
    else if op = 0x8 ∧ arg ≥ b then decode v = .error .illegalCommand
    else if op = 0xA ∧ (arg = 0 ∨ arg > 3) then decode v = .error .illegalCommand
    else if ¬(op = 0x8 ∨ op = 0xA) ∧ arg ≠ 0 then decode v = .error .illegalCommand
    else ∃ i, decode v = .ok i ∧ i.wf = true ∧ encode i = v

/-! ## The life of a command -/

/-- A step in which the CORE completes runs the decoded instruction: `exec` of it, at the state less the
event, whether the completion is the next event or no event is left (R84, R133). -/
def Obligations.StepRunsTheDecodedInstruction : Prop :=
  ∀ (s : State) (i : Instr), s.phase = .busy → decode s.cur = .ok i →
    (s.inputs = [] → step s = exec i s) ∧
    (∀ rest, s.inputs = .complete :: rest → step s = exec i { s with inputs := rest })

/-- Accept: what a write to CMD does in either phase, and that no host access changes an operand register
(DOUT among them), KEYLEN, RKSEL or the command word while BUSY (R83). -/
def Obligations.CmdWriteAccepts : Prop :=
  (∀ (s : State) (v : Word) (rest : List Event),
    s.inputs = .host (.write 4 (s.base + 0x08) v) :: rest →
      (s.phase = .idle →
        step s = .next { s with inputs := rest, phase := .busy, cur := v, done := false, err := .none }) ∧
      (s.phase = .busy → step s = .next { s with inputs := rest, werr := true })) ∧
  (∀ (s t : State) (a : Access) (rest : List Event), s.inputs = .host a :: rest → s.phase = .busy →
    step s = .next t →
      t.key = s.key ∧ t.keylen = s.keylen ∧ t.din = s.din ∧ t.dout = s.dout ∧ t.iv = s.iv ∧
      t.rksel = s.rksel ∧ t.cur = s.cur ∧ t.phase = .busy)

/-- The key-length check: which commands fail it, when, and what a failure does (R85). -/
def Obligations.KeyLengthCheckDecides : Prop :=
  (∀ i ∈ [Instr.encAes, .decAes, .cbceAes, .cbcdAes, .kschedAes], ∀ s : State,
    (s.keylen = 16#8 → ∃ t, exec i s = .next t ∧ t.err = .none) ∧
    (s.keylen ≠ 16#8 → exec i s = .next { s with err := .keyLengthError, done := true, phase := .idle })) ∧
  (∀ i ∈ [Instr.encDes, .decDes, .cbceDes, .cbcdDes, .kschedDes], ∀ s : State,
    (s.keylen = 8#8 → ∃ t, exec i s = .next t ∧ t.err = .none) ∧
    (s.keylen ≠ 8#8 → exec i s = .next { s with err := .keyLengthError, done := true, phase := .idle })) ∧
  (∀ i ∈ [Instr.knormAes, .knormDes], ∀ s : State,
    (s.keylen ≠ 0#8 → ∃ t, exec i s = .next t ∧ t.err = .none) ∧
    (s.keylen = 0#8 → exec i s = .next { s with err := .keyLengthError, done := true, phase := .idle })) ∧
  (∀ i : Instr,
    i ∉ [Instr.encAes, .decAes, .cbceAes, .cbcdAes, .kschedAes, .encDes, .decDes, .cbceDes, .cbcdDes,
      .kschedDes, .knormAes, .knormDes] →
    ∀ s : State, s.err ≠ .keyLengthError → ∃ t, exec i s = .next t ∧ t.err ≠ .keyLengthError)

/-- A command reports the first error that applies, whether its completion is the next event or no event is
left: the decode error, then KeyLengthError, then the data error of its own body (R116). -/
def Obligations.FirstErrorIsReported : Prop :=
  (∀ s t : State, s.phase = .busy → (s.inputs = [] ∨ ∃ rest, s.inputs = .complete :: rest) →
    step s = .next t → t.phase = .idle →
    (∀ e, decode s.cur = .error e → t.err = e) ∧
    (∀ i, decode s.cur = .ok i →
      let keyFails :=
        (i ∈ [Instr.encAes, .decAes, .cbceAes, .cbcdAes, .kschedAes] ∧ s.keylen ≠ 16#8) ∨
        (i ∈ [Instr.encDes, .decDes, .cbceDes, .cbcdDes, .kschedDes] ∧ s.keylen ≠ 8#8) ∨
        (i ∈ [Instr.knormAes, .knormDes] ∧ s.keylen = 0#8)
      (keyFails → t.err = .keyLengthError) ∧
      (¬keyFails →
        t.err = .none ∨ (t.err = .paddingError ∧ i ∈ [Instr.unpadAes, .unpadDes]) ∨
        (t.err = .invalidEncodingError ∧ i = .b64d)))) ∧
  decode 0x00000F29#32 = .error .unknownAlgorithm

/-- Errors are precise: a command that completes with an error writes STATUS.ERR, STATUS.DONE and PHASE and
nothing else (R117). -/
def Obligations.ErrorsArePrecise : Prop :=
  ∀ s t : State, s.phase = .busy → (s.inputs = [] ∨ ∃ rest, s.inputs = .complete :: rest) →
    step s = .next t → t.phase = .idle → t.err ≠ .none →
      t = { s with inputs := s.inputs.tail, err := t.err, done := true, phase := .idle }

/-- A reported error stays until the next accept or reset, and the same command issued again on the same
operands reports it again (R118). -/
def Obligations.ErrorStaysAndRepeats : Prop :=
  (∀ s t : State, s.phase = .idle → step s = .next t → t.err ≠ s.err →
    (∃ v rest, s.inputs = .host (.write 4 (s.base + 0x08) v) :: rest) ∨
    (∃ lost rest, s.inputs = .reset lost :: rest)) ∧
  (∀ s t : State, s.phase = .busy → s.inputs = [] → step s = .next t → t.phase = .idle → t.err ≠ .none →
    ∃ u, step { t with phase := .busy, cur := s.cur, done := false, err := .none } = .next u ∧
      u.err = t.err ∧ u.done = true)

/-- With no event left, every command in flight completes in the next step, but for an IVGEN whose draw is not
answered (R84, R133). -/
def Obligations.CommandInFlightCompletes : Prop :=
  ∀ s : State, s.phase = .busy → s.inputs = [] →
    (decode s.cur = .ok .ivgenAes → 16 ≤ s.entropy.length) →
    (decode s.cur = .ok .ivgenDes → 8 ≤ s.entropy.length) →
    ∃ t, step s = .next t ∧ t.phase = .idle ∧ t.done = true

/-- An IVGEN whose draw is never answered hangs (R99, R100, R133): through any number of steps of a schedule
that holds no entropy delivery and no reset, and after it has run out, the IVGEN stays in flight, BUSY reads 1
and no data register changes. Where the schedule holds completions only, each step takes one of them off and
changes nothing else; with none left the state stays as it is. That agents move by a schedule is the model's
(log entry 2). -/
def Obligations.UnansweredIvgenHangs : Prop :=
  ∀ s : State, s.phase = .busy →
    ((decode s.cur = .ok .ivgenAes ∧ s.entropy.length < 16) ∨
     (decode s.cur = .ok .ivgenDes ∧ s.entropy.length < 8)) →
    ((∀ e ∈ s.inputs, (∀ bytes, e ≠ .entropy bytes) ∧ ∀ lost, e ≠ .reset lost) →
      ∀ (n : Nat) (t : State), Sys2Proof.core.run n s = .next t →
        t.phase = .busy ∧ t.statusWord.getLsbD 0 = true ∧ t.cur = s.cur ∧ t.entropy = s.entropy ∧
        t.key = s.key ∧ t.keylen = s.keylen ∧ t.din = s.din ∧ t.dout = s.dout ∧ t.iv = s.iv ∧
        t.result = s.result ∧ t.rksel = s.rksel ∧ t.rk = s.rk ∧ t.err = s.err) ∧
    ((∀ e ∈ s.inputs, e = .complete) →
      ∀ n : Nat, Sys2Proof.core.run n s = .next { s with inputs := s.inputs.drop n })

/-- While a command stays in flight a step changes no operand, no result and no error code (R132). CTRL and
DONE change only by the host's writes to CTRL and STATUS; WERR falls only by a write of 1 to STATUS bit 2, and
rises only by a write that BUSY drops: one to KEY, DIN, IV, KEYLEN, RKSEL or CMD (R129). -/
def Obligations.CommandInFlightIsInvisible : Prop :=
  ∀ s t : State, s.phase = .busy → step s = .next t → t.phase = .busy →
    t.key = s.key ∧ t.keylen = s.keylen ∧ t.din = s.din ∧ t.dout = s.dout ∧ t.iv = s.iv ∧
    t.result = s.result ∧ t.rksel = s.rksel ∧ t.rk = s.rk ∧ t.err = s.err ∧ t.cur = s.cur ∧
    (t.ieDone ≠ s.ieDone ∨ t.ieErr ≠ s.ieErr →
      ∃ v rest, s.inputs = .host (.write 4 s.base v) :: rest) ∧
    (t.done ≠ s.done → ∃ v rest, s.inputs = .host (.write 4 (s.base + 0x04) v) :: rest ∧
      v.getLsbD 1 = true) ∧
    (s.werr = true → t.werr = false → ∃ v rest, s.inputs = .host (.write 4 (s.base + 0x04) v) :: rest ∧
      v.getLsbD 2 = true) ∧
    (s.werr = false → t.werr = true → ∃ off v rest, s.inputs = .host (.write 4 (s.base + off) v) :: rest ∧
      (off = 0x08 ∨ off = 0x10 ∨ off = 0x14 ∨
        (off % 4 = 0 ∧ ((0x20 ≤ off ∧ off < 0x40) ∨ (0x50 ≤ off ∧ off < 0x60)))))

/-! ## Registers and bus -/

/-- The reset step: every register and hidden state at 0, whatever was in flight; the access on the same edge
has no effect (R126). That no delivered byte is left, and that entropy delivered in any IDLE state is discarded,
where R126 speaks of entropy for a command that reset abandoned, is the model's reading (log entry 5). -/
def Obligations.ResetClearsTheMachine : Prop :=
  (∀ (s : State) (lost : Option Access) (rest : List Event), s.inputs = .reset lost :: rest →
    ∃ t, step s = .next t ∧
      t.ieDone = false ∧ t.ieErr = false ∧ t.statusWord = 0#32 ∧ t.key = 0#128 ∧ t.keylen = 0#8 ∧
      t.din = 0#128 ∧ t.dout = 0#128 ∧ t.iv = 0#128 ∧ t.result = 0#5 ∧ t.rksel = 0#6 ∧ t.rk = .empty ∧
      t.phase = .idle ∧ t.cur = 0#32 ∧ t.irq = false ∧ t.entropy = []) ∧
  (∀ (s : State) (bytes : List Byte) (rest : List Event), s.phase = .idle →
    s.inputs = .entropy bytes :: rest → step s = .next { s with inputs := rest })

/-- The interrupt line, and each of the four ways it falls (R120). -/
def Obligations.InterruptLineFollowsStatus : Prop :=
  (∀ s : State, s.irq = true ↔
    s.done = true ∧ (s.ieDone = true ∨ (s.ieErr = true ∧ s.err.code ≠ 0#4))) ∧
  (∀ (s t : State) (v : Word) (rest : List Event), step s = .next t →
    (s.inputs = .host (.write 4 (s.base + 0x04) v) :: rest → v.getLsbD 1 = true → t.irq = false) ∧
    (s.inputs = .host (.write 4 (s.base + 0x08) v) :: rest → s.phase = .idle → t.irq = false) ∧
    (s.inputs = .host (.write 4 s.base v) :: rest → v.getLsbD 0 = false → v.getLsbD 1 = false →
      t.irq = false) ∧
    (∀ lost, s.inputs = .reset lost :: rest → t.irq = false)) ∧
  State.reset.irq = false

/-- CTRL: its two enables are written and read back in either phase, its other bits read 0, and each enable
asserts `irq` (R21). -/
def Obligations.CtrlHoldsTheInterruptEnables : Prop :=
  (∀ (s : State) (v : Word) (rest : List Event), s.inputs = .host (.write 4 s.base v) :: rest →
    step s = .next { s with inputs := rest, ieDone := v.getLsbD 0, ieErr := v.getLsbD 1 }) ∧
  (∀ (s : State) (rest : List Event), s.inputs = .host (.read 4 s.base) :: rest →
    ∃ w : Word, step s = .next { s with inputs := rest, reads := w :: s.reads } ∧
      w.getLsbD 0 = s.ieDone ∧ w.getLsbD 1 = s.ieErr ∧ ∀ k, 2 ≤ k → w.getLsbD k = false) ∧
  (∀ s : State, s.ieDone = true → s.done = true → s.irq = true) ∧
  (∀ s : State, s.ieErr = true → s.done = true → s.err ≠ .none → s.irq = true) ∧
  State.reset.ctrlWord = 0#32

/-- STATUS: the place of each field in the word the host reads, and the write-1-to-clear of DONE and WERR, in
either phase (R22). -/
def Obligations.StatusReadsAndClears : Prop :=
  (∀ (s : State) (rest : List Event), s.inputs = .host (.read 4 (s.base + 0x04)) :: rest →
    ∃ w : Word, step s = .next { s with inputs := rest, reads := w :: s.reads } ∧
      (w.getLsbD 0 = true ↔ s.phase = .busy) ∧ w.getLsbD 1 = s.done ∧ w.getLsbD 2 = s.werr ∧
      w.getLsbD 3 = false ∧ w.extractLsb' 4 4 = s.err.code ∧
      (w.getLsbD 8 = true ↔ s.rk ≠ .empty) ∧ (w.getLsbD 9 = true ↔ ∃ k, s.rk = .des k) ∧
      ∀ k, 10 ≤ k → w.getLsbD k = false) ∧
  (∀ (s : State) (v : Word) (rest : List Event), s.inputs = .host (.write 4 (s.base + 0x04) v) :: rest →
    step s = .next { s with
      inputs := rest
      done := if v.getLsbD 1 then false else s.done
      werr := if v.getLsbD 2 then false else s.werr })

/-- RKSEL: bits [5:0] are stored, bits [31:6] read 0 and ignore writes, reset is 0, and no command writes it
(R25). -/
def Obligations.RkselHoldsTheReadbackIndex : Prop :=
  (∀ (s : State) (v : Word) (rest : List Event), s.inputs = .host (.write 4 (s.base + 0x14) v) :: rest →
    s.phase = .idle → step s = .next { s with inputs := rest, rksel := v.extractLsb' 0 6 }) ∧
  (∀ (s : State) (rest : List Event), s.inputs = .host (.read 4 (s.base + 0x14)) :: rest →
    step s = .next { s with inputs := rest, reads := (0#26 ++ s.rksel) :: s.reads }) ∧
  (∀ (i : Instr) (s t : State), exec i s = .next t → t.rksel = s.rksel) ∧
  State.reset.rksel = 0#6

/-- KEYLEN, RESULT and CMD as registers: KEYLEN keeps bits [7:0] of a write made while IDLE, RESULT ignores
writes, each reads back with its other bits 0, and CMD reads 0 (R16, R23, R24). -/
def Obligations.KeylenResultAndCmdRegisters : Prop :=
  (∀ (s : State) (v : Word) (rest : List Event), s.inputs = .host (.write 4 (s.base + 0x10) v) :: rest →
    s.phase = .idle → step s = .next { s with inputs := rest, keylen := v.extractLsb' 0 8 }) ∧
  (∀ (s : State) (rest : List Event), s.inputs = .host (.read 4 (s.base + 0x10)) :: rest →
    step s = .next { s with inputs := rest, reads := (0#24 ++ s.keylen) :: s.reads }) ∧
  (∀ (s : State) (rest : List Event), s.inputs = .host (.read 4 (s.base + 0x0C)) :: rest →
    step s = .next { s with inputs := rest, reads := (0#27 ++ s.result) :: s.reads }) ∧
  (∀ (s : State) (v : Word) (rest : List Event), s.inputs = .host (.write 4 (s.base + 0x0C) v) :: rest →
    step s = .next { s with inputs := rest }) ∧
  (∀ (s : State) (rest : List Event), s.inputs = .host (.read 4 (s.base + 0x08)) :: rest →
    step s = .next { s with inputs := rest, reads := 0#32 :: s.reads }) ∧
  State.reset.keylen = 0#8 ∧ State.reset.result = 0#5

/-- RKDATA: the word of the RK store that RKSEL selects, the DES half-keys bit by bit, and 0 elsewhere; writes
are ignored (R26). -/
def Obligations.RkdataReadsTheStore : Prop :=
  (∀ (s : State) (rest : List Event), s.inputs = .host (.read 4 (s.base + 0x18)) :: rest → s.phase = .idle →
    ∃ w : Word, step s = .next { s with inputs := rest, reads := w :: s.reads } ∧
      (s.rk = .empty → w = 0#32) ∧
      (∀ ws, s.rk = .aes ws →
        (s.rksel.toNat < 44 → w = ws.getD s.rksel.toNat 0#32) ∧ (44 ≤ s.rksel.toNat → w = 0#32)) ∧
      (∀ ks, s.rk = .des ks →
        (s.rksel.toNat < 32 → w.extractLsb' 24 8 = 0#8 ∧
          ∀ b, 1 ≤ b → b ≤ 24 →
            w.getLsbD (24 - b) = desBit (ks.getD (s.rksel.toNat / 2) 0#48) (24 * (s.rksel.toNat % 2) + b)) ∧
        (32 ≤ s.rksel.toNat → w = 0#32))) ∧
  (∀ (s : State) (v : Word) (rest : List Event), s.inputs = .host (.write 4 (s.base + 0x18) v) :: rest →
    step s = .next { s with inputs := rest }) ∧
  State.reset.rkdataWord = 0#32

/-- The RK store: KSCHED writes it, every other command that completes without error clears it, a command that
ends in error leaves it, and nothing else writes a schedule (R27). -/
def Obligations.RkStoreIsWrittenByKsched : Prop :=
  (∀ (i : Instr) (s t : State), s.phase = .busy → exec i s = .next t → t.phase = .idle →
    (t.err ≠ .none → t.rk = s.rk) ∧
    (t.err = .none →
      t.rk = if i = .kschedAes then .aes (aesKeyExpand s.key)
        else if i = .kschedDes then .des (desKeySchedule (s.key.extractLsb' 64 64)) else .empty)) ∧
  (∀ s t : State, step s = .next t → t.rk ≠ s.rk → t.rk ≠ .empty →
    s.phase = .busy ∧ (decode s.cur = .ok .kschedAes ∨ decode s.cur = .ok .kschedDes)) ∧
  State.reset.rk = .empty

/-- A bus error is a fault and nothing else: exactly the accesses to the window that are not 32 bits wide,
misaligned or unmapped; every other access to the window completes, in either phase (R34). -/
def Obligations.BusErrorsFault : Prop :=
  ∀ (s : State) (a : Access) (off : Nat) (rest : List Event), s.inputs = .host a :: rest → off < 0x100 →
    a.addr = s.base + off →
      ((a.size ≠ 4 ∨ off % 4 ≠ 0 ∨ off = 0x1C ∨ 0x60 ≤ off) → step s = .fault .busError) ∧
      (¬(a.size ≠ 4 ∨ off % 4 ≠ 0 ∨ off = 0x1C ∨ 0x60 ≤ off) → ∃ t, step s = .next t)

/-- An operand register is four bus words, the lower-numbered byte in the more significant position: what a
read returns and what a write stores while IDLE; DOUT ignores writes (R36, R18). -/
def Obligations.OperandWordsArePackedBigEndian : Prop :=
  (∀ (s : State) (x : Operand) (off j : Nat) (rest : List Event),
    (x, off) ∈ [(Operand.key, 0x20), (.din, 0x30), (.dout, 0x40), (.iv, 0x50)] → j < 4 → s.phase = .idle →
    s.inputs = .host (.read 4 (s.base + (off + 4 * j))) :: rest →
    step s = .next { s with
      inputs := rest
      reads := (getByte (s.operand x) (4 * j) ++ getByte (s.operand x) (4 * j + 1) ++
        getByte (s.operand x) (4 * j + 2) ++ getByte (s.operand x) (4 * j + 3)) :: s.reads }) ∧
  (∀ (s : State) (x : Operand) (off j : Nat) (v : Word) (rest : List Event),
    (x, off) ∈ [(Operand.key, 0x20), (.din, 0x30), (.dout, 0x40), (.iv, 0x50)] → j < 4 → s.phase = .idle →
    s.inputs = .host (.write 4 (s.base + (off + 4 * j)) v) :: rest →
    ∃ y : Block,
      step s = .next
        (match x with
          | .key => { s with inputs := rest, key := y }
          | .din => { s with inputs := rest, din := y }
          | .dout => { s with inputs := rest }
          | .iv => { s with inputs := rest, iv := y }) ∧
      ∀ i < 16, getByte y i =
        if i / 4 = j then v.extractLsb' (24 - 8 * (i % 4)) 8 else getByte (s.operand x) i)

/-- Reads while BUSY: the control registers read their value; KEY, DIN, IV, DOUT and RKDATA return the next
free value, of which nothing is known (log entry 4), and the next one is another draw (R130). -/
def Obligations.ReadsWhileBusy : Prop :=
  (∀ (s : State) (off : Nat) (w : Word) (rest : List Event), s.phase = .busy →
    s.inputs = .host (.read 4 (s.base + off)) :: rest →
    (off, w) ∈ [(0x00, s.ctrlWord), (0x04, s.statusWord), (0x08, 0#32), (0x0C, s.result.setWidth 32),
      (0x10, s.keylen.setWidth 32), (0x14, s.rksel.setWidth 32)] →
    step s = .next { s with inputs := rest, reads := w :: s.reads }) ∧
  (∀ (s : State) (off : Nat) (rest : List Event), s.phase = .busy →
    s.inputs = .host (.read 4 (s.base + off)) :: rest →
    (off = 0x18 ∨ (0x20 ≤ off ∧ off < 0x60 ∧ off % 4 = 0)) →
    step s = .next { s with
      inputs := rest, reads := Config.busyRead s.draws :: s.reads, draws := s.draws + 1 })

/-- Writes while BUSY, destination by destination; and WERR stays 1 until the host writes 1 to STATUS bit 2 or
until reset (R129). -/
def Obligations.WritesWhileBusy : Prop :=
  (∀ (s : State) (off : Nat) (v : Word) (rest : List Event), s.phase = .busy →
    s.inputs = .host (.write 4 (s.base + off) v) :: rest →
    ((off = 0x08 ∨ off = 0x10 ∨ off = 0x14 ∨
        (off % 4 = 0 ∧ ((0x20 ≤ off ∧ off < 0x40) ∨ (0x50 ≤ off ∧ off < 0x60)))) →
      step s = .next { s with inputs := rest, werr := true }) ∧
    (off = 0x00 → step s = .next { s with inputs := rest, ieDone := v.getLsbD 0, ieErr := v.getLsbD 1 }) ∧
    (off = 0x04 → step s = .next { s with
      inputs := rest, done := s.done && !v.getLsbD 1, werr := s.werr && !v.getLsbD 2 }) ∧
    ((off = 0x0C ∨ off = 0x18 ∨ (off % 4 = 0 ∧ 0x40 ≤ off ∧ off < 0x50)) →
      step s = .next { s with inputs := rest })) ∧
  (∀ s t : State, step s = .next t → s.werr = true → t.werr = false →
    (∃ v rest, s.inputs = .host (.write 4 (s.base + 0x04) v) :: rest ∧ v.getLsbD 2 = true) ∨
    (∃ lost rest, s.inputs = .reset lost :: rest))

/-- A read of a mapped register changes no register, and two reads of it in a row while IDLE return the same
word (R35). -/
def Obligations.ReadsHaveNoSideEffect : Prop :=
  (∀ (s t : State) (addr : Nat) (rest : List Event), s.inputs = .host (.read 4 addr) :: rest →
    step s = .next t →
      ∃ w, t.reads = w :: s.reads ∧
        t = { s with inputs := rest, reads := w :: s.reads, draws := t.draws }) ∧
  (∀ (s t u : State) (addr : Nat) (rest : List Event), s.phase = .idle →
    s.inputs = .host (.read 4 addr) :: .host (.read 4 addr) :: rest → step s = .next t → step t = .next u →
      ∃ w, u.reads = w :: w :: s.reads)

/-- Which commands write which register: KEY and KEYLEN only KNORM, DIN only PAD, DOUT the ciphers and the
transcoder, IV the chaining commands and IVGEN, RESULT only UNPAD and B64D; CTRL, WERR and RKSEL none (R15 to
R19, R21, R22, R24, R25, R84). That none changes CUR is the model's reading of R84 (log entry 9); BASE, the
schedule, the log of reads and the count of free values are the model's own fields (log entries 1 to 4). -/
def Obligations.EachRegisterHasItsWriters : Prop :=
  ∀ (i : Instr) (s t : State), exec i s = .next t →
    (t.key ≠ s.key → i ∈ [Instr.knormAes, .knormDes]) ∧
    (t.keylen ≠ s.keylen → i ∈ [Instr.knormAes, .knormDes]) ∧
    (t.din ≠ s.din → ∃ n, i = .padAes n ∨ i = .padDes n) ∧
    (t.dout ≠ s.dout →
      i ∈ [Instr.encAes, .encDes, .decAes, .decDes, .cbceAes, .cbceDes, .cbcdAes, .cbcdDes, .b64d] ∨
      ∃ n, i = .b64e n) ∧
    (t.iv ≠ s.iv → i ∈ [Instr.cbceAes, .cbceDes, .cbcdAes, .cbcdDes, .ivgenAes, .ivgenDes]) ∧
    (t.result ≠ s.result → i ∈ [Instr.unpadAes, .unpadDes, .b64d]) ∧
    t.ieDone = s.ieDone ∧ t.ieErr = s.ieErr ∧ t.werr = s.werr ∧ t.rksel = s.rksel ∧ t.cur = s.cur ∧
    t.page = s.page ∧ t.inputs = s.inputs ∧ t.reads = s.reads ∧ t.draws = s.draws

/-! ## The instructions: what each does, on every state, and what it leaves -/

/-- ENC.AES and ENC.DES (R87, R88). -/
def Obligations.EncryptCommands : Prop :=
  (decode 0x00000001#32 = .ok .encAes ∧
    (∀ s : State, s.keylen = 16#8 → exec .encAes s = .next { s with
      dout := aesEncrypt s.key s.din, err := .none, done := true, phase := .idle, rk := .empty }) ∧
    (∀ s : State, s.keylen ≠ 16#8 → exec .encAes s = .next { s with
      err := .keyLengthError, done := true, phase := .idle }) ∧
    aesEncrypt 0x000102030405060708090a0b0c0d0e0f#128 0x00112233445566778899aabbccddeeff#128 =
      0x69c4e0d86a7b0430d8cdb78070b4c55a#128) ∧
  (decode 0x00000011#32 = .ok .encDes ∧
    (∀ s : State, s.keylen = 8#8 → exec .encDes s = .next { s with
      dout := desEncrypt (s.key.extractLsb' 64 64) (s.din.extractLsb' 64 64) ++ 0#64
      err := .none, done := true, phase := .idle, rk := .empty }) ∧
    (∀ s : State, s.keylen ≠ 8#8 → exec .encDes s = .next { s with
      err := .keyLengthError, done := true, phase := .idle }) ∧
    desEncrypt 0x133457799bbcdff1#64 0x0123456789abcdef#64 = 0x85e813540f0ab405#64)

/-- DEC.AES and DEC.DES (R89, R90). -/
def Obligations.DecryptCommands : Prop :=
  (decode 0x00000002#32 = .ok .decAes ∧
    (∀ s : State, s.keylen = 16#8 → exec .decAes s = .next { s with
      dout := aesDecrypt s.key s.din, err := .none, done := true, phase := .idle, rk := .empty }) ∧
    (∀ s : State, s.keylen ≠ 16#8 → exec .decAes s = .next { s with
      err := .keyLengthError, done := true, phase := .idle }) ∧
    aesDecrypt 0x000102030405060708090a0b0c0d0e0f#128 0x69c4e0d86a7b0430d8cdb78070b4c55a#128 =
      0x00112233445566778899aabbccddeeff#128) ∧
  (decode 0x00000012#32 = .ok .decDes ∧
    (∀ s : State, s.keylen = 8#8 → exec .decDes s = .next { s with
      dout := desDecrypt (s.key.extractLsb' 64 64) (s.din.extractLsb' 64 64) ++ 0#64
      err := .none, done := true, phase := .idle, rk := .empty }) ∧
    (∀ s : State, s.keylen ≠ 8#8 → exec .decDes s = .next { s with
      err := .keyLengthError, done := true, phase := .idle }) ∧
    desDecrypt 0x133457799bbcdff1#64 0x85e813540f0ab405#64 = 0x0123456789abcdef#64)

/-- KSCHED.AES and KSCHED.DES, with the word that RKDATA then reads for every RKSEL: the word or the half-key,
bit by bit, that it selects, and 0 beyond them (R91, R92, R26). -/
def Obligations.KeyScheduleCommands : Prop :=
  (decode 0x00000005#32 = .ok .kschedAes ∧
    (∀ s : State, s.keylen = 16#8 → exec .kschedAes s = .next { s with
      rk := .aes (aesKeyExpand s.key), err := .none, done := true, phase := .idle }) ∧
    (∀ s : State, s.keylen ≠ 16#8 → exec .kschedAes s = .next { s with
      err := .keyLengthError, done := true, phase := .idle }) ∧
    (∀ s t : State, s.keylen = 16#8 → exec .kschedAes s = .next t →
      t.rkv = true ∧ t.rkalg = false ∧
      t.rkdataWord = if s.rksel.toNat < 44 then (aesKeyExpand s.key).getD s.rksel.toNat 0#32 else 0#32) ∧
    (aesKeyExpand 0x2b7e151628aed2a6abf7158809cf4f3c#128).getD 4 0#32 = 0xa0fafe17#32 ∧
    (aesKeyExpand 0x2b7e151628aed2a6abf7158809cf4f3c#128).getD 43 0#32 = 0xb6630ca6#32) ∧
  (decode 0x00000015#32 = .ok .kschedDes ∧
    (∀ s : State, s.keylen = 8#8 → exec .kschedDes s = .next { s with
      rk := .des (desKeySchedule (s.key.extractLsb' 64 64)), err := .none, done := true, phase := .idle }) ∧
    (∀ s : State, s.keylen ≠ 8#8 → exec .kschedDes s = .next { s with
      err := .keyLengthError, done := true, phase := .idle }) ∧
    (∀ s t : State, s.keylen = 8#8 → exec .kschedDes s = .next t →
      t.rkv = true ∧ t.rkalg = true ∧ (32 ≤ s.rksel.toNat → t.rkdataWord = 0#32) ∧
      (s.rksel.toNat < 32 → t.rkdataWord.extractLsb' 24 8 = 0#8 ∧
        ∀ b, 1 ≤ b → b ≤ 24 → t.rkdataWord.getLsbD (24 - b) =
          desBit ((desKeySchedule (s.key.extractLsb' 64 64)).getD (s.rksel.toNat / 2) 0#48)
            (24 * (s.rksel.toNat % 2) + b))) ∧
    (∀ s t : State, s.keylen = 8#8 → s.key.extractLsb' 64 64 = 0x133457799bbcdff1#64 →
      exec .kschedDes s = .next t →
        (s.rksel = 0#6 → t.rkdataWord = 0x001B02EF#32) ∧ (s.rksel = 1#6 → t.rkdataWord = 0x00FC7072#32) ∧
        (s.rksel = 31#6 → t.rkdataWord = 0x000E17F5#32)))

/-- KNORM.AES and KNORM.DES (R93, R94). -/
def Obligations.KeyNormalisationCommands : Prop :=
  (decode 0x00000006#32 = .ok .knormAes ∧
    (∀ s : State, s.keylen ≠ 0#8 → exec .knormAes s = .next { s with
      key := blockOf fun i => if i < s.keylen.toNat then getByte s.key i else 0#8
      keylen := 16#8, err := .none, done := true, phase := .idle, rk := .empty }) ∧
    (∀ s : State, s.keylen = 0#8 → exec .knormAes s = .next { s with
      err := .keyLengthError, done := true, phase := .idle }) ∧
    (∀ s t : State, 16#8 ≤ s.keylen → exec .knormAes s = .next t → t.key = s.key) ∧
    (∀ s t : State, s.keylen = 3#8 → s.key.extractLsb' 104 24 = 0x616263#24 → exec .knormAes s = .next t →
      t.key = 0x61626300000000000000000000000000#128 ∧ t.keylen = 16#8)) ∧
  (decode 0x00000016#32 = .ok .knormDes ∧
    (∀ s : State, s.keylen ≠ 0#8 → exec .knormDes s = .next { s with
      key := blockOf fun i => if i < s.keylen.toNat ∧ i < 8 then getByte s.key i else 0#8
      keylen := 8#8, err := .none, done := true, phase := .idle, rk := .empty }) ∧
    (∀ s : State, s.keylen = 0#8 → exec .knormDes s = .next { s with
      err := .keyLengthError, done := true, phase := .idle }) ∧
    (∀ s t : State, 8#8 ≤ s.keylen → exec .knormDes s = .next t →
      t.key = s.key.extractLsb' 64 64 ++ 0#64))

/-- CBCE.AES and CBCE.DES (R95, R96). -/
def Obligations.ChainedEncryptCommands : Prop :=
  (decode 0x00000003#32 = .ok .cbceAes ∧
    (∀ s : State, s.keylen = 16#8 → exec .cbceAes s = .next { s with
      dout := aesEncrypt s.key (s.din ^^^ s.iv), iv := aesEncrypt s.key (s.din ^^^ s.iv)
      err := .none, done := true, phase := .idle, rk := .empty }) ∧
    (∀ s : State, s.keylen ≠ 16#8 → exec .cbceAes s = .next { s with
      err := .keyLengthError, done := true, phase := .idle }) ∧
    (∀ s t u : State, s.iv = 0#128 → exec .cbceAes s = .next t → exec .encAes s = .next u →
      t.dout = u.dout)) ∧
  (decode 0x00000013#32 = .ok .cbceDes ∧
    (∀ s : State, s.keylen = 8#8 →
      let c := desEncrypt (s.key.extractLsb' 64 64) (s.din.extractLsb' 64 64 ^^^ s.iv.extractLsb' 64 64)
      exec .cbceDes s = .next { s with
        dout := c ++ 0#64, iv := c ++ 0#64
        err := .none, done := true, phase := .idle, rk := .empty }) ∧
    (∀ s : State, s.keylen ≠ 8#8 → exec .cbceDes s = .next { s with
      err := .keyLengthError, done := true, phase := .idle }))

/-- CBCD.AES and CBCD.DES (R97, R98). -/
def Obligations.ChainedDecryptCommands : Prop :=
  (decode 0x00000004#32 = .ok .cbcdAes ∧
    (∀ s : State, s.keylen = 16#8 → exec .cbcdAes s = .next { s with
      dout := aesDecrypt s.key s.din ^^^ s.iv, iv := s.din
      err := .none, done := true, phase := .idle, rk := .empty }) ∧
    (∀ s : State, s.keylen ≠ 16#8 → exec .cbcdAes s = .next { s with
      err := .keyLengthError, done := true, phase := .idle }) ∧
    (∀ s t u : State, s.iv = 0#128 → exec .cbcdAes s = .next t → exec .decAes s = .next u →
      t.dout = u.dout)) ∧
  (decode 0x00000014#32 = .ok .cbcdDes ∧
    (∀ s : State, s.keylen = 8#8 → exec .cbcdDes s = .next { s with
      dout := (desDecrypt (s.key.extractLsb' 64 64) (s.din.extractLsb' 64 64) ^^^ s.iv.extractLsb' 64 64) ++
        0#64
      iv := s.din.extractLsb' 64 64 ++ 0#64
      err := .none, done := true, phase := .idle, rk := .empty }) ∧
    (∀ s : State, s.keylen ≠ 8#8 → exec .cbcdDes s = .next { s with
      err := .keyLengthError, done := true, phase := .idle }))

/-- IVGEN.AES and IVGEN.DES: with the draw answered, IV holds its bytes; else they wait and change nothing
(R99, R100). A delivery while one is in flight adds its bytes, in order, to those delivered before, as far as
the draw needs them, and changes nothing else; so once enough have come, in however many deliveries, a
completion puts the first of them in IV (R133). While another command is in flight a delivery leaves nothing.
How deliveries add up, and what is discarded or used up, is the model's reading (log entry 5). -/
def Obligations.IvGenerationCommands : Prop :=
  (decode 0x00000007#32 = .ok .ivgenAes ∧
    (∀ s : State, 16 ≤ s.entropy.length → exec .ivgenAes s = .next { s with
      iv := blockOf fun i => s.entropy.getD i 0#8
      entropy := [], err := .none, done := true, phase := .idle, rk := .empty }) ∧
    (∀ s : State, s.entropy.length < 16 → exec .ivgenAes s = .next s)) ∧
  (decode 0x00000017#32 = .ok .ivgenDes ∧
    (∀ s : State, 8 ≤ s.entropy.length → exec .ivgenDes s = .next { s with
      iv := blockOf fun i => if i < 8 then s.entropy.getD i 0#8 else 0#8
      entropy := [], err := .none, done := true, phase := .idle, rk := .empty }) ∧
    (∀ s : State, s.entropy.length < 8 → exec .ivgenDes s = .next s)) ∧
  (∀ (s : State) (bytes : List Byte) (rest : List Event), s.phase = .busy →
    s.inputs = .entropy bytes :: rest →
    (decode s.cur = .ok .ivgenAes → step s = .next { s with
      inputs := rest, entropy := (s.entropy ++ bytes).take 16 }) ∧
    (decode s.cur = .ok .ivgenDes → step s = .next { s with
      inputs := rest, entropy := (s.entropy ++ bytes).take 8 }) ∧
    (decode s.cur ≠ .ok .ivgenAes → decode s.cur ≠ .ok .ivgenDes → step s = .next { s with
      inputs := rest, entropy := [] })) ∧
  (∀ (s : State) (parts : List (List Byte)), s.phase = .busy → s.entropy = [] →
    s.inputs = parts.map .entropy →
    (decode s.cur = .ok .ivgenAes → 16 ≤ parts.flatten.length →
      Sys2Proof.core.run (parts.length + 1) s = .next { s with
        inputs := [], iv := blockOf fun i => parts.flatten.getD i 0#8
        err := .none, done := true, phase := .idle, rk := .empty }) ∧
    (decode s.cur = .ok .ivgenDes → 8 ≤ parts.flatten.length →
      Sys2Proof.core.run (parts.length + 1) s = .next { s with
        inputs := [], iv := blockOf fun i => if i < 8 then parts.flatten.getD i 0#8 else 0#8
        err := .none, done := true, phase := .idle, rk := .empty }))

/-- PAD.AES n and PAD.DES n (R102, R103). -/
def Obligations.PadCommands : Prop :=
  ((∀ n : BitVec 4, decode (0x00000008#32 ||| n.setWidth 32 <<< 8) = .ok (.padAes n)) ∧
    (∀ (n : BitVec 4) (s : State), exec (.padAes n) s = .next { s with
      din := blockOf fun i => if i < n.toNat then getByte s.din i else BitVec.ofNat 8 (16 - n.toNat)
      err := .none, done := true, phase := .idle, rk := .empty })) ∧
  ((∀ n : BitVec 4, decode (0x00000018#32 ||| n.setWidth 32 <<< 8) =
      if n.toNat < 8 then .ok (.padDes n) else .error .illegalCommand) ∧
    (∀ (n : BitVec 4) (s : State), n.toNat < 8 → exec (.padDes n) s = .next { s with
      din := blockOf fun i =>
        if 8 ≤ i then 0#8 else if i < n.toNat then getByte s.din i else BitVec.ofNat 8 (8 - n.toNat)
      err := .none, done := true, phase := .idle, rk := .empty }))

/-- UNPAD.AES and UNPAD.DES: the message length where the padding is valid, PaddingError in each of the three
other cases (R104, R105). -/
def Obligations.UnpadCommands : Prop :=
  (decode 0x00000009#32 = .ok .unpadAes ∧
    ∀ s : State,
      let p := (getByte s.dout 15).toNat
      let valid := p ≠ 0 ∧ p ≤ 16 ∧ ∀ j, 16 - p ≤ j → j ≤ 15 → (getByte s.dout j).toNat = p
      (valid → exec .unpadAes s = .next { s with
        result := BitVec.ofNat 5 (16 - p), err := .none, done := true, phase := .idle, rk := .empty }) ∧
      (¬valid → exec .unpadAes s = .next { s with
        err := .paddingError, done := true, phase := .idle })) ∧
  (decode 0x00000019#32 = .ok .unpadDes ∧
    ∀ s : State,
      let p := (getByte s.dout 7).toNat
      let valid := p ≠ 0 ∧ p ≤ 8 ∧ ∀ j, 8 - p ≤ j → j ≤ 7 → (getByte s.dout j).toNat = p
      (valid → exec .unpadDes s = .next { s with
        result := BitVec.ofNat 5 (8 - p), err := .none, done := true, phase := .idle, rk := .empty }) ∧
      (¬valid → exec .unpadDes s = .next { s with
        err := .paddingError, done := true, phase := .idle }))

/-- B64E n (R111). -/
def Obligations.Base64EncodeCommand : Prop :=
  (∀ n alg : BitVec 4, decode (0x0000000A#32 ||| alg.setWidth 32 <<< 4 ||| n.setWidth 32 <<< 8) =
    if alg = 0#4 ∧ 1 ≤ n.toNat ∧ n.toNat ≤ 3 then .ok (.b64e n) else .error .illegalCommand) ∧
  (∀ (n : BitVec 4) (s : State), 1 ≤ n.toNat → n.toNat ≤ 3 →
    let t : BitVec 24 := getByte s.din 0 ++ (if n.toNat > 1 then getByte s.din 1 else 0#8) ++
      (if n.toNat > 2 then getByte s.din 2 else 0#8)
    exec (.b64e n) s = .next { s with
      dout := b64Char (t.extractLsb' 18 6) ++ b64Char (t.extractLsb' 12 6) ++
        (if n.toNat ≥ 2 then b64Char (t.extractLsb' 6 6) else 0x3D#8) ++
        (if n.toNat = 3 then b64Char (t.extractLsb' 0 6) else 0x3D#8) ++ 0#96
      err := .none, done := true, phase := .idle, rk := .empty }) ∧
  (∀ s t : State, s.din.extractLsb' 104 24 = 0x4d616e#24 →
    (exec (.b64e 3#4) s = .next t → t.dout.extractLsb' 96 32 = 0x54574675#32) ∧
    (exec (.b64e 2#4) s = .next t → t.dout.extractLsb' 96 32 = 0x5457453d#32) ∧
    (exec (.b64e 1#4) s = .next t → t.dout.extractLsb' 96 32 = 0x54513d3d#32))

/-- B64D: the checks of R112 on the four characters, the decoded bytes and their number, or
InvalidEncodingError (R112). -/
def Obligations.Base64DecodeCommand : Prop :=
  decode 0x0000000B#32 = .ok .b64d ∧
  (∀ s : State,
    let c := fun k => getByte s.din k
    let x := fun k => (b64Index (c k)).getD 0#6
    let t : BitVec 24 := x 0 ++ x 1 ++ x 2 ++ x 3
    let p := (if c 2 = 0x3D#8 then 1 else 0) + (if c 3 = 0x3D#8 then 1 else 0)
    let bad :=
      b64Index (c 0) = none ∨ b64Index (c 1) = none ∨ (c 2 = 0x3D#8 ∧ c 3 ≠ 0x3D#8) ∨
      (c 2 ≠ 0x3D#8 ∧ b64Index (c 2) = none) ∨ (c 3 ≠ 0x3D#8 ∧ b64Index (c 3) = none) ∨
      (p = 1 ∧ t.extractLsb' 0 8 ≠ 0#8) ∨ (p = 2 ∧ t.extractLsb' 0 16 ≠ 0#16)
    (bad → exec .b64d s = .next { s with
      err := .invalidEncodingError, done := true, phase := .idle }) ∧
    (¬bad → exec .b64d s = .next { s with
      dout := blockOf fun i => if i < 3 - p then t.extractLsb' (16 - 8 * i) 8 else 0#8
      result := BitVec.ofNat 5 (3 - p)
      err := .none, done := true, phase := .idle, rk := .empty }))

/-! ## The AES-like core -/

/-- `xtime` and `gmul`: the field laws that R54 and R55 state, and their examples. -/
def Obligations.FieldMultiplication : Prop :=
  (∀ a : Byte, xtime a = if a.getLsbD 7 then (a <<< 1) ^^^ 0x1B#8 else a <<< 1) ∧
  xtime 0x57#8 = 0xAE#8 ∧ xtime 0xAE#8 = 0x47#8 ∧
  (∀ a b : Byte, gmul a b = gmul b a) ∧
  (∀ a b c : Byte, gmul (gmul a b) c = gmul a (gmul b c)) ∧
  (∀ a b c : Byte, gmul a (b ^^^ c) = gmul a b ^^^ gmul a c) ∧
  (∀ a : Byte, gmul a 0#8 = 0#8 ∧ gmul a 1#8 = a ∧ gmul a 2#8 = xtime a ∧ gmul a 3#8 = xtime a ^^^ a) ∧
  gmul 0x57#8 0x13#8 = 0xFE#8

/-- SBOX is the affine map of the field inverse, a permutation without fixed point, and INV_SBOX undoes it
(R56, R57). -/
def Obligations.SubstitutionTables : Prop :=
  (∃ inverse : Byte → Byte, inverse 0#8 = 0#8 ∧ (∀ x : Byte, x ≠ 0#8 → gmul x (inverse x) = 1#8) ∧
    ∀ (x : Byte) (i : Nat), i < 8 →
      let b := inverse x
      (sbox x).getLsbD i = (b.getLsbD i ^^ b.getLsbD ((i + 4) % 8) ^^ b.getLsbD ((i + 5) % 8) ^^
        b.getLsbD ((i + 6) % 8) ^^ b.getLsbD ((i + 7) % 8) ^^ (0x63#8).getLsbD i)) ∧
  (∀ x : Byte, invSbox (sbox x) = x ∧ sbox (invSbox x) = x ∧ sbox x ≠ x) ∧
  sbox 0x53#8 = 0xED#8 ∧ invSbox 0xED#8 = 0x53#8

/-- SubBytes, ShiftRows, MixColumns and AddRoundKey, entry by entry: `s[r,c]` is byte `r + 4c` (R59 to
R63). -/
def Obligations.RoundStepsByEntry : Prop :=
  (∀ (s : Block) (r c : Nat), r < 4 → c < 4 →
    getByte (subBytes s) (r + 4 * c) = sbox (getByte s (r + 4 * c)) ∧
    getByte (shiftRows s) (r + 4 * c) = getByte s (r + 4 * ((c + r) % 4)) ∧
    ∀ (w : List Word) (k : Nat), getByte (addRoundKey w k s) (r + 4 * c) =
      getByte s (r + 4 * c) ^^^ wordByte (w.getD (4 * k + c) 0#32) r) ∧
  (∀ (s : Block) (c : Nat), c < 4 →
    let e := fun r => getByte s (r + 4 * c)
    let m := fun r => getByte (mixColumns s) (r + 4 * c)
    m 0 = gmul 2#8 (e 0) ^^^ gmul 3#8 (e 1) ^^^ e 2 ^^^ e 3 ∧
    m 1 = e 0 ^^^ gmul 2#8 (e 1) ^^^ gmul 3#8 (e 2) ^^^ e 3 ∧
    m 2 = e 0 ^^^ e 1 ^^^ gmul 2#8 (e 2) ^^^ gmul 3#8 (e 3) ∧
    m 3 = gmul 3#8 (e 0) ^^^ e 1 ^^^ e 2 ^^^ gmul 2#8 (e 3)) ∧
  (∀ (w : List Word) (k : Nat) (s : Block), addRoundKey w k (addRoundKey w k s) = s) ∧
  getWord (mixColumns 0xdb135345000000000000000000000000#128) 0 = 0x8e4da1bc#32

/-- The inverse steps, entry by entry, and that each undoes its step on every state (R64). -/
def Obligations.InverseStepsUndo : Prop :=
  (∀ (s : Block) (r c : Nat), r < 4 → c < 4 →
    getByte (invSubBytes s) (r + 4 * c) = invSbox (getByte s (r + 4 * c)) ∧
    getByte (invShiftRows s) (r + 4 * ((c + r) % 4)) = getByte s (r + 4 * c)) ∧
  (∀ (s : Block) (c : Nat), c < 4 →
    let e := fun r => getByte s (r + 4 * c)
    let m := fun r => getByte (invMixColumns s) (r + 4 * c)
    m 0 = gmul 14#8 (e 0) ^^^ gmul 11#8 (e 1) ^^^ gmul 13#8 (e 2) ^^^ gmul 9#8 (e 3) ∧
    m 1 = gmul 9#8 (e 0) ^^^ gmul 14#8 (e 1) ^^^ gmul 11#8 (e 2) ^^^ gmul 13#8 (e 3) ∧
    m 2 = gmul 13#8 (e 0) ^^^ gmul 9#8 (e 1) ^^^ gmul 14#8 (e 2) ^^^ gmul 11#8 (e 3) ∧
    m 3 = gmul 11#8 (e 0) ^^^ gmul 13#8 (e 1) ^^^ gmul 9#8 (e 2) ^^^ gmul 14#8 (e 3)) ∧
  (∀ s : Block, invSubBytes (subBytes s) = s ∧ invShiftRows (shiftRows s) = s ∧
    invMixColumns (mixColumns s) = s)

/-- The AES key schedule: 44 words, the first four the key's, each later one by the recurrence of R65 with the
round constants of R58. -/
def Obligations.AesKeyScheduleRecurrence : Prop :=
  (∀ k : Block,
    let w := fun i => (aesKeyExpand k).getD i 0#32
    (aesKeyExpand k).length = 44 ∧
    (∀ i b, i < 4 → b < 4 → wordByte (w i) b = getByte k (4 * i + b)) ∧
    (∀ i, 4 ≤ i → i < 44 → w i = w (i - 4) ^^^
      (if i % 4 = 0 then subWord (rotWord (w (i - 1))) ^^^ rcon (i / 4) else w (i - 1)))) ∧
  (∀ t : Word, ∀ b < 4, wordByte (rotWord t) b = wordByte t ((b + 1) % 4) ∧
    wordByte (subWord t) b = sbox (wordByte t b)) ∧
  (∀ t : Word, subWord (rotWord t) = rotWord (subWord t)) ∧
  (rcon 1 = 0x01000000#32 ∧ ∀ j, 1 ≤ j → j < 10 →
    rcon (j + 1) = wordOf (xtime (wordByte (rcon j) 0)) 0#8 0#8 0#8) ∧
  (aesKeyExpand 0x2b7e151628aed2a6abf7158809cf4f3c#128).getD 4 0#32 = 0xa0fafe17#32 ∧
  (aesKeyExpand 0x2b7e151628aed2a6abf7158809cf4f3c#128).getD 43 0#32 = 0xb6630ca6#32

/-- `AES_Encrypt`: one initial AddRoundKey, nine full rounds, and a last round without MixColumns (R66). -/
def Obligations.AesEncryptRounds : Prop :=
  (∀ key p : Block, ∃ st : Nat → Block,
    st 0 = addRoundKey (aesKeyExpand key) 0 p ∧
    (∀ k, 1 ≤ k → k ≤ 9 →
      st k = addRoundKey (aesKeyExpand key) k (mixColumns (shiftRows (subBytes (st (k - 1)))))) ∧
    aesEncrypt key p = addRoundKey (aesKeyExpand key) 10 (shiftRows (subBytes (st 9)))) ∧
  aesEncrypt 0x000102030405060708090a0b0c0d0e0f#128 0x00112233445566778899aabbccddeeff#128 =
    0x69c4e0d86a7b0430d8cdb78070b4c55a#128

/-- `AES_Decrypt`: the inverse steps in reverse order with the round keys in reverse order, and it undoes
`AES_Encrypt` for every key and block (R67). -/
def Obligations.AesDecryptUndoesEncrypt : Prop :=
  (∀ key c : Block, ∃ st : Nat → Block,
    st 10 = addRoundKey (aesKeyExpand key) 10 c ∧
    (∀ k, 1 ≤ k → k ≤ 9 →
      st k = invMixColumns (addRoundKey (aesKeyExpand key) k (invSubBytes (invShiftRows (st (k + 1)))))) ∧
    aesDecrypt key c = addRoundKey (aesKeyExpand key) 0 (invSubBytes (invShiftRows (st 1)))) ∧
  (∀ s : Block, invSubBytes (invShiftRows s) = invShiftRows (invSubBytes s)) ∧
  (∀ key p : Block, aesDecrypt key (aesEncrypt key p) = p) ∧
  aesDecrypt 0x000102030405060708090a0b0c0d0e0f#128 0x69c4e0d86a7b0430d8cdb78070b4c55a#128 =
    0x00112233445566778899aabbccddeeff#128

/-! ## The DES-like core -/

/-- Bytes and bits: bit `8i + k + 1` of an 8-byte value is bit `7 - k` of byte `i`, the bytes of a value made
from bytes are those bytes, and a value is made from its own bytes (R109, for the 8 bytes of a DES block). -/
def Obligations.DesBitsAreMostSignificantFirst : Prop :=
  (∀ (v : Half) (i k : Nat), i < 8 → k < 8 → desBit v (8 * i + k + 1) = (getByte64 v i).getLsbD (7 - k)) ∧
  (∀ (b : Nat → Byte) (i : Nat), i < 8 → getByte64 (halfOf b) i = b i) ∧
  (∀ v : Half, halfOf (getByte64 v) = v)

/-- A permutation table takes its bits by number, and the final permutation undoes the initial one (R9, R68,
R69). -/
def Obligations.FinalPermutationUndoesInitial : Prop :=
  (∀ (v : Half) (k : Nat), 1 ≤ k → k ≤ 64 →
    desBit (permute 64 tableIP v) k = desBit v (tableIP.getD (k - 1) 0) ∧
    desBit (permute 64 tableFP v) k = desBit v (tableFP.getD (k - 1) 0)) ∧
  (∀ v : Half, permute 64 tableFP (permute 64 tableIP v) = v)

/-- The DES key schedule: 16 round keys by PC-1, the rotations of the two halves and PC-2 (R76). -/
def Obligations.DesKeyScheduleRounds : Prop :=
  (∀ key : Half, (desKeySchedule key).length = 16 ∧
    ∃ c d : Nat → BitVec 28,
      (∀ k, 1 ≤ k → k ≤ 28 → desBit (c 0) k = desBit key (tablePC1.getD (k - 1) 0) ∧
        desBit (d 0) k = desBit key (tablePC1.getD (k + 27) 0)) ∧
      ∀ n < 16,
        (∀ k, 1 ≤ k → k ≤ 28 →
          desBit (c (n + 1)) k = desBit (c n) ((k - 1 + shifts.getD n 0) % 28 + 1) ∧
          desBit (d (n + 1)) k = desBit (d n) ((k - 1 + shifts.getD n 0) % 28 + 1)) ∧
        ∀ k, 1 ≤ k → k ≤ 48 →
          desBit ((desKeySchedule key).getD n 0#48) k =
            desBit (c (n + 1) ++ d (n + 1)) (tablePC2.getD (k - 1) 0)) ∧
  (desKeySchedule 0x133457799bbcdff1#64).getD 0 0#48 = 0x1B02EFFC7072#48 ∧
  (desKeySchedule 0x133457799bbcdff1#64).getD 15 0#48 = 0xCB3D8B0E17F5#48

/-- The S-box lookup and the round function, bit by bit: expansion and key xor, eight groups of six bits, one
box for each, and P (R77, R78). -/
def Obligations.DesRoundFunction : Prop :=
  (∀ (box : List (List Nat)) (g : BitVec 6), desBox box g =
    BitVec.ofNat 4 ((box.getD (2 * (desBit g 1).toNat + (desBit g 6).toNat) []).getD
      (8 * (desBit g 2).toNat + 4 * (desBit g 3).toNat + 2 * (desBit g 4).toNat + (desBit g 5).toNat) 0)) ∧
  desBox desS1 0b011011#6 = 0b0101#4 ∧
  (∀ (r : Word) (k : RoundKey), ∃ (x : BitVec 48) (g : Nat → BitVec 6) (y : Word),
    (∀ b, 1 ≤ b → b ≤ 48 → desBit x b = (desBit r (tableE.getD (b - 1) 0) ^^ desBit k b)) ∧
    (∀ i b, 1 ≤ i → i ≤ 8 → 1 ≤ b → b ≤ 6 → desBit (g i) b = desBit x (6 * i - 6 + b)) ∧
    (∀ i b, 1 ≤ i → i ≤ 8 → 1 ≤ b → b ≤ 4 → desBit y (4 * i - 4 + b) = desBit (desBox
      ([desS1, desS2, desS3, desS4, desS5, desS6, desS7, desS8].getD (i - 1) []) (g i)) b) ∧
    (∀ b, 1 ≤ b → b ≤ 32 → desBit (desF r k) b = desBit y (tableP.getD (b - 1) 0)))

/-- `DES_Encrypt`: IP, sixteen Feistel rounds, the final swap and the inverse of IP (R79, R80). -/
def Obligations.DesEncryptRounds : Prop :=
  (∀ key p : Half, ∃ l r : Nat → Word,
    l 0 ++ r 0 = permute 64 tableIP p ∧
    (∀ n < 16, l (n + 1) = r n ∧ r (n + 1) = l n ^^^ desF (r n) ((desKeySchedule key).getD n 0#48)) ∧
    desEncrypt key p = permute 64 tableFP (r 16 ++ l 16)) ∧
  desEncrypt 0x133457799bbcdff1#64 0x0123456789abcdef#64 = 0x85e813540f0ab405#64

/-- `DES_Decrypt` is `DES_Encrypt` with the round keys in reverse order, and it undoes it for every key and
block (R81). -/
def Obligations.DesDecryptUndoesEncrypt : Prop :=
  (∀ key c : Half, ∃ l r : Nat → Word,
    l 0 ++ r 0 = permute 64 tableIP c ∧
    (∀ n < 16, l (n + 1) = r n ∧ r (n + 1) = l n ^^^ desF (r n) ((desKeySchedule key).getD (15 - n) 0#48)) ∧
    desDecrypt key c = permute 64 tableFP (r 16 ++ l 16)) ∧
  (∀ key p : Half, desDecrypt key (desEncrypt key p) = p) ∧
  desDecrypt 0x133457799bbcdff1#64 0x85e813540f0ab405#64 = 0x0123456789abcdef#64

/-- The laws of DES: the parity bits have no effect, complementation, and the weak key (R82). -/
def Obligations.DesLaws : Prop :=
  (∀ (key p : Half) (j : Nat), j < 8 →
    desKeySchedule (key ^^^ (1#64 <<< (8 * j))) = desKeySchedule key ∧
    desEncrypt (key ^^^ (1#64 <<< (8 * j))) p = desEncrypt key p) ∧
  (∀ key p : Half, desEncrypt (~~~key) (~~~p) = ~~~desEncrypt key p) ∧
  (∀ p : Half, desEncrypt 0x0101010101010101#64 (desEncrypt 0x0101010101010101#64 p) = p) ∧
  desKeySchedule 0x0101010101010101#64 = List.replicate 16 0#48 ∧
  desEncrypt 0x123457799bbcdff1#64 0x0123456789abcdef#64 =
    desEncrypt 0x133457799bbcdff1#64 0x0123456789abcdef#64

/-- A `.DES` instruction reads only bytes 0..7 of its source registers, and where it writes a 128-bit register
it zeroes bytes 8..15 (R86). -/
def Obligations.DesCommandsUseLowBytes : Prop :=
  ∀ i : Instr,
    (i ∈ [Instr.encDes, .decDes, .cbceDes, .cbcdDes, .kschedDes, .knormDes, .ivgenDes, .unpadDes] ∨
      ∃ n, i = .padDes n) →
    ∀ (s t : State) (k d o v : BitVec 64), exec i s = .next t →
      (∃ u, exec i { s with
          key := s.key.extractLsb' 64 64 ++ k, din := s.din.extractLsb' 64 64 ++ d
          dout := s.dout.extractLsb' 64 64 ++ o, iv := s.iv.extractLsb' 64 64 ++ v } = .next u ∧
        u.key.extractLsb' 64 64 = t.key.extractLsb' 64 64 ∧
        u.din.extractLsb' 64 64 = t.din.extractLsb' 64 64 ∧
        u.dout.extractLsb' 64 64 = t.dout.extractLsb' 64 64 ∧
        u.iv.extractLsb' 64 64 = t.iv.extractLsb' 64 64 ∧
        u.result = t.result ∧ u.keylen = t.keylen ∧ u.rk = t.rk ∧ u.err = t.err ∧ u.phase = t.phase) ∧
      (t.key ≠ s.key → t.key.extractLsb' 0 64 = 0#64) ∧ (t.din ≠ s.din → t.din.extractLsb' 0 64 = 0#64) ∧
      (t.dout ≠ s.dout → t.dout.extractLsb' 0 64 = 0#64) ∧ (t.iv ≠ s.iv → t.iv.extractLsb' 0 64 = 0#64)

/-! ## Laws of the whole machine -/

/-- CBCD run from the IV that the matching CBCE started from, on the DOUT of that CBCE, gives the DIN of that
CBCE, for AES and for the 8 bytes of DES (R95 to R98). -/
def Obligations.ChainedDecryptUndoesEncrypt : Prop :=
  (∀ s t : State, s.keylen = 16#8 → exec .cbceAes s = .next t →
    ∃ u, exec .cbcdAes { t with din := t.dout, iv := s.iv } = .next u ∧ u.dout = s.din ∧ u.iv = t.dout) ∧
  (∀ s t : State, s.keylen = 8#8 → exec .cbceDes s = .next t →
    ∃ u, exec .cbcdDes { t with din := t.dout, iv := s.iv } = .next u ∧
      u.dout = s.din.extractLsb' 64 64 ++ 0#64 ∧ u.iv = t.dout)

/-- UNPAD after PAD n, with DIN moved to DOUT, answers n, for every n and every DIN (R102 to R105). -/
def Obligations.UnpadUndoesPad : Prop :=
  (∀ (n : BitVec 4) (s t : State), exec (.padAes n) s = .next t →
    ∃ u, exec .unpadAes { t with dout := t.din } = .next u ∧ u.result = n.setWidth 5 ∧ u.err = .none) ∧
  (∀ (n : BitVec 4) (s t : State), n.toNat < 8 → exec (.padDes n) s = .next t →
    ∃ u, exec .unpadDes { t with dout := t.din } = .next u ∧ u.result = n.setWidth 5 ∧ u.err = .none)

/-- The base64 alphabet: the codes of the 64 values, the index of each code, and no other byte in it (R110). -/
def Obligations.Base64AlphabetIsStandard : Prop :=
  (∀ x : BitVec 6,
    (x.toNat ≤ 25 → (b64Char x).toNat = 0x41 + x.toNat) ∧
    (26 ≤ x.toNat → x.toNat ≤ 51 → (b64Char x).toNat = 0x61 + (x.toNat - 26)) ∧
    (52 ≤ x.toNat → x.toNat ≤ 61 → (b64Char x).toNat = 0x30 + (x.toNat - 52)) ∧
    (x.toNat = 62 → b64Char x = 0x2B#8) ∧ (x.toNat = 63 → b64Char x = 0x2F#8)) ∧
  (∀ (c : Byte) (x : BitVec 6), b64Index c = some x ↔ b64Char x = c) ∧
  padChar = 0x3D#8 ∧ b64Index padChar = none

/-- B64D after B64E n, with DOUT0 moved to DIN0, answers n and the n bytes; and a group that B64D accepts is
the group that B64E makes of what it decoded, so decoding is strict (R111, R112). -/
def Obligations.Base64DecodeUndoesEncode : Prop :=
  (∀ (n : BitVec 4) (s t : State), 1 ≤ n.toNat → n.toNat ≤ 3 → exec (.b64e n) s = .next t →
    ∃ u, exec .b64d { t with din := setWord t.din 0 (getWord t.dout 0) } = .next u ∧
      u.err = .none ∧ u.result = n.setWidth 5 ∧
      ∀ i < 16, getByte u.dout i = if i < n.toNat then getByte s.din i else 0#8) ∧
  (∀ s t : State, exec .b64d s = .next t → t.err = .none →
    ∃ u, exec (.b64e (t.result.setWidth 4)) { t with din := t.dout } = .next u ∧
      u.err = .none ∧ getWord u.dout 0 = getWord s.din 0)

/-- The lines `wr128 X, v` of the host, run while IDLE, leave `v` in the operand and nothing else (R52). -/
def Obligations.Wr128WritesTheOperand : Prop :=
  ∀ (s : State) (v : Block), s.phase = .idle →
    (s.inputs = lineWr128 s.base .key v → Sys2Proof.core.run 4 s = .next { s with inputs := [], key := v }) ∧
    (s.inputs = lineWr128 s.base .din v → Sys2Proof.core.run 4 s = .next { s with inputs := [], din := v }) ∧
    (s.inputs = lineWr128 s.base .iv v → Sys2Proof.core.run 4 s = .next { s with inputs := [], iv := v })

/-- The invariant holds at reset. -/
def Obligations.InvHoldsAtReset : Prop :=
  State.reset.Inv

/-- Every step of every agent keeps the invariant: DONE and ERR are clear while BUSY (R22, R83), RESULT.LEN is
at most 15 (R24), the RK store holds nothing or the schedule of some key (R27), and entropy waits only for the
IVGEN in flight, never more than it draws (R99, log entry 5). -/
def Obligations.EveryStepKeepsInv : Prop :=
  ∀ s t : State, s.Inv → step s = .next t → t.Inv
end

