-- ==== Sys2Proof/Laws/Bytes.lean ====
section
/-! SUPPORT. The small lemmas of Machine/Bytes.lean: reading back what was packed, and equality of packed values
by their bytes or bits. -/

namespace Sys2Proof.Machine

theorem append_left_bit {n m : Nat} (x : BitVec n) (y : BitVec m) (i : Nat) (h : m ≤ i) :
    (x ++ y).getLsbD i = x.getLsbD (i - m) := by
  rw [BitVec.getLsbD_append, if_neg (by omega)]

theorem append_right_bit {n m : Nat} (x : BitVec n) (y : BitVec m) (i : Nat) (h : i < m) :
    (x ++ y).getLsbD i = y.getLsbD i := by
  rw [BitVec.getLsbD_append, if_pos h]

/-- Byte `i` of the block of a byte function is that function's value (R8). -/
theorem getByte_blockOf (f : Nat → Byte) (i : Nat) (h : i < 16) : getByte (blockOf f) i = f i := by
  apply BitVec.eq_of_getLsbD_eq
  intro j hj
  simp only [getByte, blockOf, BitVec.getLsbD_extractLsb', hj, decide_true, Bool.true_and]
  interval_cases i <;> simp (disch := omega) only [append_left_bit, append_right_bit] <;>
    exact congrArg _ (by omega)

/-- Two blocks with the same 16 bytes are the same. -/
theorem block_ext {x y : Block} (h : ∀ i < 16, getByte x i = getByte y i) : x = y := by
  apply BitVec.eq_of_getLsbD_eq
  intro j hj
  have h2 := congrArg (fun b => b.getLsbD (j % 8)) (h (15 - j / 8) (by omega))
  have e : 120 - 8 * (15 - j / 8) + j % 8 = j := by omega
  simpa [getByte, BitVec.getLsbD_extractLsb', e, Nat.mod_lt] using h2

@[simp] theorem blockOf_getByte (x : Block) : blockOf (getByte x) = x :=
  block_ext fun i h => getByte_blockOf _ i h

theorem getByte_xor (x y : Block) (i : Nat) : getByte (x ^^^ y) i = getByte x i ^^^ getByte y i := by
  simp [getByte, BitVec.extractLsb'_xor]

/-- A bit of a byte of a block, in the block. -/
theorem getByte_bit (x : Block) (i j : Nat) (hj : j < 8) :
    (getByte x i).getLsbD j = x.getLsbD (120 - 8 * i + j) := by
  simp [getByte, hj]

/-- A bit of a byte of an 8-byte value, in that value. -/
theorem getByte64_bit (x : Half) (i j : Nat) (hj : j < 8) :
    (getByte64 x i).getLsbD j = x.getLsbD (56 - 8 * i + j) := by
  simp [getByte64, hj]

/-- A bit of a byte of a word, in the word. -/
theorem wordByte_bit (x : Word) (i j : Nat) (hj : j < 8) :
    (wordByte x i).getLsbD j = x.getLsbD (24 - 8 * i + j) := by
  simp [wordByte, hj]

theorem low64_bit (x : Block) (j : Nat) (hj : j < 64) : (low64 x).getLsbD j = x.getLsbD (64 + j) := by
  simp [low64, hj]

theorem getByte_low64 (x : Block) (i : Nat) (h : i < 8) : getByte64 (low64 x) i = getByte x i := by
  apply BitVec.eq_of_getLsbD_eq
  intro j hj
  rw [getByte64_bit _ _ _ hj, getByte_bit _ _ _ hj, low64_bit _ _ (by omega)]
  exact congrArg _ (by omega)

/-- What `Put64` leaves in each byte (R86). -/
theorem getByte_put64 (b : Half) (i : Nat) (h : i < 16) :
    getByte (put64 b) i = if i < 8 then getByte64 b i else 0#8 := by
  apply BitVec.eq_of_getLsbD_eq
  intro j hj
  rw [getByte_bit _ _ _ hj]
  split
  · rw [put64, append_left_bit _ _ _ (by omega), getByte64_bit _ _ _ hj]
    exact congrArg _ (by omega)
  · rw [put64, append_right_bit _ _ _ (by omega)]
    simp

@[simp] theorem low64_put64 (b : Half) : low64 (put64 b) = b := by
  apply BitVec.eq_of_getLsbD_eq
  intro j hj
  rw [low64_bit _ _ hj, put64, append_left_bit _ _ _ (by omega)]
  exact congrArg _ (by omega)

theorem low64_xor (x y : Block) : low64 (x ^^^ y) = low64 x ^^^ low64 y := by
  simp [low64, BitVec.extractLsb'_xor]

/-- Byte `i` of the 8-byte value of a byte function is that function's value. -/
theorem getByte64_halfOf (f : Nat → Byte) (i : Nat) (h : i < 8) : getByte64 (halfOf f) i = f i := by
  apply BitVec.eq_of_getLsbD_eq
  intro j hj
  simp only [getByte64, halfOf, BitVec.getLsbD_extractLsb', hj, decide_true, Bool.true_and]
  interval_cases i <;> simp (disch := omega) only [append_left_bit, append_right_bit] <;>
    exact congrArg _ (by omega)

theorem wordByte_wordOf (b0 b1 b2 b3 : Byte) (i : Nat) (h : i < 4) :
    wordByte (wordOf b0 b1 b2 b3) i = [b0, b1, b2, b3].getD i 0#8 := by
  apply BitVec.eq_of_getLsbD_eq
  intro j hj
  simp only [wordByte, wordOf, BitVec.getLsbD_extractLsb', hj, decide_true, Bool.true_and]
  interval_cases i <;> simp (disch := omega) only [append_left_bit, append_right_bit] <;>
    exact congrArg _ (by omega)

/-- Two words with the same 4 bytes are the same. -/
theorem word_ext {v w : Word} (h : ∀ i < 4, wordByte v i = wordByte w i) : v = w := by
  apply BitVec.eq_of_getLsbD_eq
  intro j hj
  have h2 := congrArg (fun b => b.getLsbD (j % 8)) (h (3 - j / 8) (by omega))
  have e : 24 - 8 * (3 - j / 8) + j % 8 = j := by omega
  simpa [wordByte, BitVec.getLsbD_extractLsb', e, Nat.mod_lt] using h2

/-- Byte `k` of bus word `j` is byte `4j + k` of the operand (R36). -/
theorem wordByte_getWord (x : Block) (j k : Nat) (hj : j < 4) (hk : k < 4) :
    wordByte (getWord x j) k = getByte x (4 * j + k) := by
  apply BitVec.eq_of_getLsbD_eq
  intro n hn
  rw [wordByte_bit _ _ _ hn, getByte_bit _ _ _ hn, getWord, BitVec.getLsbD_extractLsb']
  rw [show 96 - 32 * j + (24 - 8 * k + n) = 120 - 8 * (4 * j + k) + n by omega]
  simp
  omega

theorem getByte_setWord (x : Block) (j : Nat) (v : Word) (i : Nat) (h : i < 16) :
    getByte (setWord x j v) i = if i / 4 = j then wordByte v (i % 4) else getByte x i :=
  getByte_blockOf _ i h

/-- What a write of bus word `j` leaves in bus word `k` (R36). -/
theorem getWord_setWord (x : Block) (j k : Nat) (v : Word) (hk : k < 4) :
    getWord (setWord x j v) k = if k = j then v else getWord x k := by
  apply word_ext
  intro i hi
  rw [wordByte_getWord _ _ _ hk hi, getByte_setWord _ _ _ _ (by omega)]
  rw [show (4 * k + i) / 4 = k by omega, show (4 * k + i) % 4 = i by omega]
  split
  · rfl
  · rw [wordByte_getWord _ _ _ hk hi]

theorem foldl_permute_bit {n m : Nat} (v : BitVec n) (t : List Nat) (acc : BitVec m) (j : Nat) (hj : j < m) :
    (t.foldl (fun acc k => acc.shiftConcat (desBit v k)) acc).getLsbD j =
      if j < t.length then desBit v (t.getD (t.length - 1 - j) 0) else acc.getLsbD (j - t.length) := by
  induction t generalizing acc with
  | nil => simp
  | cons k t ih =>
    rw [List.foldl_cons, ih, List.length_cons]
    by_cases h : j < t.length
    · rw [if_pos h, if_pos (by omega), show t.length + 1 - 1 - j = (t.length - 1 - j) + 1 by omega]
      rfl
    · rw [if_neg h, BitVec.getLsbD_shiftConcat]
      by_cases e : j = t.length
      · subst e
        simp
        omega
      · rw [if_neg (by omega), if_neg (by omega), Nat.sub_sub]
        simp
        omega

/-- Output bit `k` of a permutation table of `m` entries is bit `T[k]` of the input (R9). -/
theorem desBit_permute {n : Nat} (m : Nat) (t : List Nat) (v : BitVec n) (k : Nat) (ht : t.length = m)
    (h1 : 1 ≤ k) (hk : k ≤ m) : desBit (permute m t v) k = desBit v (t.getD (k - 1) 0) := by
  have e : desBit (permute m t v) k = (permute m t v).getLsbD (m - k) := by
    rw [desBit, BitVec.getMsbD, show m - 1 - (k - 1) = m - k by omega]
    simp
    omega
  rw [e, permute, foldl_permute_bit _ _ _ _ (by omega), if_pos (by omega)]
  rw [show t.length - 1 - (m - k) = k - 1 by omega]

/-- A DES bit by the position that Lean counts from the other end (R9). -/
theorem desBit_eq {n : Nat} (v : BitVec n) (k : Nat) (h1 : 1 ≤ k) (h2 : k ≤ n) :
    desBit v k = v.getLsbD (n - k) := by
  rw [desBit, BitVec.getMsbD, decide_eq_true (by omega), show n - 1 - (k - 1) = n - k by omega]
  rfl

theorem desBit_xor {n : Nat} (x y : BitVec n) (k : Nat) : desBit (x ^^^ y) k = (desBit x k ^^ desBit y k) := by
  rw [desBit, desBit, desBit, BitVec.getMsbD_xor]

theorem desBit_not {n : Nat} (v : BitVec n) (k : Nat) (h1 : 1 ≤ k) (h2 : k ≤ n) :
    desBit (~~~v) k = !desBit v k := by
  rw [desBit_eq _ _ h1 h2, desBit_eq _ _ h1 h2, BitVec.getLsbD_not, decide_eq_true (by omega)]
  rfl

/-- The bits of two vectors written one after the other (R9). -/
theorem desBit_append_left {n m : Nat} (x : BitVec n) (y : BitVec m) (k : Nat) (h1 : 1 ≤ k) (h2 : k ≤ n) :
    desBit (x ++ y) k = desBit x k := by
  rw [desBit_eq _ _ h1 (by omega), append_left_bit _ _ _ (by omega), desBit_eq _ _ h1 h2]
  exact congrArg _ (by omega)

theorem desBit_append_right {n m : Nat} (x : BitVec n) (y : BitVec m) (k : Nat) (h1 : n < k) (h2 : k ≤ n + m) :
    desBit (x ++ y) k = desBit y (k - n) := by
  rw [desBit_eq _ _ (by omega) h2, append_right_bit _ _ _ (by omega), desBit_eq _ _ (by omega) (by omega)]
  exact congrArg _ (by omega)

/-- Two vectors with the same bits 1..n are the same (R9). -/
theorem desBit_ext {n : Nat} {v w : BitVec n} (h : ∀ k, 1 ≤ k → k ≤ n → desBit v k = desBit w k) : v = w := by
  apply BitVec.eq_of_getMsbD_eq
  intro i hi
  exact h (i + 1) (by omega) (by omega)

/-- Two 8-byte values with the same 8 bytes are the same. -/
theorem half_ext {x y : Half} (h : ∀ i < 8, getByte64 x i = getByte64 y i) : x = y := by
  apply BitVec.eq_of_getLsbD_eq
  intro j hj
  have h2 := congrArg (fun b => b.getLsbD (j % 8)) (h (7 - j / 8) (by omega))
  have e : 56 - 8 * (7 - j / 8) + j % 8 = j := by omega
  simpa [getByte64, BitVec.getLsbD_extractLsb', e, Nat.mod_lt] using h2

end Sys2Proof.Machine
end

