-- ==== Sys2Proof/Laws/Aes.lean ====
section
/-! SUPPORT. The small lemmas of Machine/Aes.lean: the entries of a state, the field operations as sums, and
the words of a key schedule. -/

namespace Sys2Proof.Machine

/-- The entry in row `r` and column `c` of a state made from entries (R59). -/
theorem cell_stateOf (f : Nat → Nat → Byte) (r c : Nat) (hr : r < 4) (hc : c < 4) : cell (stateOf f) r c = f r c := by
  rw [cell, stateOf, getByte_blockOf _ _ (by omega)]
  congr 1 <;> omega

/-- Two states with the same 16 entries are the same (R59). -/
theorem state_ext {s t : Block} (h : ∀ r c, r < 4 → c < 4 → cell s r c = cell t r c) : s = t := by
  apply block_ext
  intro i hi
  have hc := h (i % 4) (i / 4) (by omega) (by omega)
  rwa [cell, cell, show i % 4 + 4 * (i / 4) = i by omega] at hc

/-- `xtime` of a sum is the sum of the `xtime`s (R54). -/
theorem xtime_xor (a b : Byte) : xtime (a ^^^ b) = xtime a ^^^ xtime b := by
  unfold xtime
  rw [BitVec.getLsbD_xor]
  cases a.getLsbD 7 <;> cases b.getLsbD 7 <;> simp [BitVec.shiftLeft_xor_distrib] <;> ac_nf
  rw [← BitVec.xor_assoc 27#8]
  simp

theorem xtimes_xor (n : Nat) (a b : Byte) : xtimes n (a ^^^ b) = xtimes n a ^^^ xtimes n b := by
  induction n with
  | zero => rfl
  | succ n ih => rw [xtimes, ih, xtime_xor, ← xtimes, ← xtimes]

/-- `gmul a b` as the sum over the bits of `b` (R55). -/
theorem gmul_eq_sum (a b : Byte) :
    gmul a b = (if b.getLsbD 0 then xtimes 0 a else 0#8) ^^^ (if b.getLsbD 1 then xtimes 1 a else 0#8) ^^^
      (if b.getLsbD 2 then xtimes 2 a else 0#8) ^^^ (if b.getLsbD 3 then xtimes 3 a else 0#8) ^^^
      (if b.getLsbD 4 then xtimes 4 a else 0#8) ^^^ (if b.getLsbD 5 then xtimes 5 a else 0#8) ^^^
      (if b.getLsbD 6 then xtimes 6 a else 0#8) ^^^ (if b.getLsbD 7 then xtimes 7 a else 0#8) := by
  have h : ∀ (acc : Byte) (i : Nat), (if b.getLsbD i then acc ^^^ xtimes i a else acc) =
      acc ^^^ (if b.getLsbD i then xtimes i a else 0#8) := by
    intro acc i
    cases b.getLsbD i <;> simp
  unfold gmul
  simp only [h]
  simp [List.range, List.range.loop]

/-- The words made by the loop of the key schedule: how many (R65). -/
theorem keyWordsFrom_length : ∀ (n i : Nat) (a b c d : Word), (keyWordsFrom n i a b c d).length = n
  | 0, _, _, _, _, _ => rfl
  | n + 1, _, _, _, _, _ => congrArg (· + 1) (keyWordsFrom_length n _ _ _ _ _)

end Sys2Proof.Machine
end

