-- ==== Sys2Proof/Laws/Decode.lean ====
section
/-! SUPPORT. The decoder check by check (30_encoding.md R50), and the words of its instructions. -/

namespace Sys2Proof

theorem decode_rsv {v : Word} (h : rsvField v ≠ 0#20) : decode v = .error .illegalCommand := by
  simp [decode, h]

theorem decode_op {v : Word} (h1 : rsvField v = 0#20) (h : opField v = 0 ∨ 12 ≤ opField v) :
    decode v = .error .illegalCommand := by
  simp [decode, h1, h]

theorem decode_alg {v : Word} (h1 : rsvField v = 0#20) (h2 : ¬(opField v = 0 ∨ 12 ≤ opField v))
    (h : opField v ≤ 9 ∧ 1 < algField v) : decode v = .error .unknownAlgorithm := by
  simp only [decode]
  rw [if_neg (not_not.mpr h1), if_neg h2, if_pos h]

/-- Past the checks of RSV, OP and ALG, what `decode` still checks (R50). -/
theorem decode_past_alg {v : Word} (h1 : rsvField v = 0#20) (h2 : ¬(opField v = 0 ∨ 12 ≤ opField v))
    (h3 : ¬(opField v ≤ 9 ∧ 1 < algField v)) :
    decode v =
      if (opField v = 10 ∨ opField v = 11) ∧ algField v ≠ 0 then .error .illegalCommand
      else if opField v = 8 ∧ blockSize (algField v) ≤ (argField v).toNat then
        .error .illegalCommand
      else if opField v = 10 ∧ ((argField v).toNat = 0 ∨ 3 < (argField v).toNat) then .error .illegalCommand
      else if opField v ≠ 8 ∧ opField v ≠ 10 ∧ (argField v).toNat ≠ 0 then .error .illegalCommand
      else instrOf (opField v) (algField v) (argField v) := by
  simp only [decode]
  rw [if_neg (not_not.mpr h1), if_neg h2, if_neg h3]

/-- Everything a word that decodes to an instruction has passed (R50). -/
theorem decode_ok {v : Word} {i : Instr} (h : decode v = .ok i) :
    rsvField v = 0#20 ∧ ¬(opField v = 8 ∧ blockSize (algField v) ≤ (argField v).toNat) ∧
      ¬(opField v = 10 ∧ ((argField v).toNat = 0 ∨ 3 < (argField v).toNat)) ∧
      ¬(opField v ≠ 8 ∧ opField v ≠ 10 ∧ (argField v).toNat ≠ 0) ∧
      instrOf (opField v) (algField v) (argField v) = .ok i := by
  by_cases h1 : rsvField v = 0#20
  swap; · rw [decode_rsv h1] at h; cases h
  by_cases h2 : opField v = 0 ∨ 12 ≤ opField v
  · rw [decode_op h1 h2] at h; cases h
  by_cases h3 : opField v ≤ 9 ∧ 1 < algField v
  · rw [decode_alg h1 h2 h3] at h; cases h
  rw [decode_past_alg h1 h2 h3] at h
  split at h
  · cases h
  split at h
  · cases h
  split at h
  · cases h
  split at h
  · cases h
  · exact ⟨h1, ‹_›, ‹_›, ‹_›, h⟩

/-- What an OP, ALG and ARG that pass their checks make: a well-formed instruction, whose word has those
fields (R46). -/
theorem instrOf_ok {op alg : Nat} {arg : BitVec 4} {i : Instr} (h : instrOf op alg arg = .ok i)
    (h8 : ¬(op = 8 ∧ blockSize alg ≤ arg.toNat))
    (h10 : ¬(op = 10 ∧ (arg.toNat = 0 ∨ 3 < arg.toNat)))
    (h0 : ¬(op ≠ 8 ∧ op ≠ 10 ∧ arg.toNat ≠ 0)) :
    i.wf = true ∧ encode i = commandWord arg (BitVec.ofNat 4 alg) (BitVec.ofNat 4 op) := by
  have hz : op ≠ 8 → op ≠ 10 → arg = 0#4 := fun a b =>
    BitVec.eq_of_toNat_eq (by have := h0; simp only [BitVec.toNat_ofNat]; omega)
  unfold instrOf at h
  split at h <;> cases h
  case h_15 => exact ⟨decide_eq_true (show arg.toNat < 16 from arg.isLt), rfl⟩
  case h_16 => exact ⟨decide_eq_true (show arg.toNat < 8 by simpa [blockSize] using h8), rfl⟩
  case h_19 => exact ⟨by simp [Instr.wf]; omega, rfl⟩
  all_goals
    rw [hz (by decide) (by decide)]
    exact ⟨rfl, rfl⟩

/-- Every OP and ALG that pass their checks make an instruction (R46). -/
theorem instrOf_total {op alg : Nat} (arg : BitVec 4) (h2 : ¬(op = 0 ∨ 12 ≤ op)) (h3 : ¬(op ≤ 9 ∧ 1 < alg))
    (h4 : ¬((op = 10 ∨ op = 11) ∧ alg ≠ 0)) : ∃ i, instrOf op alg arg = .ok i := by
  have ho : op < 12 := by omega
  have ha : alg = 0 ∨ (alg = 1 ∧ op ≤ 9) := by omega
  rcases ha with rfl | ⟨rfl, h9⟩
  · interval_cases op <;> first | omega | exact ⟨_, rfl⟩
  · interval_cases op <;> first | omega | exact ⟨_, rfl⟩

/-- A word with RSV = 0 is the word of its fields (R44). -/
theorem commandWord_fields {v : Word} (h : rsvField v = 0#20) :
    commandWord (argField v) (v.extractLsb' 4 4) (v.extractLsb' 0 4) = v := by
  rw [commandWord, ← h, rsvField, argField]
  apply BitVec.eq_of_getLsbD_eq
  intro i hi
  simp only [BitVec.getLsbD_append, BitVec.getLsbD_extractLsb']
  split
  · simp [*]
  split
  · rw [show 4 + (i - 4) = i by omega]; simp [*]
  split
  · rw [show 8 + (i - 4 - 4) = i by omega]; simp [*]
  · rw [show 12 + (i - 4 - 4 - 4) = i by omega]; simp; omega

end Sys2Proof
end

