-- ==== Sys2Proof/Laws/Des.lean ====
section
/-! SUPPORT. The small lemmas of Machine/Des.lean: the round keys by number, the rounds one at a time, and the
two halves of a block. -/

namespace Sys2Proof.Machine

theorem roundKeysFrom_length : ∀ (l : List Nat) (c d : BitVec 28), (roundKeysFrom l c d).length = l.length
  | [], _, _ => rfl
  | _ :: l, _, _ => congrArg (· + 1) (roundKeysFrom_length l _ _)

/-- The halves after the first `n` rotations of a schedule (R76). -/
def rotatedBy : List Nat → BitVec 28 → Nat → BitVec 28
  | _, c, 0 => c
  | [], c, _ + 1 => c
  | s :: l, c, n + 1 => rotatedBy l (c.rotateLeft s) n

/-- Round key `n + 1` of a schedule (R76). -/
theorem roundKeysFrom_get : ∀ (l : List Nat) (c d : BitVec 28) (n : Nat), n < l.length →
    (roundKeysFrom l c d).getD n 0#48 = permute 48 tablePC2 (rotatedBy l c (n + 1) ++ rotatedBy l d (n + 1))
  | [], _, _, _, h => absurd h (by simp)
  | _ :: _, _, _, 0, _ => by simp [roundKeysFrom, rotatedBy]
  | s :: l, c, d, n + 1, h => by
    have ih := roundKeysFrom_get l (c.rotateLeft s) (d.rotateLeft s) n (by simpa using h)
    simpa [roundKeysFrom, rotatedBy] using ih

theorem rotatedBy_succ : ∀ (l : List Nat) (c : BitVec 28) (n : Nat), n < l.length →
    rotatedBy l c (n + 1) = (rotatedBy l c n).rotateLeft (l.getD n 0)
  | [], _, _, h => absurd h (by simp)
  | _ :: _, _, 0, _ => by simp [rotatedBy]
  | s :: l, c, n + 1, h => by
    have ih := rotatedBy_succ l (c.rotateLeft s) n (by simpa using h)
    simpa [rotatedBy] using ih

/-- One more round (R79). -/
theorem foldl_take_succ (keys : List RoundKey) (lr : Word × Word) (n : Nat) (h : n < keys.length) :
    (keys.take (n + 1)).foldl desRound lr = desRound ((keys.take n).foldl desRound lr) (keys.getD n 0#48) := by
  rw [List.take_succ_eq_append_getElem h, List.foldl_append]
  simp [List.getElem?_eq_getElem h]

/-- The halves of a block, joined again (R79). -/
theorem half_join (v : Half) : v.extractLsb' 32 32 ++ v.extractLsb' 0 32 = v := by
  apply BitVec.eq_of_getLsbD_eq
  intro i hi
  rw [BitVec.getLsbD_append]
  split
  · simp [*]
  · rw [BitVec.getLsbD_extractLsb', show 32 + (i - 32) = i by omega, decide_eq_true (by omega)]
    rfl

theorem left_of_append (a b : Word) : (a ++ b : Half).extractLsb' 32 32 = a := by
  apply BitVec.eq_of_getLsbD_eq
  intro i hi
  rw [BitVec.getLsbD_extractLsb', append_left_bit _ _ _ (by omega)]
  simp [hi]

theorem right_of_append (a b : Word) : (a ++ b : Half).extractLsb' 0 32 = b := by
  apply BitVec.eq_of_getLsbD_eq
  intro i hi
  rw [BitVec.getLsbD_extractLsb', append_right_bit _ _ _ (by omega)]
  simp [hi]

/-- A permutation table commutes with complement (R9). -/
theorem permute_not {n : Nat} (m : Nat) (t : List Nat) (v : BitVec n) (ht : t.length = m)
    (hb : ∀ x ∈ t, 1 ≤ x ∧ x ≤ n) : permute m t (~~~v) = ~~~permute m t v := by
  apply desBit_ext
  intro k h1 h2
  have hx : t.getD (k - 1) 0 ∈ t := by
    rw [List.getD_eq_getElem?_getD, List.getElem?_eq_getElem (by omega)]
    simp
  rw [desBit_not _ _ h1 h2, desBit_permute m t _ k ht h1 h2, desBit_permute m t _ k ht h1 h2,
    desBit_not _ _ (hb _ hx).1 (hb _ hx).2]

/-- Bit `k` of a 28-bit half rotated left by one or two places (R76). -/
theorem rotateLeft_desBit (c : BitVec 28) (s k : Nat) (hs : s ≤ 2) (h1 : 1 ≤ k) (h2 : k ≤ 28) :
    desBit (c.rotateLeft s) k = desBit c ((k - 1 + s) % 28 + 1) := by
  rw [desBit_eq _ _ h1 h2, desBit_eq _ _ (by omega) (by omega), BitVec.getLsbD_rotateLeft,
    Nat.mod_eq_of_lt (by omega : s < 28)]
  by_cases h : 28 - k < s
  · simp only [h, decide_true, cond_true]
    exact congrArg _ (by omega)
  · simp only [h, decide_false, cond_false]
    rw [decide_eq_true (by omega), Bool.true_and]
    exact congrArg _ (by omega)

end Sys2Proof.Machine
end

