-- ==== Sys2Proof/Laws/Flags.lean ====
section
/-! SUPPORT. The bits of CTRL and STATUS as the host reads them, and the interrupt line. -/

namespace Sys2Proof.Machine

theorem ofBool_bit (b : Bool) (k : Nat) : (BitVec.ofBool b).getLsbD k = (decide (k = 0) && b) := by
  rw [BitVec.getLsbD_ofBool]

/-- The bits of CTRL (R21). -/
theorem ctrlWord_bit (s : State) (k : Nat) :
    s.ctrlWord.getLsbD k = if k = 0 then s.ieDone else if k = 1 then s.ieErr else false := by
  unfold State.ctrlWord
  match k with
  | 0 => rw [append_right_bit _ _ _ (by omega), ofBool_bit]; simp
  | 1 => rw [append_left_bit _ _ _ (by omega), append_right_bit _ _ _ (by omega), ofBool_bit]; simp
  | k + 2 =>
    rw [append_left_bit _ _ _ (by omega), append_left_bit _ _ _ (by omega)]
    simp

/-- The bits of STATUS below ERR and above it (R22). -/
theorem statusWord_bit (s : State) (k : Nat) (h : k < 4 ∨ 8 ≤ k) :
    s.statusWord.getLsbD k =
      if k = 0 then s.busy else if k = 1 then s.done else if k = 2 then s.werr
      else if k = 8 then s.rkv else if k = 9 then s.rkalg else false := by
  unfold State.statusWord
  match k with
  | 0 => simp (disch := omega) only [append_right_bit, ofBool_bit]; simp
  | 1 => simp (disch := omega) only [append_left_bit, append_right_bit, ofBool_bit]; simp
  | 2 => simp (disch := omega) only [append_left_bit, append_right_bit, ofBool_bit]; simp
  | 3 => simp (disch := omega) only [append_left_bit, append_right_bit]; simp
  | 4 => omega
  | 5 => omega
  | 6 => omega
  | 7 => omega
  | 8 => simp (disch := omega) only [append_left_bit, append_right_bit, ofBool_bit]; simp
  | 9 => simp (disch := omega) only [append_left_bit, append_right_bit, ofBool_bit]; simp
  | k + 10 => simp (disch := omega) only [append_left_bit]; simp

/-- STATUS.ERR (R22). -/
theorem statusWord_err (s : State) : s.statusWord.extractLsb' 4 4 = s.err.code := by
  apply BitVec.eq_of_getLsbD_eq
  intro i hi
  rw [BitVec.getLsbD_extractLsb', State.statusWord]
  simp (disch := omega) only [append_left_bit, append_right_bit]
  rw [show 4 + i - 1 - 1 - 1 - 1 = i by omega]
  simp [hi]

theorem code_ne_zero (e : ErrCode) : e.code ≠ 0#4 ↔ e ≠ .none := by cases e <;> decide

end Sys2Proof.Machine
end

