-- ==== Sys2Proof/Laws/Operands.lean ====
section
/-! SUPPORT. What KNORM, PAD and UNPAD do to bytes, once for both block sizes. -/

namespace Sys2Proof.Machine

theorem getByte_fillFrom (b n : Nat) (p : Byte) (x : Block) (i : Nat) (h : i < 16) :
    getByte (fillFrom b n p x) i = if b ≤ i then 0#8 else if i < n then getByte x i else p :=
  getByte_blockOf _ i h

/-- The padding that UNPAD accepts on the first `b` bytes of a block (R104, R105). -/
def ValidPadding (b : Nat) (x : Block) : Prop :=
  (getByte x (b - 1)).toNat ≠ 0 ∧ (getByte x (b - 1)).toNat ≤ b ∧
    ∀ j, b - (getByte x (b - 1)).toNat ≤ j → j ≤ b - 1 →
      (getByte x j).toNat = (getByte x (b - 1)).toNat

theorem messageLength_valid {b : Nat} {x : Block} (h : ValidPadding b x) :
    messageLength b x = some (b - (getByte x (b - 1)).toNat) := by
  obtain ⟨h1, h2, h3⟩ := h
  simp only [messageLength]
  rw [if_neg (by omega), if_neg]
  simp only [List.any_eq_true, not_exists]
  rintro j ⟨hj, h⟩
  simp at h hj
  exact h.2 (BitVec.eq_of_toNat_eq (h3 j (by omega) (by omega)))

theorem messageLength_invalid {b : Nat} {x : Block} (hb : 0 < b) (h : ¬ValidPadding b x) :
    messageLength b x = none := by
  simp only [messageLength]
  split
  · rfl
  rename_i hp
  rw [if_pos]
  simp only [List.any_eq_true]
  by_contra hc
  apply h
  refine ⟨by omega, by omega, fun j h1 h2 => ?_⟩
  by_contra hne
  apply hc
  refine ⟨j, by simp; omega, ?_⟩
  simp only [bne_iff_ne, ne_eq, Bool.and_eq_true, decide_eq_true_eq]
  exact ⟨by omega, fun e => hne (by rw [e])⟩

/-- What UNPAD answers: at most `b - 1` message bytes (R104, R105). -/
theorem messageLength_lt {b len : Nat} {x : Block} (h : messageLength b x = some len) : len < b := by
  simp only [messageLength] at h
  split at h
  · cases h
  split at h
  · cases h
  · cases h
    omega

end Sys2Proof.Machine
end

