-- ==== Sys2Proof/Laws/State.lean ====
section
/-! SUPPORT. What each update of State leaves in each field: one lemma per field per update. -/

namespace Sys2Proof.Machine

variable (s : State)

/-! Accept (R83). -/

@[simp] theorem accept_ieDone (v : Word) : (s.accept v).ieDone = s.ieDone := rfl
@[simp] theorem accept_ieErr (v : Word) : (s.accept v).ieErr = s.ieErr := rfl
@[simp] theorem accept_phase (v : Word) : (s.accept v).phase = .busy := rfl
@[simp] theorem accept_done (v : Word) : (s.accept v).done = false := rfl
@[simp] theorem accept_werr (v : Word) : (s.accept v).werr = s.werr := rfl
@[simp] theorem accept_err (v : Word) : (s.accept v).err = .none := rfl
@[simp] theorem accept_rk (v : Word) : (s.accept v).rk = s.rk := rfl
@[simp] theorem accept_result (v : Word) : (s.accept v).result = s.result := rfl
@[simp] theorem accept_keylen (v : Word) : (s.accept v).keylen = s.keylen := rfl
@[simp] theorem accept_rksel (v : Word) : (s.accept v).rksel = s.rksel := rfl
@[simp] theorem accept_key (v : Word) : (s.accept v).key = s.key := rfl
@[simp] theorem accept_din (v : Word) : (s.accept v).din = s.din := rfl
@[simp] theorem accept_dout (v : Word) : (s.accept v).dout = s.dout := rfl
@[simp] theorem accept_iv (v : Word) : (s.accept v).iv = s.iv := rfl
@[simp] theorem accept_cur (v : Word) : (s.accept v).cur = v := rfl
@[simp] theorem accept_entropy (v : Word) : (s.accept v).entropy = s.entropy := rfl
@[simp] theorem accept_page (v : Word) : (s.accept v).page = s.page := rfl
@[simp] theorem accept_inputs (v : Word) : (s.accept v).inputs = s.inputs := rfl
@[simp] theorem accept_reads (v : Word) : (s.accept v).reads = s.reads := rfl
@[simp] theorem accept_draws (v : Word) : (s.accept v).draws = s.draws := rfl

/-! A command that ends in error (R117). -/

@[simp] theorem raise_ieDone (e : ErrCode) : (s.raise e).ieDone = s.ieDone := rfl
@[simp] theorem raise_ieErr (e : ErrCode) : (s.raise e).ieErr = s.ieErr := rfl
@[simp] theorem raise_phase (e : ErrCode) : (s.raise e).phase = .idle := rfl
@[simp] theorem raise_done (e : ErrCode) : (s.raise e).done = true := rfl
@[simp] theorem raise_werr (e : ErrCode) : (s.raise e).werr = s.werr := rfl
@[simp] theorem raise_err (e : ErrCode) : (s.raise e).err = e := rfl
@[simp] theorem raise_rk (e : ErrCode) : (s.raise e).rk = s.rk := rfl
@[simp] theorem raise_result (e : ErrCode) : (s.raise e).result = s.result := rfl
@[simp] theorem raise_keylen (e : ErrCode) : (s.raise e).keylen = s.keylen := rfl
@[simp] theorem raise_rksel (e : ErrCode) : (s.raise e).rksel = s.rksel := rfl
@[simp] theorem raise_key (e : ErrCode) : (s.raise e).key = s.key := rfl
@[simp] theorem raise_din (e : ErrCode) : (s.raise e).din = s.din := rfl
@[simp] theorem raise_dout (e : ErrCode) : (s.raise e).dout = s.dout := rfl
@[simp] theorem raise_iv (e : ErrCode) : (s.raise e).iv = s.iv := rfl
@[simp] theorem raise_cur (e : ErrCode) : (s.raise e).cur = s.cur := rfl
@[simp] theorem raise_entropy (e : ErrCode) : (s.raise e).entropy = s.entropy := rfl
@[simp] theorem raise_page (e : ErrCode) : (s.raise e).page = s.page := rfl
@[simp] theorem raise_inputs (e : ErrCode) : (s.raise e).inputs = s.inputs := rfl
@[simp] theorem raise_reads (e : ErrCode) : (s.raise e).reads = s.reads := rfl
@[simp] theorem raise_draws (e : ErrCode) : (s.raise e).draws = s.draws := rfl

/-! The end of KSCHED (R84). -/

@[simp] theorem finishKeepingStore_ieDone : (s.finishKeepingStore).ieDone = s.ieDone := rfl
@[simp] theorem finishKeepingStore_ieErr : (s.finishKeepingStore).ieErr = s.ieErr := rfl
@[simp] theorem finishKeepingStore_phase : (s.finishKeepingStore).phase = .idle := rfl
@[simp] theorem finishKeepingStore_done : (s.finishKeepingStore).done = true := rfl
@[simp] theorem finishKeepingStore_werr : (s.finishKeepingStore).werr = s.werr := rfl
@[simp] theorem finishKeepingStore_err : (s.finishKeepingStore).err = .none := rfl
@[simp] theorem finishKeepingStore_rk : (s.finishKeepingStore).rk = s.rk := rfl
@[simp] theorem finishKeepingStore_result : (s.finishKeepingStore).result = s.result := rfl
@[simp] theorem finishKeepingStore_keylen : (s.finishKeepingStore).keylen = s.keylen := rfl
@[simp] theorem finishKeepingStore_rksel : (s.finishKeepingStore).rksel = s.rksel := rfl
@[simp] theorem finishKeepingStore_key : (s.finishKeepingStore).key = s.key := rfl
@[simp] theorem finishKeepingStore_din : (s.finishKeepingStore).din = s.din := rfl
@[simp] theorem finishKeepingStore_dout : (s.finishKeepingStore).dout = s.dout := rfl
@[simp] theorem finishKeepingStore_iv : (s.finishKeepingStore).iv = s.iv := rfl
@[simp] theorem finishKeepingStore_cur : (s.finishKeepingStore).cur = s.cur := rfl
@[simp] theorem finishKeepingStore_entropy : (s.finishKeepingStore).entropy = s.entropy := rfl
@[simp] theorem finishKeepingStore_page : (s.finishKeepingStore).page = s.page := rfl
@[simp] theorem finishKeepingStore_inputs : (s.finishKeepingStore).inputs = s.inputs := rfl
@[simp] theorem finishKeepingStore_reads : (s.finishKeepingStore).reads = s.reads := rfl
@[simp] theorem finishKeepingStore_draws : (s.finishKeepingStore).draws = s.draws := rfl

/-! The end of any other command (R84). -/

@[simp] theorem finish_ieDone : (s.finish).ieDone = s.ieDone := rfl
@[simp] theorem finish_ieErr : (s.finish).ieErr = s.ieErr := rfl
@[simp] theorem finish_phase : (s.finish).phase = .idle := rfl
@[simp] theorem finish_done : (s.finish).done = true := rfl
@[simp] theorem finish_werr : (s.finish).werr = s.werr := rfl
@[simp] theorem finish_err : (s.finish).err = .none := rfl
@[simp] theorem finish_rk : (s.finish).rk = .empty := rfl
@[simp] theorem finish_result : (s.finish).result = s.result := rfl
@[simp] theorem finish_keylen : (s.finish).keylen = s.keylen := rfl
@[simp] theorem finish_rksel : (s.finish).rksel = s.rksel := rfl
@[simp] theorem finish_key : (s.finish).key = s.key := rfl
@[simp] theorem finish_din : (s.finish).din = s.din := rfl
@[simp] theorem finish_dout : (s.finish).dout = s.dout := rfl
@[simp] theorem finish_iv : (s.finish).iv = s.iv := rfl
@[simp] theorem finish_cur : (s.finish).cur = s.cur := rfl
@[simp] theorem finish_entropy : (s.finish).entropy = s.entropy := rfl
@[simp] theorem finish_page : (s.finish).page = s.page := rfl
@[simp] theorem finish_inputs : (s.finish).inputs = s.inputs := rfl
@[simp] theorem finish_reads : (s.finish).reads = s.reads := rfl
@[simp] theorem finish_draws : (s.finish).draws = s.draws := rfl

/-! Reset (R126). -/

@[simp] theorem resetStep_ieDone : (s.resetStep).ieDone = false := rfl
@[simp] theorem resetStep_ieErr : (s.resetStep).ieErr = false := rfl
@[simp] theorem resetStep_phase : (s.resetStep).phase = .idle := rfl
@[simp] theorem resetStep_done : (s.resetStep).done = false := rfl
@[simp] theorem resetStep_werr : (s.resetStep).werr = false := rfl
@[simp] theorem resetStep_err : (s.resetStep).err = .none := rfl
@[simp] theorem resetStep_rk : (s.resetStep).rk = .empty := rfl
@[simp] theorem resetStep_result : (s.resetStep).result = 0#5 := rfl
@[simp] theorem resetStep_keylen : (s.resetStep).keylen = 0#8 := rfl
@[simp] theorem resetStep_rksel : (s.resetStep).rksel = 0#6 := rfl
@[simp] theorem resetStep_key : (s.resetStep).key = 0#128 := rfl
@[simp] theorem resetStep_din : (s.resetStep).din = 0#128 := rfl
@[simp] theorem resetStep_dout : (s.resetStep).dout = 0#128 := rfl
@[simp] theorem resetStep_iv : (s.resetStep).iv = 0#128 := rfl
@[simp] theorem resetStep_cur : (s.resetStep).cur = 0#32 := rfl
@[simp] theorem resetStep_entropy : (s.resetStep).entropy = [] := rfl
@[simp] theorem resetStep_page : (s.resetStep).page = s.page := rfl
@[simp] theorem resetStep_inputs : (s.resetStep).inputs = s.inputs := rfl
@[simp] theorem resetStep_reads : (s.resetStep).reads = s.reads := rfl
@[simp] theorem resetStep_draws : (s.resetStep).draws = s.draws := rfl

/-! A write of CTRL (R21). -/

@[simp] theorem writeCtrl_ieDone (v : Word) : (s.writeCtrl v).ieDone = v.getLsbD 0 := rfl
@[simp] theorem writeCtrl_ieErr (v : Word) : (s.writeCtrl v).ieErr = v.getLsbD 1 := rfl
@[simp] theorem writeCtrl_phase (v : Word) : (s.writeCtrl v).phase = s.phase := rfl
@[simp] theorem writeCtrl_done (v : Word) : (s.writeCtrl v).done = s.done := rfl
@[simp] theorem writeCtrl_werr (v : Word) : (s.writeCtrl v).werr = s.werr := rfl
@[simp] theorem writeCtrl_err (v : Word) : (s.writeCtrl v).err = s.err := rfl
@[simp] theorem writeCtrl_rk (v : Word) : (s.writeCtrl v).rk = s.rk := rfl
@[simp] theorem writeCtrl_result (v : Word) : (s.writeCtrl v).result = s.result := rfl
@[simp] theorem writeCtrl_keylen (v : Word) : (s.writeCtrl v).keylen = s.keylen := rfl
@[simp] theorem writeCtrl_rksel (v : Word) : (s.writeCtrl v).rksel = s.rksel := rfl
@[simp] theorem writeCtrl_key (v : Word) : (s.writeCtrl v).key = s.key := rfl
@[simp] theorem writeCtrl_din (v : Word) : (s.writeCtrl v).din = s.din := rfl
@[simp] theorem writeCtrl_dout (v : Word) : (s.writeCtrl v).dout = s.dout := rfl
@[simp] theorem writeCtrl_iv (v : Word) : (s.writeCtrl v).iv = s.iv := rfl
@[simp] theorem writeCtrl_cur (v : Word) : (s.writeCtrl v).cur = s.cur := rfl
@[simp] theorem writeCtrl_entropy (v : Word) : (s.writeCtrl v).entropy = s.entropy := rfl
@[simp] theorem writeCtrl_page (v : Word) : (s.writeCtrl v).page = s.page := rfl
@[simp] theorem writeCtrl_inputs (v : Word) : (s.writeCtrl v).inputs = s.inputs := rfl
@[simp] theorem writeCtrl_reads (v : Word) : (s.writeCtrl v).reads = s.reads := rfl
@[simp] theorem writeCtrl_draws (v : Word) : (s.writeCtrl v).draws = s.draws := rfl

/-! A write of STATUS (R22). -/

@[simp] theorem writeStatus_ieDone (v : Word) : (s.writeStatus v).ieDone = s.ieDone := rfl
@[simp] theorem writeStatus_ieErr (v : Word) : (s.writeStatus v).ieErr = s.ieErr := rfl
@[simp] theorem writeStatus_phase (v : Word) : (s.writeStatus v).phase = s.phase := rfl
@[simp] theorem writeStatus_done (v : Word) : (s.writeStatus v).done = (s.done && !v.getLsbD 1) := rfl
@[simp] theorem writeStatus_werr (v : Word) : (s.writeStatus v).werr = (s.werr && !v.getLsbD 2) := rfl
@[simp] theorem writeStatus_err (v : Word) : (s.writeStatus v).err = s.err := rfl
@[simp] theorem writeStatus_rk (v : Word) : (s.writeStatus v).rk = s.rk := rfl
@[simp] theorem writeStatus_result (v : Word) : (s.writeStatus v).result = s.result := rfl
@[simp] theorem writeStatus_keylen (v : Word) : (s.writeStatus v).keylen = s.keylen := rfl
@[simp] theorem writeStatus_rksel (v : Word) : (s.writeStatus v).rksel = s.rksel := rfl
@[simp] theorem writeStatus_key (v : Word) : (s.writeStatus v).key = s.key := rfl
@[simp] theorem writeStatus_din (v : Word) : (s.writeStatus v).din = s.din := rfl
@[simp] theorem writeStatus_dout (v : Word) : (s.writeStatus v).dout = s.dout := rfl
@[simp] theorem writeStatus_iv (v : Word) : (s.writeStatus v).iv = s.iv := rfl
@[simp] theorem writeStatus_cur (v : Word) : (s.writeStatus v).cur = s.cur := rfl
@[simp] theorem writeStatus_entropy (v : Word) : (s.writeStatus v).entropy = s.entropy := rfl
@[simp] theorem writeStatus_page (v : Word) : (s.writeStatus v).page = s.page := rfl
@[simp] theorem writeStatus_inputs (v : Word) : (s.writeStatus v).inputs = s.inputs := rfl
@[simp] theorem writeStatus_reads (v : Word) : (s.writeStatus v).reads = s.reads := rfl
@[simp] theorem writeStatus_draws (v : Word) : (s.writeStatus v).draws = s.draws := rfl

end Sys2Proof.Machine
end

