-- ==== Sys2Proof/Laws/Ops.lean ====
section
/-! SUPPORT. For each shared operation, once, everything it can do. -/

namespace Sys2Proof.Machine

/-- The key-length check of a cipher command: the body, or KeyLengthError (R85). -/
theorem withKeyLength_next {a : Alg} {s b t : State} (h : withKeyLength a s b = .next t) :
    (s.keylen.toNat = a.klen ∧ t = b) ∨ (s.keylen.toNat ≠ a.klen ∧ t = s.raise .keyLengthError) := by
  unfold withKeyLength at h
  split at h <;> cases h
  · exact .inl ⟨‹_›, rfl⟩
  · exact .inr ⟨‹_›, rfl⟩

theorem withKeyLength_ok {a : Alg} {s b : State} (h : s.keylen.toNat = a.klen) :
    withKeyLength a s b = .next b := if_pos h

theorem withKeyLength_bad {a : Alg} {s b : State} (h : s.keylen.toNat ≠ a.klen) :
    withKeyLength a s b = .next (s.raise .keyLengthError) := if_neg h

/-- The key-length check of KNORM: the body, or KeyLengthError (R85). -/
theorem withKeyMaterial_next {s b t : State} (h : withKeyMaterial s b = .next t) :
    (s.keylen.toNat ≠ 0 ∧ t = b) ∨ (s.keylen.toNat = 0 ∧ t = s.raise .keyLengthError) := by
  unfold withKeyMaterial at h
  split at h <;> cases h
  · exact .inl ⟨‹_›, rfl⟩
  · exact .inr ⟨not_not.mp ‹_›, rfl⟩

/-- A draw is answered exactly when enough bytes have been delivered (R99). -/
theorem draw_eq_some {n : Nat} {s : State} {bs : List Byte} :
    s.draw n = some bs ↔ n ≤ s.entropy.length ∧ bs = s.entropy.take n := by
  unfold State.draw
  split
  · simp [*, eq_comm]
  · simp [*]

theorem draw_eq_none {n : Nat} {s : State} : s.draw n = none ↔ s.entropy.length < n := by
  unfold State.draw
  split <;> simp <;> omega

/-- A write that BUSY drops (R129). -/
theorem whenIdle_idle {s w : State} (h : s.phase = .idle) : s.whenIdle w = w := by simp [State.whenIdle, h]

theorem whenIdle_busy {s w : State} (h : s.phase = .busy) : s.whenIdle w = { s with werr := true } := by
  simp [State.whenIdle, h]

/-- Delivered entropy changes nothing but what waits for the draw in flight (R99, R126). -/
theorem deliver_eq (s : State) (bs : List Byte) :
    s.deliver bs =
      { s with entropy := if s.phase = .busy then (s.entropy ++ bs).take s.drawSize else s.entropy } := by
  cases h : s.phase <;> cases s <;> simp_all [State.deliver]

/-- What a command word in CUR draws, by its decoding. -/
theorem drawSize_of_decode {s : State} {i : Instr} (h : decode s.cur = .ok i) :
    s.drawSize = entropyBytes i := by
  simp [State.drawSize, h]

theorem drawSize_le (s : State) : s.drawSize ≤ 16 := by
  unfold State.drawSize
  split
  · rename_i i _
    cases i <;> simp [entropyBytes]
  · decide

/-- A host read changes only what the host has read and the count of free values (R35, R130). -/
theorem hostRead_eq (r : Reg) (s : State) :
    s.hostRead r =
      if s.phase = .busy ∧ r.inDataPath then
        { s with reads := Config.busyRead s.draws :: s.reads, draws := s.draws + 1 }
      else { s with reads := s.regWord r :: s.reads } := rfl

theorem windowOffset_eq_some {s : State} {a off : Nat} :
    s.windowOffset a = some off ↔ off < 0x100 ∧ a = s.base + off := by
  unfold State.windowOffset
  split
  · rw [Option.some_inj]; omega
  · simp; omega

/-- A host access that answers a next state is a 32-bit access to a mapped register (R33, R34). -/
theorem busAccess_next {a : Access} {s t : State} (h : busAccess a s = .next t) :
    ∃ off r, s.windowOffset a.addr = some off ∧ a.size = 4 ∧ off % 4 = 0 ∧ regAt off = some r ∧
      t = a.perform r s := by
  unfold busAccess at h
  split at h
  · cases h
  · rename_i off ho
    split at h
    · cases h
    · rename_i hs
      split at h
      · cases h
      · rename_i r hr
        cases h
        exact ⟨off, r, ho, by omega, by omega, hr, rfl⟩

/-- And every such access answers one (R33). -/
theorem busAccess_mapped {a : Access} {s : State} {off : Nat} {r : Reg} (ho : s.windowOffset a.addr = some off)
    (hs : a.size = 4) (h4 : off % 4 = 0) (hr : regAt off = some r) : busAccess a s = .next (a.perform r s) := by
  simp [busAccess, ho, hs, h4, hr]

/-- The completion step: nothing where no command is in flight; else the error of a word that is no
instruction, or the instruction's meaning (R84). -/
theorem complete_idle {s : State} (h : s.phase = .idle) : complete s = .next s := by simp [complete, h]

theorem complete_error {s : State} {e : ErrCode} (h : s.phase = .busy) (hd : decode s.cur = .error e) :
    complete s = .next (s.raise e) := by simp [complete, h, hd]

theorem complete_ok {s : State} {i : Instr} (h : s.phase = .busy) (hd : decode s.cur = .ok i) :
    complete s = exec i s := by simp [complete, h, hd]

theorem complete_next {s t : State} (h : complete s = .next t) :
    (s.phase = .idle ∧ t = s) ∨
    (s.phase = .busy ∧ ∃ e, decode s.cur = .error e ∧ t = s.raise e) ∨
    (s.phase = .busy ∧ ∃ i, decode s.cur = .ok i ∧ exec i s = .next t) := by
  cases hp : s.phase with
  | idle => rw [complete_idle hp] at h; cases h; exact .inl ⟨rfl, rfl⟩
  | busy =>
    cases hd : decode s.cur with
    | error e => rw [complete_error hp hd] at h; cases h; exact .inr (.inl ⟨rfl, e, rfl, rfl⟩)
    | ok i => rw [complete_ok hp hd] at h; exact .inr (.inr ⟨rfl, i, rfl, h⟩)

/-- A step takes the next event, or completes the command in flight where none is left (R12, R133). -/
theorem step_nil {s : State} (h : s.inputs = []) : step s = complete s := by simp [step, takeStep, h]

theorem step_cons {s : State} {e : Event} {rest : List Event} (h : s.inputs = e :: rest) :
    step s = perform e { s with inputs := rest } := by simp [step, takeStep, h]

/-- A delivery while a command is in flight: what waits for its draw, and nothing else (R99, R126). -/
theorem step_entropy {s : State} {bs : List Byte} {rest : List Event} (h : s.inputs = .entropy bs :: rest)
    (hp : s.phase = .busy) :
    step s = .next { s with inputs := rest, entropy := (s.entropy ++ bs).take s.drawSize } := by
  rw [step_cons h]
  simp [perform, State.deliver, hp, State.drawSize]

/-- Everything a step that answers a next state can have done. -/
theorem step_next {s t : State} (h : step s = .next t) :
    (s.inputs = [] ∧ complete s = .next t) ∨
    ∃ e rest, s.inputs = e :: rest ∧
      ((∃ a, e = .host a ∧ busAccess a { s with inputs := rest } = .next t) ∨
       (e = .complete ∧ complete { s with inputs := rest } = .next t) ∨
       (∃ bs, e = .entropy bs ∧ t = State.deliver bs { s with inputs := rest }) ∨
       (∃ lost, e = .reset lost ∧ t = State.resetStep { s with inputs := rest })) := by
  cases hi : s.inputs with
  | nil => rw [step_nil hi] at h; exact .inl ⟨rfl, h⟩
  | cons e rest =>
    rw [step_cons hi] at h
    refine .inr ⟨e, rest, rfl, ?_⟩
    cases e with
    | host a => exact .inl ⟨a, rfl, h⟩
    | complete => exact .inr (.inl ⟨rfl, h⟩)
    | entropy bs => cases h; exact .inr (.inr (.inl ⟨bs, rfl, rfl⟩))
    | reset lost => cases h; exact .inr (.inr (.inr ⟨lost, rfl, rfl⟩))

/-- Every register of the map is found at its offset (R14). -/
theorem regAt_offset {r : Reg} (h : ∀ x j, r = .word x j → j < 4) : regAt r.offset = some r := by
  cases r with
  | word x j =>
    have hj := h x j rfl
    cases x <;> interval_cases j <;> rfl
  | _ => rfl

theorem regAt_mem {off : Nat} {r : Reg} (h : regAt off = some r) : (off, r) ∈ regTable := by
  unfold regAt at h
  rw [List.lookup_eq_some_iff] at h
  obtain ⟨l1, l2, e, _⟩ := h
  rw [e]
  simp

/-- A mapped offset is a multiple of 4 below 0x60, and names one register (R14). -/
theorem regAt_eq_some {off : Nat} {r : Reg} (h : regAt off = some r) : r.offset = off ∧ off % 4 = 0 ∧ off < 0x60 := by
  have hm := regAt_mem h
  simp only [regTable, List.mem_cons, Prod.mk.injEq, List.not_mem_nil, or_false] at hm
  rcases hm with ⟨rfl, rfl⟩ | hm
  · decide
  repeat (rcases hm with ⟨rfl, rfl⟩ | hm; · decide)
  obtain ⟨rfl, rfl⟩ := hm
  decide

/-- An operand has four mapped words (R36). -/
theorem regAt_word {off j : Nat} {x : Operand} (h : regAt off = some (.word x j)) : j < 4 := by
  have hm : ∀ p ∈ regTable, ∀ y k, p.2 = .word y k → k < 4 := by
    intro p hp
    simp only [regTable, List.mem_cons, List.not_mem_nil, or_false] at hp
    rcases hp with rfl | hp
    · exact fun _ _ e => by cases e
    repeat (rcases hp with rfl | hp; · intro y k e; cases e <;> decide)
  exact hm _ (regAt_mem h) x j rfl

/-- The offsets that are mapped, and those that are not (R14, R34). -/
theorem regAt_total {off : Nat} (h : ¬(off % 4 ≠ 0 ∨ off = 0x1C ∨ 0x60 ≤ off)) : ∃ r, regAt off = some r := by
  have h0 : off % 4 = 0 := by omega
  obtain ⟨k, rfl⟩ : ∃ k, off = 4 * k := ⟨off / 4, by omega⟩
  have : k < 24 := by omega
  interval_cases k <;> first | (exfalso; omega) | exact ⟨_, rfl⟩

theorem regAt_none {off : Nat} (h : off = 0x1C ∨ 0x60 ≤ off) : regAt off = none := by
  cases hr : regAt off with
  | none => rfl
  | some r =>
    have := regAt_eq_some hr
    rcases h with rfl | h
    · cases hr
    · omega

/-- A host write to a mapped register of the window (R33). -/
theorem step_write {s : State} {off : Nat} {v : Word} {rest : List Event} {r : Reg}
    (h : s.inputs = .host (.write 4 (s.base + off) v) :: rest) (hr : regAt off = some r) :
    step s = .next (State.hostWrite r v { s with inputs := rest }) := by
  have := regAt_eq_some hr
  rw [step_cons h]
  exact busAccess_mapped (off := off) (windowOffset_eq_some.mpr ⟨by omega, rfl⟩) rfl this.2.1 hr

/-- A host read of a mapped register of the window (R33). -/
theorem step_read {s : State} {off : Nat} {rest : List Event} {r : Reg}
    (h : s.inputs = .host (.read 4 (s.base + off)) :: rest) (hr : regAt off = some r) :
    step s = .next (State.hostRead r { s with inputs := rest }) := by
  have := regAt_eq_some hr
  rw [step_cons h]
  exact busAccess_mapped (off := off) (windowOffset_eq_some.mpr ⟨by omega, rfl⟩) rfl this.2.1 hr

/-- Everything a host access that answers a next state can have done (R33, R34). -/
theorem step_host_next {s t : State} {a : Access} {rest : List Event} (hi : s.inputs = .host a :: rest)
    (h : step s = .next t) :
    ∃ off r, regAt off = some r ∧
      ((a = .read 4 (s.base + off) ∧ t = State.hostRead r { s with inputs := rest }) ∨
       ∃ v, a = .write 4 (s.base + off) v ∧ t = State.hostWrite r v { s with inputs := rest }) := by
  rw [step_cons hi] at h
  obtain ⟨off, r, ho, hs, _, hr, ht⟩ := busAccess_next h
  refine ⟨off, r, hr, ?_⟩
  have he := (windowOffset_eq_some.mp ho).2
  cases a with
  | read n x =>
    simp only [Access.size, Access.addr] at hs he
    subst hs he
    exact .inl ⟨rfl, ht⟩
  | write n x v =>
    simp only [Access.size, Access.addr] at hs he
    subst hs he
    exact .inr ⟨v, rfl, ht⟩

/-- The three ways a completion can leave the machine: an IVGEN that waits, an error and nothing else, or the
end of a command without error (R84, R99, R117). -/
theorem exec_next {i : Instr} {s t : State} (h : exec i s = .next t) :
    (t = s ∧ s.entropy.length < entropyBytes i) ∨
    (∃ e, e ≠ .none ∧ t = s.raise e) ∨
    (t.err = .none ∧ t.done = true ∧ t.phase = .idle) := by
  cases i
  case ivgenAes =>
    simp only [exec, execIvgenAes] at h
    split at h <;> cases h
    · exact .inr (.inr ⟨rfl, rfl, rfl⟩)
    · exact .inl ⟨rfl, draw_eq_none.mp ‹_›⟩
  case ivgenDes =>
    simp only [exec, execIvgenDes] at h
    split at h <;> cases h
    · exact .inr (.inr ⟨rfl, rfl, rfl⟩)
    · exact .inl ⟨rfl, draw_eq_none.mp ‹_›⟩
  case padAes n => cases h; exact .inr (.inr ⟨rfl, rfl, rfl⟩)
  case knormAes =>
    rcases withKeyMaterial_next h with ⟨_, rfl⟩ | ⟨_, rfl⟩
    · exact .inr (.inr ⟨rfl, rfl, rfl⟩)
    · exact .inr (.inl ⟨_, by decide, rfl⟩)
  case knormDes =>
    rcases withKeyMaterial_next h with ⟨_, rfl⟩ | ⟨_, rfl⟩
    · exact .inr (.inr ⟨rfl, rfl, rfl⟩)
    · exact .inr (.inl ⟨_, by decide, rfl⟩)
  case padDes n =>
    simp only [exec, execPadDes] at h
    split at h <;> cases h
    · exact .inr (.inr ⟨rfl, rfl, rfl⟩)
    · exact .inr (.inl ⟨_, by decide, rfl⟩)
  case unpadAes =>
    simp only [exec, execUnpadAes] at h
    split at h <;> cases h
    · exact .inr (.inr ⟨rfl, rfl, rfl⟩)
    · exact .inr (.inl ⟨_, by decide, rfl⟩)
  case unpadDes =>
    simp only [exec, execUnpadDes] at h
    split at h <;> cases h
    · exact .inr (.inr ⟨rfl, rfl, rfl⟩)
    · exact .inr (.inl ⟨_, by decide, rfl⟩)
  case b64e n =>
    simp only [exec, execB64e] at h
    split at h <;> cases h
    · exact .inr (.inr ⟨rfl, rfl, rfl⟩)
    · exact .inr (.inl ⟨_, by decide, rfl⟩)
  case b64d =>
    simp only [exec, execB64d] at h
    split at h <;> cases h
    · exact .inr (.inr ⟨rfl, rfl, rfl⟩)
    · exact .inr (.inl ⟨_, by decide, rfl⟩)
  all_goals
    rcases withKeyLength_next h with ⟨_, rfl⟩ | ⟨_, rfl⟩
    · exact .inr (.inr ⟨rfl, rfl, rfl⟩)
    · exact .inr (.inl ⟨_, by decide, rfl⟩)

/-- Every instruction answers a next state (R118: a command error is a completion). -/
theorem exec_total (i : Instr) (s : State) : ∃ t, exec i s = .next t := by
  cases i
  case ivgenAes => simp only [exec, execIvgenAes]; split <;> exact ⟨_, rfl⟩
  case ivgenDes => simp only [exec, execIvgenDes]; split <;> exact ⟨_, rfl⟩
  case padAes n => exact ⟨_, rfl⟩
  case padDes n => simp only [exec, execPadDes]; split <;> exact ⟨_, rfl⟩
  case unpadAes => simp only [exec, execUnpadAes]; split <;> exact ⟨_, rfl⟩
  case unpadDes => simp only [exec, execUnpadDes]; split <;> exact ⟨_, rfl⟩
  case b64e n => simp only [exec, execB64e]; split <;> exact ⟨_, rfl⟩
  case b64d => simp only [exec, execB64d]; split <;> exact ⟨_, rfl⟩
  case knormAes => simp only [exec, execKnormAes, withKeyMaterial]; split <;> exact ⟨_, rfl⟩
  case knormDes => simp only [exec, execKnormDes, withKeyMaterial]; split <;> exact ⟨_, rfl⟩
  case encAes => simp only [exec, execEncAes, withKeyLength]; split <;> exact ⟨_, rfl⟩
  case encDes => simp only [exec, execEncDes, withKeyLength]; split <;> exact ⟨_, rfl⟩
  case decAes => simp only [exec, execDecAes, withKeyLength]; split <;> exact ⟨_, rfl⟩
  case decDes => simp only [exec, execDecDes, withKeyLength]; split <;> exact ⟨_, rfl⟩
  case cbceAes => simp only [exec, execCbceAes, withKeyLength]; split <;> exact ⟨_, rfl⟩
  case cbceDes => simp only [exec, execCbceDes, withKeyLength]; split <;> exact ⟨_, rfl⟩
  case cbcdAes => simp only [exec, execCbcdAes, withKeyLength]; split <;> exact ⟨_, rfl⟩
  case cbcdDes => simp only [exec, execCbcdDes, withKeyLength]; split <;> exact ⟨_, rfl⟩
  case kschedAes => simp only [exec, execKschedAes, withKeyLength]; split <;> exact ⟨_, rfl⟩
  case kschedDes => simp only [exec, execKschedDes, withKeyLength]; split <;> exact ⟨_, rfl⟩

end Sys2Proof.Machine
end

