-- ==== Sys2Proof/Laws/PerInstr.lean ====
section
/-! SUPPORT. Statements about every instruction, one lemma per constructor: each command word is a word of its
row of spec/opcode_table.json (30_encoding.md R46). -/

namespace Sys2Proof.Laws.TableWord

/-- The mask and the match of an instruction's row (R46). -/
def row : Instr → Word × Word
  | .encAes => (0xFFFFFFFF#32, 0x00000001#32)
  | .encDes => (0xFFFFFFFF#32, 0x00000011#32)
  | .decAes => (0xFFFFFFFF#32, 0x00000002#32)
  | .decDes => (0xFFFFFFFF#32, 0x00000012#32)
  | .cbceAes => (0xFFFFFFFF#32, 0x00000003#32)
  | .cbceDes => (0xFFFFFFFF#32, 0x00000013#32)
  | .cbcdAes => (0xFFFFFFFF#32, 0x00000004#32)
  | .cbcdDes => (0xFFFFFFFF#32, 0x00000014#32)
  | .kschedAes => (0xFFFFFFFF#32, 0x00000005#32)
  | .kschedDes => (0xFFFFFFFF#32, 0x00000015#32)
  | .knormAes => (0xFFFFFFFF#32, 0x00000006#32)
  | .knormDes => (0xFFFFFFFF#32, 0x00000016#32)
  | .ivgenAes => (0xFFFFFFFF#32, 0x00000007#32)
  | .ivgenDes => (0xFFFFFFFF#32, 0x00000017#32)
  | .padAes _ => (0xFFFFF0FF#32, 0x00000008#32)
  | .padDes _ => (0xFFFFF8FF#32, 0x00000018#32)
  | .unpadAes => (0xFFFFFFFF#32, 0x00000009#32)
  | .unpadDes => (0xFFFFFFFF#32, 0x00000019#32)
  | .b64e _ => (0xFFFFFCFF#32, 0x0000000A#32)
  | .b64d => (0xFFFFFFFF#32, 0x0000000B#32)

/-- The word of a well-formed instruction has the fixed bits of its row (R46). -/
def Statement (i : Instr) : Prop := i.wf = true → encode i &&& (row i).1 = (row i).2

theorem encAes : Statement .encAes := fun _ => rfl
theorem encDes : Statement .encDes := fun _ => rfl
theorem decAes : Statement .decAes := fun _ => rfl
theorem decDes : Statement .decDes := fun _ => rfl
theorem cbceAes : Statement .cbceAes := fun _ => rfl
theorem cbceDes : Statement .cbceDes := fun _ => rfl
theorem cbcdAes : Statement .cbcdAes := fun _ => rfl
theorem cbcdDes : Statement .cbcdDes := fun _ => rfl
theorem kschedAes : Statement .kschedAes := fun _ => rfl
theorem kschedDes : Statement .kschedDes := fun _ => rfl
theorem knormAes : Statement .knormAes := fun _ => rfl
theorem knormDes : Statement .knormDes := fun _ => rfl
theorem ivgenAes : Statement .ivgenAes := fun _ => rfl
theorem ivgenDes : Statement .ivgenDes := fun _ => rfl
theorem padAes (n : BitVec 4) : Statement (.padAes n) := by unfold Statement; revert n; decide
theorem padDes (n : BitVec 4) : Statement (.padDes n) := by unfold Statement; revert n; decide
theorem unpadAes : Statement .unpadAes := fun _ => rfl
theorem unpadDes : Statement .unpadDes := fun _ => rfl
theorem b64e (n : BitVec 4) : Statement (.b64e n) := by unfold Statement; revert n; decide
theorem b64d : Statement .b64d := fun _ => rfl

end Sys2Proof.Laws.TableWord
end

