-- ==== Sys2Proof/Tests/Slice0.lean ====
section
/-! SUPPORT. The model's own tests. Expected values are those of spec/95_test_vectors.md (the vector's name
stands in the comment) or are written out from the encoding table of 30_encoding.md R46. The last part holds,
for every statement that has hypotheses, a theorem that shows a state and operands meeting them. -/

namespace Sys2Proof.Tests

open Sys2Proof.Machine

set_option Elab.async false

/-! ## Helpers -/

/-- The outcome is a next state of which `p` holds. -/
def nextIs (o : Result) (p : State → Bool) : Bool :=
  match o with
  | .next t => p t
  | .fault _ => false
  | .refused _ => false

/-- The reset state with steps to come. -/
def idleWith (es : List Event) : State := { State.reset with inputs := es }

/-- The reset state with a command in flight and steps to come. -/
def busyWith (w : Word) (es : List Event) : State :=
  { State.reset with phase := .busy, cur := w, inputs := es }

/-- The command word `w` taken to completion at once in `s`. -/
def completes (w : Word) (s : State) (p : State → Bool) : Bool :=
  nextIs (step { s.accept w with inputs := [] }) p

/-- A host read or write of the register at an offset; BASE is 0 in these states. -/
def rd (off : Nat) : Event := .host (.read 4 off)

def wr (off : Nat) (v : Word) : Event := .host (.write 4 off v)

/-! ## Well-formedness: an ill-formed term for each check, and the boundary values that pass -/

theorem test_wf_padDes : (Instr.padDes 8#4).wf = false ∧ (Instr.padDes 15#4).wf = false ∧
    (Instr.padDes 7#4).wf = true := by decide

theorem test_wf_b64e : (Instr.b64e 0#4).wf = false ∧ (Instr.b64e 4#4).wf = false ∧
    (Instr.b64e 1#4).wf = true ∧ (Instr.b64e 3#4).wf = true := by decide

theorem test_wf_padAes : (Instr.padAes 0#4).wf = true ∧ (Instr.padAes 15#4).wf = true := by decide

/-! ## Decoding: each row of R46 written out as RSV, ARG, ALG, OP -/

/-- A word from its four fields, written in binary. -/
def fields (rsv : BitVec 20) (arg alg op : BitVec 4) : Word := rsv ++ arg ++ alg ++ op

theorem test_decode_block_core :
    decode (fields 0#20 0b0000#4 0b0000#4 0b0001#4) = .ok .encAes ∧
    decode (fields 0#20 0b0000#4 0b0001#4 0b0001#4) = .ok .encDes ∧
    decode (fields 0#20 0b0000#4 0b0000#4 0b0010#4) = .ok .decAes ∧
    decode (fields 0#20 0b0000#4 0b0001#4 0b0010#4) = .ok .decDes ∧
    decode (fields 0#20 0b0000#4 0b0000#4 0b0101#4) = .ok .kschedAes ∧
    decode (fields 0#20 0b0000#4 0b0001#4 0b0101#4) = .ok .kschedDes ∧
    decode (fields 0#20 0b0000#4 0b0000#4 0b0110#4) = .ok .knormAes ∧
    decode (fields 0#20 0b0000#4 0b0001#4 0b0110#4) = .ok .knormDes := by decide

theorem test_decode_cbc :
    decode (fields 0#20 0b0000#4 0b0000#4 0b0011#4) = .ok .cbceAes ∧
    decode (fields 0#20 0b0000#4 0b0001#4 0b0011#4) = .ok .cbceDes ∧
    decode (fields 0#20 0b0000#4 0b0000#4 0b0100#4) = .ok .cbcdAes ∧
    decode (fields 0#20 0b0000#4 0b0001#4 0b0100#4) = .ok .cbcdDes ∧
    decode (fields 0#20 0b0000#4 0b0000#4 0b0111#4) = .ok .ivgenAes ∧
    decode (fields 0#20 0b0000#4 0b0001#4 0b0111#4) = .ok .ivgenDes ∧
    decode (fields 0#20 0b0101#4 0b0000#4 0b1000#4) = .ok (.padAes 5#4) ∧
    decode (fields 0#20 0b0111#4 0b0001#4 0b1000#4) = .ok (.padDes 7#4) ∧
    decode (fields 0#20 0b0000#4 0b0000#4 0b1001#4) = .ok .unpadAes ∧
    decode (fields 0#20 0b0000#4 0b0001#4 0b1001#4) = .ok .unpadDes := by decide

theorem test_decode_transcoder :
    decode (fields 0#20 0b0010#4 0b0000#4 0b1010#4) = .ok (.b64e 2#4) ∧
    decode (fields 0#20 0b0000#4 0b0000#4 0b1011#4) = .ok .b64d := by decide

/-- The errors of L2.9, one word at each edge of each check of R50. -/
theorem test_decode_errors :
    [0x00000000#32, 0x0000000C#32, 0x0000000F#32, 0x00001001#32, 0x80000001#32, 0x0000001A#32, 0x0000001B#32,
      0x000000F0#32, 0x00000101#32, 0x00000109#32, 0x00000117#32, 0x0000000A#32, 0x0000040A#32, 0x0000010B#32,
      0x00000818#32, 0x00000918#32].all (fun w => decide (decode w = .error .illegalCommand)) = true ∧
    [0x00000021#32, 0x000000F1#32, 0x00000F29#32].all
      (fun w => decide (decode w = .error .unknownAlgorithm)) = true := by decide

/-- The host's numbering of bits: the word itself, and nothing above bit 31. -/
theorem test_decodeTableWord :
    decodeTableWord 32 0x718 = some (.padDes 7#4) ∧ decodeTableWord 32 0x818 = none ∧
    decodeTableWord 40 0x100000001 = none := by decide

/-! ## The instructions (L2.5 to L2.8) -/

/-- BC1. -/
theorem test_encAes : completes 0x001#32
    { State.reset with key := 0x000102030405060708090a0b0c0d0e0f#128, keylen := 16#8,
                       din := 0x00112233445566778899aabbccddeeff#128 }
    (fun t => t.dout == 0x69c4e0d86a7b0430d8cdb78070b4c55a#128 && t.statusWord == 0x002#32) = true := by
  decide +kernel

/-- BC5. -/
theorem test_encAes_keylen : completes 0x001#32
    { State.reset with keylen := 17#8, din := 0x00112233445566778899aabbccddeeff#128 }
    (fun t => t.dout == 0#128 && t.statusWord == 0x012#32) = true := by decide +kernel

/-- BC6. -/
theorem test_encDes : completes 0x011#32
    { State.reset with key := 0x133457799bbcdff1aaaaaaaaaaaaaaaa#128, keylen := 8#8,
                       din := 0x0123456789abcdef5555555555555555#128, dout := BitVec.allOnes 128 }
    (fun t => t.dout == 0x85e813540f0ab4050000000000000000#128 && t.err == .none) = true := by decide +kernel

/-- BC10, then BC13: a command other than KSCHED clears the store. -/
theorem test_encDes_clears_store : completes 0x011#32
    { State.reset with keylen := 8#8, rk := .des [1#48] } (fun t => t.rk == .empty) = true := by decide +kernel

/-- BC2. -/
theorem test_decAes : completes 0x002#32
    { State.reset with key := 0x000102030405060708090a0b0c0d0e0f#128, keylen := 16#8,
                       din := 0x69c4e0d86a7b0430d8cdb78070b4c55a#128 }
    (fun t => t.dout == 0x00112233445566778899aabbccddeeff#128) = true := by decide +kernel

/-- BC7. -/
theorem test_decDes : completes 0x012#32
    { State.reset with key := 0x133457799bbcdff10000000000000000#128, keylen := 8#8,
                       din := 0x85e813540f0ab4050000000000000000#128 }
    (fun t => t.dout == 0x0123456789abcdef0000000000000000#128) = true := by decide +kernel

/-- BC9. -/
theorem test_kschedAes : completes 0x005#32
    { State.reset with key := 0x2b7e151628aed2a6abf7158809cf4f3c#128, keylen := 16#8, rksel := 40#6 }
    (fun t => t.rkdataWord == 0xD014F9A8#32 && t.statusWord == 0x102#32) = true := by decide +kernel

theorem test_kschedAes_end : completes 0x005#32
    { State.reset with key := 0x2b7e151628aed2a6abf7158809cf4f3c#128, keylen := 16#8, rksel := 44#6 }
    (fun t => t.rkdataWord == 0#32) = true := by decide +kernel

/-- BC10. -/
theorem test_kschedDes : completes 0x015#32
    { State.reset with key := 0x133457799bbcdff10000000000000000#128, keylen := 8#8, rksel := 2#6 }
    (fun t => t.rkdataWord == 0x0079AED9#32 && t.statusWord == 0x302#32) = true := by decide +kernel

theorem test_kschedDes_end : completes 0x015#32
    { State.reset with key := 0x133457799bbcdff10000000000000000#128, keylen := 8#8, rksel := 31#6 }
    (fun t => t.rkdataWord == 0x000E17F5#32) = true := by decide +kernel

/-- BC14. -/
theorem test_knormAes : completes 0x006#32
    { State.reset with key := 0x616263eeeeeeeeeeeeeeeeeeeeeeeeee#128, keylen := 3#8 }
    (fun t => t.key == 0x61626300000000000000000000000000#128 && t.keylen == 16#8) = true := by decide +kernel

/-- BC17. -/
theorem test_knormAes_empty : completes 0x006#32
    { State.reset with key := 0x00112233445566778899aabbccddeeff#128 }
    (fun t => t.key == 0x00112233445566778899aabbccddeeff#128 && t.keylen == 0#8 &&
      t.err == .keyLengthError) = true := by decide +kernel

/-- BC19. -/
theorem test_knormDes : completes 0x016#32
    { State.reset with key := 0x000102030405060708090a0b0c0d0e0f#128, keylen := 8#8 }
    (fun t => t.key == 0x00010203040506070000000000000000#128 && t.keylen == 8#8) = true := by decide +kernel

/-- BC20. -/
theorem test_knormDes_one : completes 0x016#32
    { State.reset with key := 0xabcdcdcdcdcdcdcdcdcdcdcdcdcdcdcd#128, keylen := 1#8 }
    (fun t => t.key == 0xab000000000000000000000000000000#128) = true := by decide +kernel

/-- CB1. -/
theorem test_cbceAes : completes 0x003#32
    { State.reset with key := 0x2b7e151628aed2a6abf7158809cf4f3c#128, keylen := 16#8,
                       din := 0x6bc1bee22e409f96e93d7e117393172a#128,
                       iv := 0x000102030405060708090a0b0c0d0e0f#128 }
    (fun t => t.dout == 0x7649abac8119b246cee98e9b12e9197d#128 && t.iv == t.dout) = true := by decide +kernel

/-- CB2. -/
theorem test_cbcdAes : completes 0x004#32
    { State.reset with key := 0x2b7e151628aed2a6abf7158809cf4f3c#128, keylen := 16#8,
                       din := 0x7649abac8119b246cee98e9b12e9197d#128,
                       iv := 0x000102030405060708090a0b0c0d0e0f#128 }
    (fun t => t.dout == 0x6bc1bee22e409f96e93d7e117393172a#128 && t.iv == t.din) = true := by decide +kernel

/-- CB3. -/
theorem test_cbceDes : completes 0x013#32
    { State.reset with key := 0x133457799bbcdff10000000000000000#128, keylen := 8#8,
                       din := 0x0123456789abcdef1111111111111111#128,
                       iv := 0x11111111111111112222222222222222#128 }
    (fun t => t.dout == 0x56e6bd45886b1dda0000000000000000#128 && t.iv == t.dout) = true := by decide +kernel

/-- CB4. -/
theorem test_cbcdDes : completes 0x014#32
    { State.reset with key := 0x133457799bbcdff10000000000000000#128, keylen := 8#8,
                       din := 0x2d6ba9e26b7b3e790000000000000000#128,
                       iv := 0x11111111111111110000000000000000#128 }
    (fun t => t.dout == 0x4a074eac3b67e96f0000000000000000#128 &&
      t.iv == 0x2d6ba9e26b7b3e790000000000000000#128) = true := by decide +kernel

/-- CB5: the entropy input answers, then the CORE completes. -/
theorem test_ivgenAes : nextIs (step (busyWith 0x007#32 [.entropy sampleEntropy]))
    (fun t => nextIs (step t) (fun u => u.iv == 0xa0a1a2a3a4a5a6a7a8a9aaabacadaeaf#128 &&
      u.statusWord == 0x002#32)) = true := by decide +kernel

/-- CB7: no answer. -/
theorem test_ivgenAes_waits : nextIs (step (busyWith 0x007#32 []))
    (fun t => t.statusWord == 0x001#32 && t == busyWith 0x007#32 []) = true := by decide +kernel

/-- CB6. -/
theorem test_ivgenDes : completes 0x017#32
    { State.reset with iv := BitVec.allOnes 128, entropy := sampleEntropy.take 8 }
    (fun t => t.iv == 0xa0a1a2a3a4a5a6a70000000000000000#128 && t.entropy == []) = true := by decide +kernel

/-- PD2. -/
theorem test_padAes : completes 0x508#32
    { State.reset with din := 0x4142434445eeeeeeeeeeeeeeeeeeeeee#128 }
    (fun t => t.din == 0x41424344450b0b0b0b0b0b0b0b0b0b0b#128) = true := by decide +kernel

/-- PD1. -/
theorem test_padAes_full : completes 0x008#32
    { State.reset with din := 0xeeeeeeeeeeeeeeeeeeeeeeeeeeeeeeee#128 }
    (fun t => t.din == 0x10101010101010101010101010101010#128) = true := by decide +kernel

/-- PD5. -/
theorem test_padDes : completes 0x718#32
    { State.reset with din := 0xeeeeeeeeeeeeeeeeeeeeeeeeeeeeeeee#128 }
    (fun t => t.din == 0xeeeeeeeeeeeeee010000000000000000#128) = true := by decide +kernel

/-- PD6. -/
theorem test_padDes_eight : completes 0x818#32
    { State.reset with din := 0xeeeeeeeeeeeeeeeeeeeeeeeeeeeeeeee#128 }
    (fun t => t.din == 0xeeeeeeeeeeeeeeeeeeeeeeeeeeeeeeee#128 && t.err == .illegalCommand) = true := by
  decide +kernel

/-- UP7. -/
theorem test_unpadAes : completes 0x009#32
    { State.reset with dout := 0x657374210c0c0c0c0c0c0c0c0c0c0c0c#128 }
    (fun t => t.result == 4#5 && t.err == .none) = true := by decide +kernel

/-- UP6. -/
theorem test_unpadAes_bad : completes 0x009#32
    { State.reset with dout := 0x41424344450b0b0b0b0b0b0b0b0b0a0b#128, result := 7#5 }
    (fun t => t.result == 7#5 && t.err == .paddingError) = true := by decide +kernel

/-- UP8. -/
theorem test_unpadDes : completes 0x019#32
    { State.reset with dout := 0x0808080808080808ffffffffffffffff#128, result := 7#5 }
    (fun t => t.result == 0#5 && t.err == .none) = true := by decide +kernel

/-- UP5. -/
theorem test_unpadDes_bad : completes 0x019#32
    { State.reset with dout := 0x09090909090909090000000000000000#128 }
    (fun t => t.err == .paddingError) = true := by decide +kernel

/-- TX6. -/
theorem test_b64e : completes 0x20A#32 { State.reset with din := 0xfbffaa00000000000000000000000000#128 }
    (fun t => t.dout == 0x2B2F383D000000000000000000000000#128) = true := by decide +kernel

/-- TX1. -/
theorem test_b64e_three : completes 0x30A#32 { State.reset with din := 0x4d616e00000000000000000000000000#128 }
    (fun t => t.dout == 0x54574675000000000000000000000000#128) = true := by decide +kernel

/-- TX16, the text `+/8=`. -/
theorem test_b64d : completes 0x00B#32 { State.reset with din := 0x2B2F383D000000000000000000000000#128 }
    (fun t => t.dout == 0xfbff0000000000000000000000000000#128 && t.result == 2#5) = true := by decide +kernel

/-- TX21, the text `TWF=`. -/
theorem test_b64d_unused_bits : completes 0x00B#32
    { State.reset with din := 0x5457463D000000000000000000000000#128 }
    (fun t => t.dout == 0#128 && t.err == .invalidEncodingError) = true := by decide +kernel

/-! ## Registers and bus (L2.10) -/

/-- BUS7: KEYLEN keeps 8 bits. -/
theorem test_bus_keylen : nextIs (step (idleWith [wr 0x10 0x123#32])) (fun t => t.keylen == 0x23#8) = true := by
  decide +kernel

/-- BUS10 to BUS12. -/
theorem test_bus_errors :
    [Event.host (.read 1 0x00), .host (.write 2 0x30 0#32), rd 0x02, rd 0x1C, rd 0x60, wr 0xFC 0#32].all
      (fun e => match step (idleWith [e]) with
        | .next _ => false
        | .fault .busError => true
        | .refused _ => false) = true := by decide

/-- Outside the window the access is not this hardware's (R32). -/
theorem test_bus_outside : (match step (idleWith [rd 0x100]) with
    | .next _ => false
    | .fault _ => false
    | .refused .outsideWindow => true
    | .refused (.notModelled _) => false) = true := by decide

/-- BUS13: a write that BUSY drops. -/
theorem test_bus_busy_write : nextIs (step (busyWith 0x001#32 [wr 0x30 0xDEADBEEF#32]))
    (fun t => t.din == 0#128 && t.werr) = true := by decide +kernel

/-- The round trace of L2.4: E(R0), and f(R0, K1) for the key 133457799bbcdff1. -/
theorem test_des_round : permute 48 tableE 0xf0aaf0aa#32 = 0x7a15557a1555#48 ∧
    desF 0xf0aaf0aa#32 0x1b02effc7072#48 = 0x234aa9bb#32 := by decide +kernel

/-- L2.1 and L1.8: a column mix and a row shift. -/
theorem test_aes_steps : getWord (mixColumns 0xf20a225c000000000000000000000000#128) 0 = 0x9fdc589d#32 ∧
    shiftRows 0x000102030405060708090a0b0c0d0e0f#128 = 0x00050a0f04090e03080d02070c01060b#128 := by
  decide +kernel

/-- A placed word is what the next step runs: PAD.AES 5. -/
theorem test_withFetchWord : nextIs (step (State.reset.withFetchWord 32 0x508))
    (fun t => t.done && t.din == 0x00000000000b0b0b0b0b0b0b0b0b0b0b#128) = true := by
  decide +kernel

/-! ## Witnesses: for each statement with hypotheses, states and operands that meet them, clause by clause, at
the boundary values of their ranges -/

/-- A state with a key length, and a command in flight. -/
def withKeylen (w : Word) (n : BitVec 8) : State := { busyWith w [] with keylen := n }

theorem witness_DecodeOfEncode : (Instr.padAes 15#4).wf = true ∧ (Instr.padDes 7#4).wf = true ∧
    (Instr.b64e 1#4).wf = true ∧ (Instr.b64e 3#4).wf = true := by decide

theorem witness_DecodedWordIsTheEncoding : decode 0x00000F08#32 = .ok (.padAes 15#4) ∧
    decode 0x0000000B#32 = .ok .b64d := by decide

/-- One word for each branch of the chain of checks. -/
theorem witness_FirstFailingDecodeCheckDecides :
    (0x00001001#32).extractLsb' 12 20 ≠ 0#20 ∧ (0xC#32).extractLsb' 0 4 = 0xC#4 ∧
    (0x29#32).extractLsb' 4 4 = 2#4 ∧ (0x1A#32).extractLsb' 4 4 = 1#4 ∧ (0x818#32).extractLsb' 8 4 = 8#4 ∧
    (0x40A#32).extractLsb' 8 4 = 4#4 ∧ (0x101#32).extractLsb' 8 4 = 1#4 ∧
    decode 0x30A#32 = .ok (.b64e 3#4) := by decide

theorem witness_StepRunsTheDecodedInstruction :
    (busyWith 0x1#32 []).phase = .busy ∧ decode (busyWith 0x1#32 []).cur = .ok .encAes ∧
    (busyWith 0x1#32 []).inputs = [] ∧ (busyWith 0x1#32 [.complete, rd 0]).inputs = .complete :: [rd 0] := by
  decide

theorem witness_CmdWriteAccepts :
    (idleWith [wr 0x08 1#32]).inputs = .host (.write 4 ((idleWith [wr 0x08 1#32]).base + 0x08) 1#32) :: [] ∧
    (idleWith [wr 0x08 1#32]).phase = .idle ∧ (busyWith 1#32 [wr 0x08 2#32]).phase = .busy ∧
    (busyWith 1#32 [wr 0x08 2#32]).inputs = .host (.write 4 ((busyWith 1#32 []).base + 0x08) 2#32) :: [] ∧
    [wr 0x5C 2#32, wr 0x40 2#32, rd 0x4C].all (fun e => nextIs (step (busyWith 1#32 [e])) (fun _ => true)) =
      true := by decide

theorem witness_KeyLengthCheckDecides :
    Instr.kschedAes ∈ [Instr.encAes, .decAes, .cbceAes, .cbcdAes, .kschedAes] ∧
    (withKeylen 5#32 16#8).keylen = 16#8 ∧ (withKeylen 5#32 15#8).keylen ≠ 16#8 ∧
    (withKeylen 5#32 17#8).keylen ≠ 16#8 ∧ (withKeylen 0x15#32 8#8).keylen = 8#8 ∧
    (withKeylen 0x15#32 9#8).keylen ≠ 8#8 ∧ (withKeylen 6#32 1#8).keylen ≠ 0#8 ∧
    (withKeylen 6#32 0#8).keylen = 0#8 ∧
    Instr.unpadAes ∉ [Instr.encAes, .decAes, .cbceAes, .cbcdAes, .kschedAes, .encDes, .decDes, .cbceDes,
      .cbcdDes, .kschedDes, .knormAes, .knormDes] ∧ (busyWith 9#32 []).err ≠ .keyLengthError := by decide

/-- A decode error, a failed key-length check, a data error and a command without error all complete. -/
theorem witness_FirstErrorIsReported :
    [busyWith 0xC#32 [], withKeylen 0x1#32 15#8, busyWith 0x9#32 [], withKeylen 0x6#32 1#8].all (fun s =>
      s.phase == .busy && s.inputs == [] && nextIs (step s) (fun t => t.phase == .idle) &&
        nextIs (step { s with inputs := [.complete] }) (fun t => t.phase == .idle)) = true := by
  decide +kernel

theorem witness_ErrorsArePrecise :
    (busyWith 0x9#32 []).phase = .busy ∧ (busyWith 0x9#32 []).inputs = [] ∧
    (busyWith 0x9#32 [.complete, rd 0]).inputs = .complete :: [rd 0] ∧
    nextIs (step (busyWith 0x9#32 [])) (fun t => t.phase == .idle && t.err != .none) = true ∧
    nextIs (step (busyWith 0x9#32 [.complete, rd 0])) (fun t => t.phase == .idle && t.err != .none) = true := by
  decide +kernel

/-- A reported error that an accept clears, one that a reset clears, and an error to repeat. -/
theorem witness_ErrorStaysAndRepeats :
    nextIs (step { idleWith [wr 0x08 1#32] with err := .paddingError, done := true })
      (fun t => t.err != .paddingError) = true ∧
    nextIs (step { idleWith [.reset none] with err := .paddingError, done := true })
      (fun t => t.err != .paddingError) = true ∧
    nextIs (step (busyWith 0xB#32 [])) (fun t => t.phase == .idle && t.err != .none) = true := by decide +kernel

theorem witness_CommandInFlightCompletes :
    (decode 0x7#32 = .ok .ivgenAes ∧ 16 ≤ sampleEntropy.length) ∧
    (decode 0x17#32 = .ok .ivgenDes ∧ 8 ≤ (sampleEntropy.take 8).length) ∧
    (busyWith 0xF08#32 []).phase = .busy ∧ (busyWith 0xF08#32 []).inputs = [] ∧
    decode (busyWith 0xF08#32 []).cur = .ok (.padAes 15#4) := by decide

/-- An IVGEN one byte short of its draw, with a schedule of accesses and completions that five steps outrun,
and one of completions alone. -/
theorem witness_UnansweredIvgenHangs :
    (let s := { busyWith 0x7#32 [wr 0x08 1#32, .complete, rd 0x04] with entropy := sampleEntropy.take 15 }
     s.phase = .busy ∧ decode s.cur = .ok .ivgenAes ∧ s.entropy.length < 16 ∧
       (∀ e ∈ s.inputs, e = wr 0x08 1#32 ∨ e = .complete ∨ e = rd 0x04) ∧
       nextIs (Sys2Proof.core.run 5 s) (fun t => t.busy && t.werr) = true) ∧
    (let s := { busyWith 0x17#32 [.complete, .complete] with entropy := sampleEntropy.take 7 }
     s.phase = .busy ∧ decode s.cur = .ok .ivgenDes ∧ s.entropy.length < 8 ∧
       ∀ e ∈ s.inputs, e = .complete) := by decide +kernel

/-- Writes to CTRL and STATUS while BUSY, and dropped ones at the ends of each range of offsets. -/
theorem witness_CommandInFlightIsInvisible :
    nextIs (step (busyWith 1#32 [wr 0x00 3#32])) (fun t => t.phase == .busy && t.ieDone) = true ∧
    nextIs (step { busyWith 1#32 [wr 0x04 6#32] with done := true, werr := true })
      (fun t => t.phase == .busy && !t.done && !t.werr) = true ∧
    [0x08, 0x10, 0x14, 0x20, 0x3C, 0x50, 0x5C].all (fun off =>
      nextIs (step (busyWith 1#32 [wr off 3#32])) (fun t => t.phase == .busy && t.werr)) = true := by decide

theorem witness_ResetClearsTheMachine :
    (busyWith 1#32 [.reset (some (.write 4 0 3#32))]).inputs = .reset (some (.write 4 0 3#32)) :: [] ∧
    (idleWith [.entropy sampleEntropy]).phase = .idle ∧
    (idleWith [.entropy sampleEntropy]).inputs = .entropy sampleEntropy :: [] := by decide

/-- The four ways `irq` falls, each from a state that asserts it. -/
theorem witness_InterruptLineFollowsStatus :
    [wr 0x04 2#32, wr 0x08 1#32, wr 0x00 0#32, .reset none].all (fun e =>
      let s := { idleWith [e] with ieDone := true, done := true }
      s.irq && s.phase == .idle && nextIs (step s) (fun t => !t.irq)) = true ∧
    (2#32).getLsbD 1 = true ∧ (0#32).getLsbD 0 = false ∧ (0#32).getLsbD 1 = false := by decide +kernel

theorem witness_CtrlHoldsTheInterruptEnables :
    (idleWith [wr 0x00 3#32]).inputs = .host (.write 4 (idleWith []).base 3#32) :: [] ∧
    (idleWith [rd 0x00]).inputs = .host (.read 4 (idleWith []).base) :: [] ∧
    (let s := { idleWith [] with ieDone := true, ieErr := true, done := true, err := .paddingError }
     s.ieDone = true ∧ s.ieErr = true ∧ s.done = true ∧ s.err ≠ .none) := by decide

theorem witness_StatusReadsAndClears :
    (busyWith 1#32 [rd 0x04]).inputs = .host (.read 4 ((busyWith 1#32 []).base + 0x04)) :: [] ∧
    (busyWith 1#32 [wr 0x04 6#32]).inputs = .host (.write 4 ((busyWith 1#32 []).base + 0x04) 6#32) :: [] := by
  decide

theorem witness_RkselHoldsTheReadbackIndex :
    (idleWith [wr 0x14 0x7F#32]).inputs = .host (.write 4 ((idleWith []).base + 0x14) 0x7F#32) :: [] ∧
    (idleWith [wr 0x14 0x7F#32]).phase = .idle ∧
    (idleWith [rd 0x14]).inputs = .host (.read 4 ((idleWith []).base + 0x14)) :: [] ∧
    nextIs (exec .b64d State.reset) (fun _ => true) = true := by decide

theorem witness_KeylenResultAndCmdRegisters :
    (idleWith [wr 0x10 0x123#32]).inputs = .host (.write 4 ((idleWith []).base + 0x10) 0x123#32) :: [] ∧
    (idleWith [wr 0x10 0x123#32]).phase = .idle ∧
    [0x10, 0x0C, 0x08].all (fun off => decide
      ((idleWith [rd off]).inputs = .host (.read 4 ((idleWith []).base + off)) :: [])) = true ∧
    (idleWith [wr 0x0C 0x1F#32]).inputs = .host (.write 4 ((idleWith []).base + 0x0C) 0x1F#32) :: [] := by decide

/-- RKDATA is read with the store empty, and with RKSEL at the last word and past it for each algorithm. -/
theorem witness_RkdataReadsTheStore :
    (idleWith [rd 0x18]).inputs = .host (.read 4 ((idleWith []).base + 0x18)) :: [] ∧
    (idleWith [rd 0x18]).phase = .idle ∧ (idleWith [rd 0x18]).rk = .empty ∧
    (let s := { idleWith [rd 0x18] with rk := .aes (List.replicate 44 1#32), rksel := 43#6 }
     s.rk = .aes (List.replicate 44 1#32) ∧ s.rksel.toNat < 44 ∧ 44 ≤ (44#6).toNat) ∧
    (let s := { idleWith [rd 0x18] with rk := .des (List.replicate 16 1#48), rksel := 31#6 }
     s.rk = .des (List.replicate 16 1#48) ∧ s.rksel.toNat < 32 ∧ 32 ≤ (32#6).toNat) ∧
    (idleWith [wr 0x18 1#32]).inputs = .host (.write 4 ((idleWith []).base + 0x18) 1#32) :: [] := by decide

/-- An error, KSCHED of each algorithm and another command complete; KSCHED changes the store to a schedule. -/
theorem witness_RkStoreIsWrittenByKsched :
    nextIs (exec .unpadAes (busyWith 9#32 [])) (fun t => t.phase == .idle && t.err != .none) = true ∧
    nextIs (exec (.padAes 0#4) (busyWith 8#32 [])) (fun t => t.phase == .idle && t.err == .none) = true ∧
    nextIs (step (withKeylen 5#32 16#8)) (fun t => t.rk != .empty && t.rk != State.reset.rk) = true ∧
    nextIs (step (withKeylen 0x15#32 8#8)) (fun t => t.rk != .empty && t.rk != State.reset.rk) = true := by
  decide +kernel

/-- An access at each edge of the map: the last mapped word, the hole, the first word past the map, the last
of the window, a misaligned one and a narrow one. -/
theorem witness_BusErrorsFault :
    [0x5C, 0x1C, 0x60, 0xFC, 0x02].all (fun off => decide
      ((idleWith [rd off]).inputs = .host (.read 4 off) :: [] ∧ off < 0x100 ∧
        (Access.read 4 off).addr = (idleWith [rd off]).base + off)) = true ∧
    (Access.read 2 0x20).size ≠ 4 ∧ (Access.read 4 0x5C).size = 4 := by decide

theorem witness_OperandWordsArePackedBigEndian :
    (Operand.iv, 0x50) ∈ [(Operand.key, 0x20), (.din, 0x30), (.dout, 0x40), (.iv, 0x50)] ∧
    (idleWith [rd 0x5C]).inputs = .host (.read 4 ((idleWith []).base + (0x50 + 4 * 3))) :: [] ∧
    (idleWith [rd 0x5C]).phase = .idle ∧
    (idleWith [wr 0x20 1#32]).inputs = .host (.write 4 ((idleWith []).base + (0x20 + 4 * 0)) 1#32) :: [] := by
  decide

theorem witness_ReadsWhileBusy :
    (busyWith 1#32 [rd 0x04]).phase = .busy ∧
    (busyWith 1#32 [rd 0x04]).inputs = .host (.read 4 ((busyWith 1#32 []).base + 0x04)) :: [] ∧
    (let s := busyWith 1#32 [rd 0x04]
     (0x04, s.statusWord) ∈ [(0x00, s.ctrlWord), (0x04, s.statusWord), (0x08, 0#32),
      (0x0C, s.result.setWidth 32), (0x10, s.keylen.setWidth 32), (0x14, s.rksel.setWidth 32)]) ∧
    (busyWith 1#32 [rd 0x18]).inputs = .host (.read 4 ((busyWith 1#32 []).base + 0x18)) :: [] ∧
    [0x20, 0x5C].all (fun off => decide (0x20 ≤ off ∧ off < 0x60 ∧ off % 4 = 0)) = true := by decide

theorem witness_WritesWhileBusy :
    [0x00, 0x04, 0x08, 0x10, 0x14, 0x20, 0x3C, 0x50, 0x5C, 0x0C, 0x18, 0x40, 0x4C].all (fun off => decide
      ((busyWith 1#32 [wr off 1#32]).inputs =
        .host (.write 4 ((busyWith 1#32 []).base + off) 1#32) :: [] ∧ off % 4 = 0)) = true ∧
    (busyWith 1#32 []).phase = .busy ∧
    nextIs (step { busyWith 1#32 [wr 0x04 4#32] with werr := true }) (fun t => !t.werr) = true ∧
    nextIs (step { idleWith [.reset none] with werr := true }) (fun t => !t.werr) = true := by decide +kernel

theorem witness_ReadsHaveNoSideEffect :
    (idleWith [rd 0x5C, rd 0x5C]).inputs = .host (.read 4 0x5C) :: .host (.read 4 0x5C) :: [] ∧
    (idleWith [rd 0x5C, rd 0x5C]).phase = .idle ∧
    nextIs (step (idleWith [rd 0x5C, rd 0x5C])) (fun t => nextIs (step t) (fun _ => true)) = true := by decide

theorem witness_EachRegisterHasItsWriters :
    nextIs (exec .knormDes (withKeylen 0x16#32 1#8)) (fun t => t.keylen != 1#8) = true ∧
    nextIs (exec (.padDes 7#4) State.reset) (fun t => t.din != State.reset.din) = true := by decide +kernel

theorem witness_EncryptCommands :
    (withKeylen 1#32 16#8).keylen = 16#8 ∧ (withKeylen 1#32 17#8).keylen ≠ 16#8 ∧
    (withKeylen 0x11#32 8#8).keylen = 8#8 ∧ (withKeylen 0x11#32 16#8).keylen ≠ 8#8 := by decide

theorem witness_DecryptCommands :
    (withKeylen 2#32 16#8).keylen = 16#8 ∧ (withKeylen 2#32 15#8).keylen ≠ 16#8 ∧
    (withKeylen 0x12#32 8#8).keylen = 8#8 ∧ (withKeylen 0x12#32 7#8).keylen ≠ 8#8 := by decide

theorem witness_KeyScheduleCommands :
    (withKeylen 5#32 16#8).keylen = 16#8 ∧ (withKeylen 5#32 0#8).keylen ≠ 16#8 ∧
    nextIs (exec .kschedAes (withKeylen 5#32 16#8)) (fun _ => true) = true ∧
    (let s := { withKeylen 0x15#32 8#8 with key := 0x133457799bbcdff10000000000000000#128, rksel := 31#6 }
     s.keylen = 8#8 ∧ s.key.extractLsb' 64 64 = 0x133457799bbcdff1#64 ∧ s.rksel = 31#6 ∧
       nextIs (exec .kschedDes s) (fun _ => true) = true) ∧
    (withKeylen 0x15#32 16#8).keylen ≠ 8#8 ∧ 32 ≤ (32#6).toNat ∧ (31#6).toNat < 32 ∧
    nextIs (exec .kschedDes { withKeylen 0x15#32 8#8 with rksel := 2#6 }) (fun t => t.rkv) = true := by
  decide +kernel

theorem witness_KeyNormalisationCommands :
    (withKeylen 6#32 1#8).keylen ≠ 0#8 ∧ (withKeylen 6#32 0#8).keylen = 0#8 ∧
    16#8 ≤ (withKeylen 6#32 16#8).keylen ∧ 8#8 ≤ (withKeylen 0x16#32 8#8).keylen ∧
    (let s := { withKeylen 6#32 3#8 with key := 0x616263eeeeeeeeeeeeeeeeeeeeeeeeee#128 }
     s.keylen = 3#8 ∧ s.key.extractLsb' 104 24 = 0x616263#24 ∧
       nextIs (exec .knormAes s) (fun _ => true) = true) ∧
    nextIs (exec .knormDes (withKeylen 0x16#32 8#8)) (fun _ => true) = true := by decide +kernel

theorem witness_ChainedEncryptCommands :
    (withKeylen 3#32 16#8).keylen = 16#8 ∧ (withKeylen 3#32 8#8).keylen ≠ 16#8 ∧
    (withKeylen 0x13#32 8#8).keylen = 8#8 ∧ (withKeylen 0x13#32 16#8).keylen ≠ 8#8 ∧
    (withKeylen 3#32 16#8).iv = 0#128 ∧ nextIs (exec .cbceAes (withKeylen 3#32 16#8)) (fun _ => true) = true ∧
    nextIs (exec .encAes (withKeylen 3#32 16#8)) (fun _ => true) = true := by decide +kernel

theorem witness_ChainedDecryptCommands :
    (withKeylen 4#32 16#8).keylen = 16#8 ∧ (withKeylen 4#32 8#8).keylen ≠ 16#8 ∧
    (withKeylen 0x14#32 8#8).keylen = 8#8 ∧ (withKeylen 0x14#32 16#8).keylen ≠ 8#8 ∧
    (withKeylen 4#32 16#8).iv = 0#128 ∧ nextIs (exec .cbcdAes (withKeylen 4#32 16#8)) (fun _ => true) = true ∧
    nextIs (exec .decAes (withKeylen 4#32 16#8)) (fun _ => true) = true := by decide +kernel

theorem witness_IvGenerationCommands :
    16 ≤ { busyWith 7#32 [] with entropy := sampleEntropy }.entropy.length ∧
    { busyWith 7#32 [] with entropy := sampleEntropy.take 15 }.entropy.length < 16 ∧
    8 ≤ { busyWith 0x17#32 [] with entropy := sampleEntropy.take 8 }.entropy.length ∧
    { busyWith 0x17#32 [] with entropy := sampleEntropy.take 7 }.entropy.length < 8 := by decide

/-- Its clauses on deliveries: to each IVGEN and to another command, and a draw answered in two parts, the
first one byte short and the second with bytes to spare. -/
theorem witness_IvGenerationCommands_deliveries :
    ([0x07#32, 0x17#32, 0x01#32].all fun w =>
      let s := busyWith w [.entropy sampleEntropy, rd 0x04]
      s.phase == .busy && s.inputs == [.entropy sampleEntropy, rd 0x04]) = true ∧
    decode 0x07#32 = .ok .ivgenAes ∧ decode 0x17#32 = .ok .ivgenDes ∧
    decode 0x01#32 ≠ .ok .ivgenAes ∧ decode 0x01#32 ≠ .ok .ivgenDes ∧
    (let parts := [sampleEntropy.take 15, sampleEntropy]
     let s := busyWith 0x07#32 (parts.map .entropy)
     s.phase = .busy ∧ s.entropy = [] ∧ s.inputs = parts.map .entropy ∧ 16 ≤ parts.flatten.length) ∧
    (let parts := [sampleEntropy.take 7, sampleEntropy]
     let s := busyWith 0x17#32 (parts.map .entropy)
     s.phase = .busy ∧ s.entropy = [] ∧ s.inputs = parts.map .entropy ∧ 8 ≤ parts.flatten.length) := by
  decide +kernel

theorem witness_PadCommands : (0#4).toNat < 8 ∧ (7#4).toNat < 8 ∧ ¬(8#4).toNat < 8 := by decide

/-- Valid padding of one byte and of a whole block, and the three failures. -/
theorem witness_UnpadCommands :
    (messageLength 16 0xeeeeeeeeeeeeeeeeeeeeeeeeeeeeee01#128 = some 15 ∧
      messageLength 16 0x10101010101010101010101010101010#128 = some 0) ∧
    (getByte 0xeeeeeeeeeeeeeeeeeeeeeeeeeeeeee00#128 15).toNat = 0 ∧
    ¬(getByte 0x11111111111111111111111111111111#128 15).toNat ≤ 16 ∧
    getByte 0x41424344450b0b0b0b0b0b0b0b0b0a0b#128 14 ≠ getByte 0x41424344450b0b0b0b0b0b0b0b0b0a0b#128 15 ∧
    messageLength 8 0xaaaaaaaaaaaaaa010000000000000000#128 = some 7 ∧
    (getByte 0x09090909090909090000000000000000#128 7).toNat = 9 := by decide +kernel

theorem witness_Base64EncodeCommand :
    (1 ≤ (1#4).toNat ∧ (1#4).toNat ≤ 3) ∧ (1 ≤ (3#4).toNat ∧ (3#4).toNat ≤ 3) ∧
    { State.reset with din := 0x4d616e00000000000000000000000000#128 }.din.extractLsb' 104 24 = 0x4d616e#24 ∧
    [1#4, 2#4, 3#4].all (fun n => nextIs (exec (.b64e n) State.reset) (fun _ => true)) = true := by
  decide +kernel

/-- Groups that decode to 3, 2 and 1 bytes, and one group for each way to be bad: TX20, TX22, TX17, TX24, a bad
character in position 2, TX21 and TX19. -/
theorem witness_Base64DecodeCommand :
    [0x54574675#32, 0x5457453D#32, 0x54513D3D#32].all (fun w =>
      (b64Decode (wordByte w 0) (wordByte w 1) (wordByte w 2) (wordByte w 3)).isSome) = true ∧
    [0x3D414141#32, 0x413D3D3D#32, 0x54513D41#32, 0x4142432D#32, 0x41422041#32, 0x5457463D#32,
      0x54523D3D#32].all (fun w =>
        (b64Decode (wordByte w 0) (wordByte w 1) (wordByte w 2) (wordByte w 3)).isNone) = true := by
  decide +kernel

/-! The statements about the pure functions of the two ciphers have only the ranges of their indices, and a
byte or a bit that is not 0, as hypotheses: the first and the last index, for each. -/

theorem witness_FieldMultiplication : (0x80#8).getLsbD 7 = true ∧ (0x7F#8).getLsbD 7 = false := by decide

theorem witness_SubstitutionTables : 0x01#8 ≠ 0#8 ∧ 0xFF#8 ≠ 0#8 ∧ 0 < 8 ∧ 7 < 8 := by decide

theorem witness_RoundStepsByEntry : (0 < 4 ∧ 3 < 4) ∧
    cell 0x00000000000000000000000000000001#128 3 3 = 0x01#8 := by decide

theorem witness_InverseStepsUndo : (0 < 4 ∧ 3 < 4) ∧
    cell 0x01000000000000000000000000000000#128 0 0 = 0x01#8 := by decide

theorem witness_AesKeyScheduleRecurrence : (0 < 4 ∧ 3 < 4) ∧ (4 ≤ 4 ∧ 4 < 44 ∧ 4 % 4 = 0) ∧
    (4 ≤ 43 ∧ 43 < 44 ∧ 43 % 4 ≠ 0) ∧ (1 ≤ 9 ∧ 9 < 10) := by decide

theorem witness_AesEncryptRounds : (1 ≤ 1 ∧ 1 ≤ 9) ∧ (1 ≤ 9 ∧ 9 ≤ 9) := by decide

theorem witness_AesDecryptUndoesEncrypt : (1 ≤ 1 ∧ 1 ≤ 9) ∧ (1 ≤ 9 ∧ 9 ≤ 9) := by decide

theorem witness_DesBitsAreMostSignificantFirst : (0 < 8 ∧ 7 < 8) ∧ desBit 0x8000000000000001#64 1 = true ∧
    desBit 0x8000000000000001#64 64 = true := by decide

theorem witness_FinalPermutationUndoesInitial : (1 ≤ 1 ∧ 1 ≤ 64) ∧ (1 ≤ 64 ∧ 64 ≤ 64) ∧
    tableIP.getD 63 0 = 7 := by decide

theorem witness_DesKeyScheduleRounds : (1 ≤ 28 ∧ 28 ≤ 28) ∧ (1 ≤ 48 ∧ 48 ≤ 48) ∧ 15 < 16 ∧
    shifts.getD 15 0 = 1 := by decide

theorem witness_DesRoundFunction : (1 ≤ 8 ∧ 8 ≤ 8) ∧ (1 ≤ 6 ∧ 6 ≤ 6) ∧ (1 ≤ 4 ∧ 4 ≤ 4) ∧
    (1 ≤ 32 ∧ 32 ≤ 32) := by decide

theorem witness_DesEncryptRounds : 0 < 16 ∧ 15 < 16 := by decide

theorem witness_DesDecryptUndoesEncrypt : 0 < 16 ∧ 15 < 16 := by decide

theorem witness_DesLaws : 0 < 8 ∧ 7 < 8 := by decide

theorem witness_DesCommandsUseLowBytes :
    (Instr.unpadDes ∈ [Instr.encDes, .decDes, .cbceDes, .cbcdDes, .kschedDes, .knormDes, .ivgenDes, .unpadDes]) ∧
    nextIs (exec .encDes { withKeylen 0x11#32 8#8 with dout := BitVec.allOnes 128 })
      (fun t => t.dout != BitVec.allOnes 128) = true ∧
    nextIs (exec .knormDes { withKeylen 0x16#32 8#8 with key := BitVec.allOnes 128 })
      (fun t => t.key != BitVec.allOnes 128) = true ∧
    nextIs (exec (.padDes 0#4) State.reset) (fun t => t.din != 0#128) = true ∧
    nextIs (exec .cbceDes (withKeylen 0x13#32 8#8)) (fun t => t.iv != 0#128) = true := by decide +kernel

theorem witness_ChainedDecryptUndoesEncrypt :
    (withKeylen 3#32 16#8).keylen = 16#8 ∧ nextIs (exec .cbceAes (withKeylen 3#32 16#8)) (fun _ => true) = true ∧
    (withKeylen 0x13#32 8#8).keylen = 8#8 ∧
    nextIs (exec .cbceDes (withKeylen 0x13#32 8#8)) (fun _ => true) = true := by decide +kernel

theorem witness_UnpadUndoesPad :
    nextIs (exec (.padAes 15#4) State.reset) (fun _ => true) = true ∧ (7#4).toNat < 8 ∧
    nextIs (exec (.padDes 7#4) State.reset) (fun _ => true) = true := by decide +kernel

theorem witness_Base64AlphabetIsStandard :
    (25#6).toNat ≤ 25 ∧ (26 ≤ (26#6).toNat ∧ (51#6).toNat ≤ 51) ∧ (52 ≤ (52#6).toNat ∧ (61#6).toNat ≤ 61) ∧
    (62#6).toNat = 62 ∧ (63#6).toNat = 63 ∧ b64Index 0x5A#8 = some 25#6 := by decide

theorem witness_Base64DecodeUndoesEncode :
    nextIs (exec (.b64e 1#4) State.reset) (fun _ => true) = true ∧
    nextIs (exec (.b64e 3#4) State.reset) (fun _ => true) = true ∧
    nextIs (exec .b64d { State.reset with din := 0x54513D3D000000000000000000000000#128 })
      (fun t => t.err == .none) = true := by decide +kernel

theorem witness_Wr128WritesTheOperand :
    (idleWith (lineWr128 0 .key (BitVec.allOnes 128))).phase = .idle ∧
    [Operand.key, .din, .iv].all (fun x => decide
      ((idleWith (lineWr128 0 x (BitVec.allOnes 128))).inputs =
        lineWr128 (idleWith []).base x (BitVec.allOnes 128))) = true := by decide

/-- The invariant, of a state with an IVGEN in flight whose draw is answered, and its next step. -/
theorem witness_EveryStepKeepsInv : { busyWith 7#32 [] with entropy := sampleEntropy, result := 15#5 }.Inv ∧
    nextIs (step { busyWith 7#32 [] with entropy := sampleEntropy, result := 15#5 }) (fun _ => true) = true :=
  ⟨⟨by decide, by decide, trivial, by decide⟩, by decide +kernel⟩

end Sys2Proof.Tests
end

section
/-! The permutation tables of the DES-like core: when one table undoes another (R9), and that FP undoes IP
(R68, R69). -/

namespace Sys2Proof.Proofs.DesPermutation

open Sys2Proof.Machine

/-- Table `u` undoes table `t` on `n` bits: the entry of `u` at bit `k` is the number of a bit, and `t` takes
that bit from bit `k` (R9). -/
def UndoesTable (n : Nat) (u t : List Nat) : Prop :=
  ∀ i < n, 1 ≤ u.getD i 0 ∧ u.getD i 0 ≤ n ∧ t.getD (u.getD i 0 - 1) 0 = i + 1

/-- A table that undoes another as a table undoes it as a permutation, for every value (R9). -/
theorem permute_permute_of_undoesTable {n : Nat} {u t : List Nat} (hu : u.length = n) (ht : t.length = n)
    (h : UndoesTable n u t) (v : BitVec n) : permute n u (permute n t v) = v := by
  apply desBit_ext
  intro k h1 h2
  obtain ⟨hlow, hhigh, hback⟩ := h (k - 1) (by omega)
  calc desBit (permute n u (permute n t v)) k
      = desBit (permute n t v) (u.getD (k - 1) 0) := desBit_permute n u _ k hu h1 h2
    _ = desBit v (t.getD (u.getD (k - 1) 0 - 1) 0) := desBit_permute n t v _ ht hlow hhigh
    _ = desBit v k := by rw [hback, Nat.sub_add_cancel h1]

/-- Each of the 64 entries of FP names the place where IP puts that bit (R68, R69). -/
theorem tableFP_undoes_tableIP : UndoesTable 64 tableFP tableIP := by
  unfold UndoesTable
  decide

/-- Settles O47: the bits by the rule of a permutation table, and the round trip because FP undoes IP as a
table. -/
theorem finalPermutationUndoesInitial : Obligations.FinalPermutationUndoesInitial := by
  unfold Obligations.FinalPermutationUndoesInitial
  constructor
  · intro v k h1 h2
    exact ⟨desBit_permute 64 tableIP v k rfl h1 h2, desBit_permute 64 tableFP v k rfl h1 h2⟩
  · exact permute_permute_of_undoesTable rfl rfl tableFP_undoes_tableIP

end Sys2Proof.Proofs.DesPermutation
end

section
/-! What the completion of each instruction can do to the machine (R84, R99, R117), as one relation with a rule
for each set of registers that a completion writes. -/

namespace Sys2Proof.Proofs.Completion

open Sys2Proof.Machine

/-- The ways a completion of the instruction `i` can take `s` to a next state. The values that are written stand
as variables; only what a statement about the registers needs of them is said. -/
inductive Completes : Instr → State → State → Prop where
  /-- An IVGEN whose draw is not answered (R99, R133). -/
  | waits {i : Instr} {s : State} (hlen : s.entropy.length < entropyBytes i) : Completes i s s
  /-- A command error; IVGEN has none (R117). -/
  | fails {i : Instr} {s : State} {e : ErrCode} (he : e ≠ .none) (hdraw : entropyBytes i = 0) :
      Completes i s (s.raise e)
  /-- ENC and DEC (R87 to R90). -/
  | ciphers {i : Instr} {s : State} (hi : i ∈ [Instr.encAes, .encDes, .decAes, .decDes]) (c : Block) :
      Completes i s (State.finish { s with dout := c })
  /-- CBCE and CBCD (R95 to R98). -/
  | chains {i : Instr} {s : State} (hi : i ∈ [Instr.cbceAes, .cbceDes, .cbcdAes, .cbcdDes]) (c v : Block) :
      Completes i s (State.finish { s with dout := c, iv := v })
  /-- KSCHED.AES (R91). -/
  | schedulesAes {s : State} :
      Completes .kschedAes s (State.finishKeepingStore { s with rk := .aes (aesKeyExpand s.key) })
  /-- KSCHED.DES (R92). -/
  | schedulesDes {s : State} :
      Completes .kschedDes s (State.finishKeepingStore { s with rk := .des (desKeySchedule s.key64) })
  /-- KNORM (R93, R94). -/
  | normalises {i : Instr} {s : State} (hi : i ∈ [Instr.knormAes, .knormDes]) (k : Block) (l : BitVec 8) :
      Completes i s (State.finish { s with key := k, keylen := l })
  /-- IVGEN whose draw is answered (R99, R100). -/
  | draws {i : Instr} {s : State} (hi : i ∈ [Instr.ivgenAes, .ivgenDes]) (v : Block) :
      Completes i s (State.finish { s with iv := v, entropy := [] })
  /-- PAD.AES (R102). -/
  | padsAes {n : BitVec 4} {s : State} (d : Block) : Completes (.padAes n) s (State.finish { s with din := d })
  /-- PAD.DES (R103). -/
  | padsDes {n : BitVec 4} {s : State} (d : Block) : Completes (.padDes n) s (State.finish { s with din := d })
  /-- UNPAD (R104, R105). -/
  | unpads {i : Instr} {s : State} (hi : i ∈ [Instr.unpadAes, .unpadDes]) {len : Nat} (hlen : len ≤ 15) :
      Completes i s (State.finish { s with result := BitVec.ofNat 5 len })
  /-- B64E (R111). -/
  | encodes {n : BitVec 4} {s : State} (c : Block) : Completes (.b64e n) s (State.finish { s with dout := c })
  /-- B64D (R112). -/
  | decodes {s : State} {len : Nat} (hlen : len ≤ 15) (c : Block) :
      Completes .b64d s (State.finish { s with dout := c, result := BitVec.ofNat 5 len })

/-- A command with the key-length check completes as its body does, or fails (R85). -/
theorem completes_of_withKeyLength {i : Instr} {a : Alg} {s b t : State} (h : withKeyLength a s b = .next t)
    (hdraw : entropyBytes i = 0) (hb : Completes i s b) : Completes i s t := by
  rcases withKeyLength_next h with ⟨_, rfl⟩ | ⟨_, rfl⟩
  · exact hb
  · exact .fails (by decide) hdraw

/-- KNORM completes as its body does, or fails (R85). -/
theorem completes_of_withKeyMaterial {i : Instr} {s b t : State} (h : withKeyMaterial s b = .next t)
    (hdraw : entropyBytes i = 0) (hb : Completes i s b) : Completes i s t := by
  rcases withKeyMaterial_next h with ⟨_, rfl⟩ | ⟨_, rfl⟩
  · exact hb
  · exact .fails (by decide) hdraw

/-- A decoded base64 group has at most 3 bytes (R112). -/
theorem b64Decode_length_le {c0 c1 c2 c3 : Byte} {len : Nat} {x : Block}
    (h : b64Decode c0 c1 c2 c3 = some (len, x)) : len ≤ 3 := by
  simp only [b64Decode] at h
  split at h
  · split_ifs at h <;> cases h <;> omega
  · cases h

/-- Every completion is one of these, instruction by instruction (R84). -/
theorem completes_of_exec {i : Instr} {s t : State} (h : exec i s = .next t) : Completes i s t := by
  cases i with
  | encAes => exact completes_of_withKeyLength h rfl (.ciphers (by decide) _)
  | encDes => exact completes_of_withKeyLength h rfl (.ciphers (by decide) _)
  | decAes => exact completes_of_withKeyLength h rfl (.ciphers (by decide) _)
  | decDes => exact completes_of_withKeyLength h rfl (.ciphers (by decide) _)
  | cbceAes => exact completes_of_withKeyLength h rfl (.chains (by decide) _ _)
  | cbceDes => exact completes_of_withKeyLength h rfl (.chains (by decide) _ _)
  | cbcdAes => exact completes_of_withKeyLength h rfl (.chains (by decide) _ _)
  | cbcdDes => exact completes_of_withKeyLength h rfl (.chains (by decide) _ _)
  | kschedAes => exact completes_of_withKeyLength h rfl .schedulesAes
  | kschedDes => exact completes_of_withKeyLength h rfl .schedulesDes
  | knormAes => exact completes_of_withKeyMaterial h rfl (.normalises (by decide) _ _)
  | knormDes => exact completes_of_withKeyMaterial h rfl (.normalises (by decide) _ _)
  | ivgenAes =>
    simp only [exec, execIvgenAes] at h
    split at h <;> cases h
    · exact .draws (by decide) _
    · exact .waits (draw_eq_none.mp ‹_›)
  | ivgenDes =>
    simp only [exec, execIvgenDes] at h
    split at h <;> cases h
    · exact .draws (by decide) _
    · exact .waits (draw_eq_none.mp ‹_›)
  | padAes n => cases h; exact .padsAes _
  | padDes n =>
    simp only [exec, execPadDes] at h
    split at h <;> cases h
    · exact .padsDes _
    · exact .fails (by decide) rfl
  | unpadAes =>
    simp only [exec, execUnpadAes] at h
    split at h <;> cases h
    · exact .unpads (by decide) (Nat.le_of_lt_succ (messageLength_lt ‹_›))
    · exact .fails (by decide) rfl
  | unpadDes =>
    simp only [exec, execUnpadDes] at h
    split at h <;> cases h
    · exact .unpads (by decide) ((messageLength_lt ‹_›).le.trans (by decide))
    · exact .fails (by decide) rfl
  | b64e n =>
    simp only [exec, execB64e] at h
    split at h <;> cases h
    · exact .encodes _
    · exact .fails (by decide) rfl
  | b64d =>
    simp only [exec, execB64d] at h
    split at h <;> cases h
    · exact .decodes ((b64Decode_length_le ‹_›).trans (by decide)) _
    · exact .fails (by decide) rfl

/-- A command of one group is none of another's. -/
theorem not_mem_of_disjoint {l m : List Instr} (hlm : ∀ j ∈ l, j ∉ m) {i : Instr} (hi : i ∈ l) : i ∉ m :=
  hlm i hi

/-- Only IVGEN draws (R99, R100). -/
theorem entropyBytes_eq_zero {i : Instr} (h : i ∉ [Instr.ivgenAes, .ivgenDes]) : entropyBytes i = 0 := by
  cases i with
  | ivgenAes => exact absurd (by decide) h
  | ivgenDes => exact absurd (by decide) h
  | _ => rfl

/-- A completion that does not wait leaves PHASE IDLE (R84). -/
theorem phase_of_completes {i : Instr} {s t : State} (h : Completes i s t) : t = s ∨ t.phase = .idle := by
  cases h with
  | waits => exact .inl rfl
  | _ => exact .inr rfl

/-- A command that does not wait uses up what was delivered, or draws nothing and leaves it (R99). -/
theorem entropy_of_completes {i : Instr} {s t : State} (h : Completes i s t) :
    t = s ∨ t.entropy = [] ∨ (entropyBytes i = 0 ∧ t.entropy = s.entropy) := by
  cases h with
  | waits => exact .inl rfl
  | draws => exact .inr (.inl rfl)
  | fails _ hdraw => exact .inr (.inr ⟨hdraw, rfl⟩)
  | ciphers hi | chains hi | normalises hi | unpads hi =>
    exact .inr (.inr ⟨entropyBytes_eq_zero (not_mem_of_disjoint (by decide) hi), rfl⟩)
  | _ => exact .inr (.inr ⟨rfl, rfl⟩)

/-- RESULT.LEN stays or is the length of an UNPAD or a B64D (R24). -/
theorem result_of_completes {i : Instr} {s t : State} (h : Completes i s t) :
    t.result = s.result ∨
    (i ∈ [Instr.unpadAes, .unpadDes, .b64d] ∧ t.result.toNat ≤ 15) := by
  have toNat_le {len : Nat} (hlen : len ≤ 15) : (BitVec.ofNat 5 len).toNat ≤ 15 := by
    rw [BitVec.toNat_ofNat]
    omega
  cases h with
  | unpads hi hlen => exact .inr ⟨List.mem_append_left [Instr.b64d] hi, toNat_le hlen⟩
  | decodes hlen => exact .inr ⟨by decide, toNat_le hlen⟩
  | _ => exact .inl rfl

/-- The RK store after a completion without error: the schedule of KEY for KSCHED, nothing for any other command
(R27). -/
def storeAfter (i : Instr) (s : State) : RkStore :=
  if i = .kschedAes then .aes (aesKeyExpand s.key)
  else if i = .kschedDes then .des (desKeySchedule s.key64)
  else .empty

/-- Only KSCHED leaves a schedule (R27). -/
theorem storeAfter_of_not_ksched {i : Instr} (s : State) (h : i ∉ [Instr.kschedAes, .kschedDes]) :
    storeAfter i s = .empty := by
  rw [storeAfter, if_neg, if_neg]
  · rintro rfl; exact h (by decide)
  · rintro rfl; exact h (by decide)

/-- The RK store after a completion: an error leaves it, any other end writes `storeAfter` (R27). -/
theorem store_of_completes {i : Instr} {s t : State} (h : Completes i s t) :
    t = s ∨ (t.err ≠ .none ∧ t.rk = s.rk) ∨ (t.err = .none ∧ t.rk = storeAfter i s) := by
  cases h with
  | waits => exact .inl rfl
  | fails he => exact .inr (.inl ⟨he, rfl⟩)
  | ciphers hi | chains hi | normalises hi | draws hi | unpads hi =>
    exact .inr (.inr ⟨rfl, (storeAfter_of_not_ksched s (not_mem_of_disjoint (by decide) hi)).symm⟩)
  | _ => exact .inr (.inr ⟨rfl, rfl⟩)

/-- No instruction touches CTRL, WERR, RKSEL or CUR, nor BASE and the model's own fields. -/
theorem frame_of_completes {i : Instr} {s t : State} (h : Completes i s t) :
    t.ieDone = s.ieDone ∧ t.ieErr = s.ieErr ∧ t.werr = s.werr ∧ t.rksel = s.rksel ∧ t.cur = s.cur ∧
      t.page = s.page ∧ t.inputs = s.inputs ∧ t.reads = s.reads ∧ t.draws = s.draws := by
  cases h <;> exact ⟨rfl, rfl, rfl, rfl, rfl, rfl, rfl, rfl, rfl⟩

end Sys2Proof.Proofs.Completion
end

section
/-! Every step keeps the invariant: one lemma for each thing an agent can do. -/

namespace Sys2Proof.Proofs.Invariant

open Sys2Proof.Machine Sys2Proof.Proofs.Completion

/-- Entropy waits for nobody where the command in flight draws nothing, and where none is in flight (R99). -/
theorem entropy_eq_nil {s : State} (hs : s.Inv) (h : s.phase = .busy → s.drawSize = 0) : s.entropy = [] := by
  have hle := hs.entropy_le
  cases hp : s.phase with
  | idle => simpa [hp] using hle
  | busy => simpa [hp, h hp] using hle

/-- The invariant of a state with no command in flight. -/
theorem inv_of_idle {s : State} (hp : s.phase = .idle) (hresult : s.result.toNat ≤ 15) (hrk : s.rk.isSchedule)
    (hentropy : s.entropy = []) : s.Inv where
  busy_clear hb := by simp [hp] at hb
  result_le := hresult
  rk_schedule := hrk
  entropy_le := by simp [hentropy]

/-- What a completion without error leaves in the RK store is nothing or a schedule (R27). -/
theorem storeAfter_isSchedule (i : Instr) (s : State) : (storeAfter i s).isSchedule := by
  unfold storeAfter
  split
  · exact ⟨_, rfl⟩
  split
  · exact ⟨_, rfl⟩
  · exact trivial

/-- The end of an instruction keeps the invariant (R84, R99, R117). -/
theorem inv_of_completes {i : Instr} {s t : State} (hs : s.Inv) (hd : decode s.cur = .ok i)
    (h : Completes i s t) : t.Inv := by
  rcases phase_of_completes h with rfl | hidle
  · exact hs
  refine inv_of_idle hidle ?_ ?_ ?_
  · rcases result_of_completes h with hr | ⟨_, hr⟩
    · exact hr ▸ hs.result_le
    · exact hr
  · rcases store_of_completes h with rfl | ⟨_, hr⟩ | ⟨_, hr⟩
    · exact hs.rk_schedule
    · exact hr ▸ hs.rk_schedule
    · exact hr ▸ storeAfter_isSchedule i s
  · rcases entropy_of_completes h with rfl | he | ⟨hdraw, he⟩
    · exact entropy_eq_nil hs fun hb => by simp [hidle] at hb
    · exact he
    · exact he.trans (entropy_eq_nil hs fun _ => (drawSize_of_decode hd).trans hdraw)

/-- The completion step keeps the invariant (R84). -/
theorem inv_of_complete {s t : State} (hs : s.Inv) (h : complete s = .next t) : t.Inv := by
  rcases complete_next h with ⟨_, rfl⟩ | ⟨_, e, hd, rfl⟩ | ⟨_, i, hd, hexec⟩
  · exact hs
  · have hdraw : s.drawSize = 0 := by simp [State.drawSize, hd]
    have hentropy : s.entropy = [] := entropy_eq_nil hs fun _ => hdraw
    exact inv_of_idle rfl hs.result_le hs.rk_schedule hentropy
  · exact inv_of_completes hs hd (completes_of_exec hexec)

/-- A read changes nothing that the invariant speaks of (R35). -/
theorem inv_hostRead {s : State} (r : Reg) (hs : s.Inv) : (s.hostRead r).Inv := by
  rw [hostRead_eq]
  split <;> exact { hs with }

/-- Accept, which happens only while IDLE, clears DONE and ERR and finds no entropy waiting (R83). -/
theorem inv_accept {s : State} (v : Word) (hs : s.Inv) (hidle : s.phase = .idle) : (s.accept v).Inv where
  busy_clear _ := ⟨rfl, rfl⟩
  result_le := hs.result_le
  rk_schedule := hs.rk_schedule
  entropy_le := by
    have he : s.entropy = [] := entropy_eq_nil hs fun hb => by simp [hidle] at hb
    simp [he]

/-- A write of STATUS clears bits and sets none (R22). -/
theorem inv_writeStatus {s : State} (v : Word) (hs : s.Inv) : (s.writeStatus v).Inv :=
  { hs with busy_clear := fun hb => ⟨by simp [(hs.busy_clear hb).1], (hs.busy_clear hb).2⟩ }

/-- A write that BUSY drops keeps the invariant where it does so while IDLE (R129). -/
theorem inv_whenIdle {s w : State} (hs : s.Inv) (hw : s.phase = .idle → w.Inv) : (s.whenIdle w).Inv := by
  cases hp : s.phase with
  | idle => rw [whenIdle_idle hp]; exact hw hp
  | busy => rw [whenIdle_busy hp]; exact { hs with }

/-- A host write keeps the invariant, register by register (R21 to R26, R129). -/
theorem inv_hostWrite {s : State} (r : Reg) (v : Word) (hs : s.Inv) : (s.hostWrite r v).Inv := by
  cases r with
  | ctrl => exact { hs with }
  | status => exact inv_writeStatus v hs
  | cmd => exact inv_whenIdle hs (inv_accept v hs)
  | result => exact hs
  | keylen => exact inv_whenIdle hs fun _ => { hs with }
  | rksel => exact inv_whenIdle hs fun _ => { hs with }
  | rkdata => exact hs
  | word x j =>
    cases x with
    | key => exact inv_whenIdle hs fun _ => { hs with }
    | din => exact inv_whenIdle hs fun _ => { hs with }
    | dout => exact hs
    | iv => exact inv_whenIdle hs fun _ => { hs with }

/-- A delivery is cut to what the command in flight draws, and discarded where none is (R99, R126). -/
theorem inv_deliver {s : State} (bytes : List Byte) (hs : s.Inv) : (s.deliver bytes).Inv := by
  unfold State.deliver
  split
  next hp =>
    have hcut : ((s.entropy ++ bytes).take s.drawSize).length ≤ if s.phase = .busy then s.drawSize else 0 := by
      rw [if_pos hp, List.length_take]
      exact Nat.min_le_left _ _
    exact { hs with entropy_le := hcut }
  · exact hs

/-- A reset leaves the reset values (R126). -/
theorem inv_resetStep (s : State) : s.resetStep.Inv := inv_of_idle rfl (Nat.zero_le 15) trivial rfl

/-- Settles O60, by what each agent can do in a step. -/
theorem everyStepKeepsInv : Obligations.EveryStepKeepsInv := by
  unfold Obligations.EveryStepKeepsInv
  intro s t hs h
  have hscheduled (rest : List Event) : State.Inv { s with inputs := rest } := { hs with }
  rcases step_next h with ⟨_, hc⟩ | ⟨e, rest, hi, ⟨a, rfl, _⟩ | ⟨_, hc⟩ | ⟨bs, _, rfl⟩ | ⟨_, _, rfl⟩⟩
  · exact inv_of_complete hs hc
  · obtain ⟨_, r, _, ⟨_, rfl⟩ | ⟨v, _, rfl⟩⟩ := step_host_next hi h
    · exact inv_hostRead r (hscheduled rest)
    · exact inv_hostWrite r v (hscheduled rest)
  · exact inv_of_complete (hscheduled rest) hc
  · exact inv_deliver bs (hscheduled rest)
  · exact inv_resetStep _

end Sys2Proof.Proofs.Invariant
end

section
/-! The round-key store: who writes it (R27) and what RKDATA shows of it (R26). -/

namespace Sys2Proof.Proofs.RoundKeyStore

open Sys2Proof.Machine Sys2Proof.Proofs.Completion

theorem whenIdle_rk {s w : State} (hw : w.rk = s.rk) : (s.whenIdle w).rk = s.rk := by
  cases hp : s.phase with
  | idle => rw [whenIdle_idle hp, hw]
  | busy => rw [whenIdle_busy hp]

/-- No host write reaches the RK store (R27). -/
theorem hostWrite_rk (r : Reg) (v : Word) (s : State) : (s.hostWrite r v).rk = s.rk := by
  cases r with
  | cmd | keylen | rksel => exact whenIdle_rk rfl
  | word x j =>
    cases x with
    | key | din | iv => exact whenIdle_rk rfl
    | dout => rfl
  | _ => rfl

theorem hostRead_rk (r : Reg) (s : State) : (s.hostRead r).rk = s.rk := by
  rw [hostRead_eq]
  split <;> rfl

/-- A completion step that leaves another, nonempty store is that of a KSCHED in flight (R27). -/
theorem ksched_of_complete {s t : State} (h : complete s = .next t) (hne : t.rk ≠ s.rk) (hfull : t.rk ≠ .empty) :
    s.phase = .busy ∧ (decode s.cur = .ok .kschedAes ∨ decode s.cur = .ok .kschedDes) := by
  rcases complete_next h with ⟨_, rfl⟩ | ⟨_, e, _, rfl⟩ | ⟨hb, i, hd, hexec⟩
  · exact absurd rfl hne
  · exact absurd rfl hne
  · refine ⟨hb, ?_⟩
    rcases store_of_completes (completes_of_exec hexec) with rfl | ⟨_, hr⟩ | ⟨_, hr⟩
    · exact absurd rfl hne
    · exact absurd hr hne
    · have hi : i ∈ [Instr.kschedAes, .kschedDes] :=
        Decidable.byContradiction fun hi => hfull (hr.trans (storeAfter_of_not_ksched s hi))
      simpa [hd] using hi

/-- Settles O21: the completions by the store they leave, the other steps because none writes a schedule. -/
theorem rkStoreIsWrittenByKsched : Obligations.RkStoreIsWrittenByKsched := by
  unfold Obligations.RkStoreIsWrittenByKsched
  refine ⟨fun i s t hbusy h hidle => ?_, fun s t h hne hfull => ?_, rfl⟩
  · rcases store_of_completes (completes_of_exec h) with rfl | ⟨he, hr⟩ | ⟨he, hr⟩
    · simp [hbusy] at hidle
    · exact ⟨fun _ => hr, fun hn => absurd hn he⟩
    · exact ⟨fun hn => absurd he hn, fun _ => hr⟩
  · rcases step_next h with ⟨_, hc⟩ | ⟨e, rest, hi, ⟨a, rfl, _⟩ | ⟨_, hc⟩ | ⟨bs, _, rfl⟩ | ⟨_, _, rfl⟩⟩
    · exact ksched_of_complete hc hne hfull
    · obtain ⟨_, r, _, ⟨_, rfl⟩ | ⟨v, _, rfl⟩⟩ := step_host_next hi h
      · exact absurd (hostRead_rk r _) hne
      · exact absurd (hostWrite_rk r v _) hne
    · exact ksched_of_complete (s := { s with inputs := rest }) hc hne hfull
    · exact absurd (by rw [deliver_eq]) hne
    · exact absurd rfl hfull

/-- RKDATA of a DES schedule, bit by bit: the left half of a round key where RKSEL is even, the right half where
it is odd (R26). -/
theorem rkdataWord_des_bit {s : State} {ks : List RoundKey} (hs : s.rk = .des ks) (hi : s.rksel.toNat < 32)
    (b : Nat) (h1 : 1 ≤ b) (h2 : b ≤ 24) :
    s.rkdataWord.getLsbD (24 - b) =
      desBit (ks.getD (s.rksel.toNat / 2) 0#48) (24 * (s.rksel.toNat % 2) + b) := by
  rw [desBit_eq _ _ (by omega) (by omega)]
  simp only [State.rkdataWord, hs, if_pos hi]
  rw [append_right_bit _ _ _ (by omega), BitVec.getLsbD_extractLsb', decide_eq_true (by omega), Bool.true_and]
  exact congrArg _ (by split <;> omega)

/-- The top byte of RKDATA of a DES schedule (R26). -/
theorem rkdataWord_des_top {s : State} {ks : List RoundKey} (hs : s.rk = .des ks) (hi : s.rksel.toNat < 32) :
    s.rkdataWord.extractLsb' 24 8 = 0#8 := by
  simp only [State.rkdataWord, hs, if_pos hi]
  apply BitVec.eq_of_getLsbD_eq
  intro j _
  rw [BitVec.getLsbD_extractLsb', append_left_bit _ _ _ (by omega)]
  simp

end Sys2Proof.Proofs.RoundKeyStore
end

section
/-! Which instruction writes which register (R15 to R19, R24). -/

namespace Sys2Proof.Proofs.RegisterWriters

open Sys2Proof.Machine Sys2Proof.Proofs.Completion

section Writers

variable {i : Instr} {s t : State}

theorem key_writers (h : Completes i s t) (hne : t.key ≠ s.key) : i ∈ [Instr.knormAes, .knormDes] := by
  cases h with
  | normalises hi => exact hi
  | _ => exact absurd rfl hne

theorem keylen_writers (h : Completes i s t) (hne : t.keylen ≠ s.keylen) :
    i ∈ [Instr.knormAes, .knormDes] := by
  cases h with
  | normalises hi => exact hi
  | _ => exact absurd rfl hne

theorem din_writers (h : Completes i s t) (hne : t.din ≠ s.din) : ∃ n, i = .padAes n ∨ i = .padDes n := by
  cases h with
  | padsAes => exact ⟨_, .inl rfl⟩
  | padsDes => exact ⟨_, .inr rfl⟩
  | _ => exact absurd rfl hne

theorem dout_writers (h : Completes i s t) (hne : t.dout ≠ s.dout) :
    i ∈ [Instr.encAes, .encDes, .decAes, .decDes, .cbceAes, .cbceDes, .cbcdAes, .cbcdDes, .b64d] ∨
      ∃ n, i = .b64e n := by
  cases h with
  | ciphers hi => exact .inl (List.mem_append_left [Instr.cbceAes, .cbceDes, .cbcdAes, .cbcdDes, .b64d] hi)
  | chains hi =>
    exact .inl (List.mem_append_right [Instr.encAes, .encDes, .decAes, .decDes]
      (List.mem_append_left [Instr.b64d] hi))
  | decodes => exact .inl (by decide)
  | encodes => exact .inr ⟨_, rfl⟩
  | _ => exact absurd rfl hne

theorem iv_writers (h : Completes i s t) (hne : t.iv ≠ s.iv) :
    i ∈ [Instr.cbceAes, .cbceDes, .cbcdAes, .cbcdDes, .ivgenAes, .ivgenDes] := by
  cases h with
  | chains hi => exact List.mem_append_left [Instr.ivgenAes, .ivgenDes] hi
  | draws hi => exact List.mem_append_right [Instr.cbceAes, .cbceDes, .cbcdAes, .cbcdDes] hi
  | _ => exact absurd rfl hne

theorem result_writers (h : Completes i s t) (hne : t.result ≠ s.result) :
    i ∈ [Instr.unpadAes, .unpadDes, .b64d] :=
  ((result_of_completes h).resolve_left hne).1

end Writers

/-- Settles O27, register by register. -/
theorem eachRegisterHasItsWriters : Obligations.EachRegisterHasItsWriters := by
  unfold Obligations.EachRegisterHasItsWriters
  intro i s t h
  have hc := completes_of_exec h
  exact ⟨key_writers hc, keylen_writers hc, din_writers hc, dout_writers hc, iv_writers hc,
    result_writers hc, frame_of_completes hc⟩

end Sys2Proof.Proofs.RegisterWriters
end

section
/-! The control registers as the host reads and writes them (R16, R21 to R26). -/

namespace Sys2Proof.Proofs.ControlRegisters

open Sys2Proof.Machine Sys2Proof.Proofs.Completion Sys2Proof.Proofs.RoundKeyStore

/-- What a register reads as does not depend on the steps still to come. -/
theorem regWord_withInputs (s : State) (rest : List Event) (r : Reg) :
    State.regWord { s with inputs := rest } r = s.regWord r := by
  cases r with
  | word x j => cases x <;> rfl
  | _ => rfl

/-- A read returns the word that the register holds, but for a data-path register while BUSY (R35, R130). -/
theorem step_read_regWord {s : State} {off : Nat} {rest : List Event} {r : Reg}
    (h : s.inputs = .host (.read 4 (s.base + off)) :: rest) (hr : regAt off = some r)
    (hplain : s.phase = .idle ∨ r.inDataPath = false) :
    step s = .next { s with inputs := rest, reads := s.regWord r :: s.reads } := by
  rw [step_read h hr, hostRead_eq, if_neg, regWord_withInputs]
  rintro ⟨hb, hd⟩
  rcases hplain with hp | hp
  · exact absurd (hp.symm.trans hb) (by decide)
  · exact absurd (hp.symm.trans hd) (by decide)

/-- Settles O16: the accesses by the register map and the bits of CTRL, the interrupt by its formula (R120). -/
theorem ctrlHoldsTheInterruptEnables : Obligations.CtrlHoldsTheInterruptEnables := by
  unfold Obligations.CtrlHoldsTheInterruptEnables
  refine ⟨fun s v rest h => step_write (off := 0) h rfl, fun s rest h => ?_, fun s hie hd => ?_,
    fun s hie hd he => ?_, rfl⟩
  · refine ⟨s.ctrlWord, step_read_regWord (off := 0) h rfl (.inr rfl), ?_, ?_, fun k hk => ?_⟩
    · rw [ctrlWord_bit, if_pos rfl]
    · rw [ctrlWord_bit, if_neg (by decide), if_pos rfl]
    · rw [ctrlWord_bit, if_neg (by omega), if_neg (by omega)]
  · simp [State.irq, hie, hd]
  · simp [State.irq, hie, hd, he]

/-- STATUS.RKV and STATUS.RKALG by the RK store (R22, R27). -/
theorem rkv_iff (s : State) : s.rkv = true ↔ s.rk ≠ .empty := by
  cases h : s.rk <;> simp [State.rkv, h]

theorem rkalg_iff (s : State) : s.rkalg = true ↔ ∃ k, s.rk = .des k := by
  cases h : s.rk <;> simp [State.rkalg, h]

/-- Settles O17: the read by the bits of STATUS, the write because clearing a bit is `and not`. -/
theorem statusReadsAndClears : Obligations.StatusReadsAndClears := by
  unfold Obligations.StatusReadsAndClears
  constructor
  · intro s rest h
    refine ⟨s.statusWord, step_read_regWord h rfl (.inr rfl), ?_, ?_, ?_, ?_, statusWord_err s, ?_, ?_,
      fun k hk => ?_⟩
    · rw [statusWord_bit s 0 (by decide)]
      simp [State.busy]
    · exact statusWord_bit s 1 (by decide)
    · exact statusWord_bit s 2 (by decide)
    · exact statusWord_bit s 3 (by decide)
    · rw [statusWord_bit s 8 (by decide)]
      exact rkv_iff s
    · rw [statusWord_bit s 9 (by decide)]
      exact rkalg_iff s
    · rw [statusWord_bit s k (by omega)]
      simp (disch := omega) only [if_neg]
  · intro s v rest h
    have hclear (b c : Bool) : (b && !c) = if c then false else b := by cases c <;> simp
    rw [step_write h rfl, State.hostWrite, State.writeStatus, hclear, hclear]

/-- Settles O18: the accesses by the register map, the commands by what no completion touches. -/
theorem rkselHoldsTheReadbackIndex : Obligations.RkselHoldsTheReadbackIndex := by
  unfold Obligations.RkselHoldsTheReadbackIndex
  refine ⟨fun s v rest h hp => ?_, fun s rest h => ?_, fun i s t h => ?_, rfl⟩
  · rw [step_write h rfl, ← BitVec.setWidth_eq_extractLsb' (by decide)]
    exact congrArg _ (whenIdle_idle hp)
  · rw [step_read_regWord h rfl (.inr rfl), State.regWord, BitVec.setWidth_eq_append (by decide)]
    rfl
  · obtain ⟨_, _, _, hrksel, _⟩ := frame_of_completes (completes_of_exec h)
    exact hrksel

/-- Settles O19, access by access through the register map. -/
theorem keylenResultAndCmdRegisters : Obligations.KeylenResultAndCmdRegisters := by
  unfold Obligations.KeylenResultAndCmdRegisters
  refine ⟨fun s v rest h hp => ?_, fun s rest h => ?_, fun s rest h => ?_, fun s v rest h => ?_,
    fun s rest h => ?_, rfl, rfl⟩
  · rw [step_write h rfl, ← BitVec.setWidth_eq_extractLsb' (by decide)]
    exact congrArg _ (whenIdle_idle hp)
  · rw [step_read_regWord h rfl (.inr rfl), State.regWord, BitVec.setWidth_eq_append (by decide)]
    rfl
  · rw [step_read_regWord h rfl (.inr rfl), State.regWord, BitVec.setWidth_eq_append (by decide)]
    rfl
  · exact step_write h rfl
  · exact step_read_regWord h rfl (.inr rfl)

/-- Settles O20: RKDATA by the RK store and RKSEL. -/
theorem rkdataReadsTheStore : Obligations.RkdataReadsTheStore := by
  unfold Obligations.RkdataReadsTheStore
  refine ⟨fun s rest h hp => ?_, fun s v rest h => step_write h rfl, rfl⟩
  refine ⟨s.rkdataWord, step_read_regWord h rfl (.inl hp), fun hs => ?_, fun ws hs => ⟨fun hi => ?_, fun hi => ?_⟩,
    fun ks hs => ⟨fun hi => ?_, fun hi => ?_⟩⟩
  · simp only [State.rkdataWord, hs]
  · simp only [State.rkdataWord, hs, if_pos hi]
  · simp only [State.rkdataWord, hs, if_neg (Nat.not_lt.mpr hi)]
  · exact ⟨rkdataWord_des_top hs hi, rkdataWord_des_bit hs hi⟩
  · simp only [State.rkdataWord, hs, if_neg (Nat.not_lt.mpr hi)]

end Sys2Proof.Proofs.ControlRegisters
end

section
/-! Host accesses to the window: which are bus errors (R34), the four words of an operand register (R36), and
that a read has no side effect (R35). -/

namespace Sys2Proof.Proofs.HostAccesses

open Sys2Proof.Machine Sys2Proof.Proofs.ControlRegisters

/-- The converse of `busAccess_mapped`: a narrow, misaligned or unmapped access is a bus error (R34). -/
theorem busAccess_busError {a : Access} {s : State} {off : Nat} (ho : s.windowOffset a.addr = some off)
    (hbad : a.size ≠ 4 ∨ off % 4 ≠ 0 ∨ regAt off = none) : busAccess a s = .fault .busError := by
  simp only [busAccess, ho]
  split
  · rfl
  next haligned =>
    have hunmapped : regAt off = none := (or_assoc.mpr hbad).resolve_left haligned
    simp only [hunmapped]

/-- Settles O22: the offset decides whether the register map answers. -/
theorem busErrorsFault : Obligations.BusErrorsFault := by
  unfold Obligations.BusErrorsFault
  intro s a off rest hi hoff haddr
  have ho : State.windowOffset { s with inputs := rest } a.addr = some off :=
    windowOffset_eq_some.mpr ⟨hoff, haddr⟩
  have hstep : step s = busAccess a { s with inputs := rest } := step_cons hi
  refine ⟨fun hbad => hstep.trans (busAccess_busError ho ?_), fun hgood => ?_⟩
  · rcases hbad with hsize | halign | hunmapped
    · exact .inl hsize
    · exact .inr (.inl halign)
    · exact .inr (.inr (regAt_none hunmapped))
  · obtain ⟨r, hr⟩ := regAt_total (off := off) (by omega)
    exact ⟨_, hstep.trans (busAccess_mapped ho (by omega) (by omega) hr)⟩

/-- The four words of an operand register follow each other from its offset (R14, R36). -/
theorem regAt_operandWord {x : Operand} {off j : Nat}
    (hx : (x, off) ∈ [(Operand.key, 0x20), (.din, 0x30), (.dout, 0x40), (.iv, 0x50)]) (hj : j < 4) :
    regAt (off + 4 * j) = some (.word x j) := by
  have hoffset : off + 4 * j = (Reg.word x j).offset := by
    simp only [List.mem_cons, Prod.mk.injEq, List.not_mem_nil, or_false] at hx
    rcases hx with ⟨rfl, rfl⟩ | ⟨rfl, rfl⟩ | ⟨rfl, rfl⟩ | ⟨rfl, rfl⟩ <;> rfl
  rw [hoffset]
  exact regAt_offset fun _ _ h => by cases h; exact hj

/-- Bus word `j` of an operand, by its bytes (R36). -/
theorem getWord_eq_wordOf (x : Block) {j : Nat} (hj : j < 4) :
    getWord x j =
      wordOf (getByte x (4 * j)) (getByte x (4 * j + 1)) (getByte x (4 * j + 2)) (getByte x (4 * j + 3)) := by
  apply word_ext
  intro i hi
  rw [wordByte_getWord x j i hj hi, wordByte_wordOf _ _ _ _ i hi]
  interval_cases i <;> rfl

/-- Settles O23: the accesses by the register map, the bytes by the packing of a bus word. -/
theorem operandWordsArePackedBigEndian : Obligations.OperandWordsArePackedBigEndian := by
  unfold Obligations.OperandWordsArePackedBigEndian
  constructor
  · intro s x off j rest hx hj hidle hi
    rw [step_read_regWord hi (regAt_operandWord hx hj) (.inl hidle), State.regWord, getWord_eq_wordOf _ hj]
    rfl
  · intro s x off j v rest hx hj hidle hi
    refine ⟨setWord (s.operand x) j v, ?_, getByte_setWord (s.operand x) j v⟩
    rw [step_write hi (regAt_operandWord hx hj)]
    cases x with
    | key | din | iv => exact congrArg _ (whenIdle_idle hidle)
    | dout => rfl

/-- What a register reads as depends neither on the steps still to come nor on what the host has read. -/
theorem regWord_afterRead (s : State) (rest : List Event) (ws : List Word) (r : Reg) :
    State.regWord { s with inputs := rest, reads := ws } r = s.regWord r := by
  cases r with
  | word x j => cases x <;> rfl
  | _ => rfl

/-- A read that answers a next state is one of a mapped register (R33, R34). -/
theorem step_read_next {s t : State} {addr : Nat} {rest : List Event}
    (hi : s.inputs = .host (.read 4 addr) :: rest) (h : step s = .next t) :
    ∃ off r, regAt off = some r ∧ addr = s.base + off ∧ t = State.hostRead r { s with inputs := rest } := by
  obtain ⟨off, r, hr, ⟨ha, ht⟩ | ⟨v, ha, _⟩⟩ := step_host_next hi h
  · cases ha
    exact ⟨off, r, hr, rfl, ht⟩
  · cases ha

/-- What an answered read of a mapped register leaves while IDLE (R35). -/
theorem eq_of_idle_read {s t : State} {off : Nat} {rest : List Event} {r : Reg}
    (hi : s.inputs = .host (.read 4 (s.base + off)) :: rest) (hr : regAt off = some r) (hidle : s.phase = .idle)
    (h : step s = .next t) : t = { s with inputs := rest, reads := s.regWord r :: s.reads } :=
  Host.Outcome.next.inj (h.symm.trans (step_read_regWord hi hr (.inl hidle)))

/-- Settles O26: what a read adds by `hostRead_eq`; the second read meets a state in which every register holds
what it held for the first. -/
theorem readsHaveNoSideEffect : Obligations.ReadsHaveNoSideEffect := by
  unfold Obligations.ReadsHaveNoSideEffect
  constructor
  · intro s t addr rest hi h
    obtain ⟨off, r, _, _, rfl⟩ := step_read_next hi h
    rw [hostRead_eq]
    split <;> exact ⟨_, rfl, rfl⟩
  · intro s t u addr rest hidle hi ht hu
    obtain ⟨off, r, hr, rfl, _⟩ := step_read_next hi ht
    have hfirst := eq_of_idle_read hi hr hidle ht
    have hbase : t.base = s.base := by rw [hfirst]; rfl
    have hinputs : t.inputs = .host (.read 4 (t.base + off)) :: rest := by rw [hbase, hfirst]
    have hsecond := eq_of_idle_read hinputs hr (by rw [hfirst, hidle]) hu
    have hword : t.regWord r = s.regWord r := by rw [hfirst, regWord_afterRead]
    exact ⟨s.regWord r, by rw [hsecond, hword, hfirst]⟩

end Sys2Proof.Proofs.HostAccesses
end

section
/-! The command word: decoding undoes encoding in both directions, and the checks of the decoder in their order
(R44, R46, R50). -/

namespace Sys2Proof.Proofs.CommandWord

/-- The checks of R50 on OP, ALG and ARG all pass, in their order. RSV is not among them. -/
abbrev PassesChecks (op alg : Nat) (arg : BitVec 4) : Prop :=
  ¬(op = 0 ∨ 12 ≤ op) ∧ ¬(op ≤ 9 ∧ 1 < alg) ∧ ¬((op = 10 ∨ op = 11) ∧ alg ≠ 0) ∧
    ¬(op = 8 ∧ blockSize alg ≤ arg.toNat) ∧ ¬(op = 10 ∧ (arg.toNat = 0 ∨ 3 < arg.toNat)) ∧
    ¬(op ≠ 8 ∧ op ≠ 10 ∧ arg.toNat ≠ 0)

/-- A word that passes every check decodes by the table of R46. -/
theorem decode_of_passesChecks {v : Word} (hrsv : rsvField v = 0#20)
    (h : PassesChecks (opField v) (algField v) (argField v)) :
    decode v = instrOf (opField v) (algField v) (argField v) := by
  obtain ⟨hop, halg, hb64Alg, hpadArg, hb64Arg, hnoArg⟩ := h
  rw [decode_past_alg hrsv hop halg, if_neg hb64Alg, if_neg hpadArg, if_neg hb64Arg, if_neg hnoArg]

section Fields
variable (arg alg op : BitVec 4)

@[simp] theorem rsvField_commandWord : rsvField (commandWord arg alg op) = 0#20 := by
  rw [rsvField, commandWord, BitVec.extractLsb'_append_eq_of_le (by decide),
    BitVec.extractLsb'_append_eq_of_le (by decide), BitVec.extractLsb'_append_eq_of_le (by decide)]
  exact BitVec.extractLsb'_eq_self

@[simp] theorem argField_commandWord : argField (commandWord arg alg op) = arg := by
  rw [argField, commandWord, BitVec.extractLsb'_append_eq_of_le (by decide),
    BitVec.extractLsb'_append_eq_of_le (by decide), BitVec.extractLsb'_append_eq_of_add_le (by decide)]
  exact BitVec.extractLsb'_eq_self

@[simp] theorem algField_commandWord : algField (commandWord arg alg op) = alg.toNat := by
  rw [algField, commandWord, BitVec.extractLsb'_append_eq_of_le (by decide),
    BitVec.extractLsb'_append_eq_of_add_le (by decide)]
  exact congrArg BitVec.toNat BitVec.extractLsb'_eq_self

@[simp] theorem opField_commandWord : opField (commandWord arg alg op) = op.toNat := by
  rw [opField, commandWord, BitVec.extractLsb'_append_eq_of_add_le (by decide), BitVec.extractLsb'_eq_self]

end Fields

/-- A word put together from fields that pass the checks decodes by the table of R46. -/
theorem decode_commandWord {arg alg op : BitVec 4} (h : PassesChecks op.toNat alg.toNat arg) :
    decode (commandWord arg alg op) = instrOf op.toNat alg.toNat arg := by
  have hword := decode_of_passesChecks (rsvField_commandWord arg alg op)
  simp only [opField_commandWord, algField_commandWord, argField_commandWord] at hword
  exact hword h

/-- The fields of a well-formed instruction's word pass the checks, and its row of the table reads them back
(R46, R50). -/
theorem encode_fields {i : Instr} (hi : i.wf = true) :
    ∃ arg alg op, encode i = commandWord arg alg op ∧ PassesChecks op.toNat alg.toNat arg ∧
      instrOf op.toNat alg.toNat arg = .ok i := by
  cases i with
  | padAes n => exact ⟨n, 0#4, 8#4, rfl, by simp [PassesChecks, blockSize, n.isLt], rfl⟩
  | padDes n =>
    have hn : n.toNat < 8 := of_decide_eq_true hi
    exact ⟨n, 1#4, 8#4, rfl, by simp [PassesChecks, blockSize, hn], rfl⟩
  | b64e n =>
    have hn : 1 ≤ n.toNat ∧ n.toNat ≤ 3 := by simpa [Instr.wf] using hi
    have hpass : PassesChecks 10 0 n := by omega
    exact ⟨n, 0#4, 10#4, rfl, hpass, rfl⟩
  | _ => exact ⟨_, _, _, rfl, by decide, rfl⟩

/-- A word decodes to an instruction exactly when it is that well-formed instruction's word (R46, R50). -/
theorem decode_eq_ok_iff {v : Word} {i : Instr} : decode v = .ok i ↔ i.wf = true ∧ encode i = v := by
  constructor
  · intro h
    obtain ⟨hrsv, hpadArg, hb64Arg, hnoArg, hinstr⟩ := decode_ok h
    obtain ⟨hwf, henc⟩ := instrOf_ok hinstr hpadArg hb64Arg hnoArg
    refine ⟨hwf, henc.trans ?_⟩
    rw [algField, opField, BitVec.ofNat_toNat, BitVec.ofNat_toNat]
    exact commandWord_fields hrsv
  · rintro ⟨hwf, rfl⟩
    obtain ⟨arg, alg, op, henc, hpass, hinstr⟩ := encode_fields hwf
    rw [henc, decode_commandWord hpass, hinstr]

/-- Settles O2: the fields of the word pass the checks and name the instruction's row. -/
theorem decodeOfEncode : Obligations.DecodeOfEncode := by
  unfold Obligations.DecodeOfEncode
  exact fun i hi => decode_eq_ok_iff.mpr ⟨hi, rfl⟩

/-- Settles O3: a word that decodes has RSV = 0, so it is the word of its fields. -/
theorem decodedWordIsTheEncoding : Obligations.DecodedWordIsTheEncoding := by
  unfold Obligations.DecodedWordIsTheEncoding
  exact fun v i => decode_eq_ok_iff.mp

/-- Settles O1: each word is the word that `encode` makes of its instruction. -/
theorem decodeReadsTheTablesWords : Obligations.DecodeReadsTheTablesWords := by
  unfold Obligations.DecodeReadsTheTablesWords
  simp only [decode_eq_ok_iff]
  decide

/-- The check of an unused ARG, in the words of R50 and as `decode` makes it. -/
theorem unusedArg_iff {op arg : Nat} : ¬(op = 8 ∨ op = 10) ∧ arg ≠ 0 ↔ op ≠ 8 ∧ op ≠ 10 ∧ arg ≠ 0 := by
  rw [not_or, and_assoc]

/-- Settles O4, check by check: each branch has the earlier checks passed and one failed, and the last has them
all passed, so the table has a row for the word. -/
theorem firstFailingDecodeCheckDecides : Obligations.FirstFailingDecodeCheckDecides := by
  unfold Obligations.FirstFailingDecodeCheckDecides
  intro v op alg arg b
  split
  · exact decode_rsv ‹_›
  next hrsv =>
  replace hrsv : rsvField v = 0#20 := not_not.mp hrsv
  split
  · exact decode_op hrsv ‹_›
  next hop =>
  split
  next h => exact decode_alg hrsv hop ⟨h.1.2, h.2⟩
  next halg =>
  replace halg : ¬(opField v ≤ 9 ∧ 1 < algField v) := by
    rintro ⟨h9, h1⟩
    exact halg ⟨⟨Nat.one_le_iff_ne_zero.mpr fun h0 => hop (.inl h0), h9⟩, h1⟩
  have hdecode := decode_past_alg hrsv hop halg
  split
  · exact hdecode.trans (if_pos ‹_›)
  next hb64Alg =>
  replace hdecode := hdecode.trans (if_neg hb64Alg)
  split
  · exact hdecode.trans (if_pos ‹_›)
  next hpadArg =>
  replace hdecode := hdecode.trans (if_neg hpadArg)
  split
  · exact hdecode.trans (if_pos ‹_›)
  next hb64Arg =>
  replace hdecode := hdecode.trans (if_neg hb64Arg)
  split
  next h => exact hdecode.trans (if_pos (unusedArg_iff.mp h))
  next hnoArg =>
  replace hdecode := hdecode.trans (if_neg (mt unusedArg_iff.mpr hnoArg))
  obtain ⟨i, hinstr⟩ := instrOf_total (argField v) hop halg hb64Alg
  have hok : decode v = .ok i := hdecode.trans hinstr
  exact ⟨i, hok, decode_eq_ok_iff.mp hok⟩

end Sys2Proof.Proofs.CommandWord
end

section
/-! The host's line `wr128`: four writes, one for each bus word of an operand register (R36, R52). -/

namespace Sys2Proof.Proofs.OperandLine

open Sys2Proof.Machine

/-- The state with an operand register at a value (R14) and the steps `es` still to come. -/
def putOperand (x : Operand) (v : Block) (es : List Event) (s : State) : State :=
  match x with
  | .key => { s with inputs := es, key := v }
  | .din => { s with inputs := es, din := v }
  | .dout => { s with inputs := es, dout := v }
  | .iv => { s with inputs := es, iv := v }

section PutOperand
variable (x : Operand) (v w : Block) (es fs : List Event) (s : State)

@[simp] theorem putOperand_phase : (putOperand x v es s).phase = s.phase := by cases x <;> rfl
@[simp] theorem putOperand_base : (putOperand x v es s).base = s.base := by cases x <;> rfl
@[simp] theorem putOperand_inputs : (putOperand x v es s).inputs = es := by cases x <;> rfl
@[simp] theorem putOperand_operand : (putOperand x v es s).operand x = v := by cases x <;> rfl
@[simp] theorem putOperand_putOperand : putOperand x w fs (putOperand x v es s) = putOperand x w fs s := by
  cases x <;> rfl
@[simp] theorem putOperand_self : putOperand x (s.operand x) s.inputs s = s := by cases x <;> rfl

end PutOperand

/-- A write of one bus word of KEY, DIN or IV while IDLE (R36). -/
theorem step_writeWord {s : State} {x : Operand} {j : Nat} {w : Word} {rest : List Event} (hx : x ≠ .dout)
    (hj : j < 4) (hidle : s.phase = .idle) (hi : s.inputs = lineWr s.base (.word x j) w ++ rest) :
    step s = .next (putOperand x (setWord (s.operand x) j w) rest s) := by
  rw [step_write hi (regAt_offset fun _ _ h => by cases h; exact hj)]
  cases x with
  | key | din | iv => exact congrArg _ (whenIdle_idle hidle)
  | dout => exact absurd rfl hx

/-- An operand `y` after the bus words of `v` with the numbers `js` were written to it in that order (R36). -/
def writeWords (v : Block) (js : List Nat) (y : Block) : Block :=
  js.foldl (fun z j => setWord z j (getWord v j)) y

/-- Writing all four bus words of a value leaves that value. -/
theorem writeWords_all (v y : Block) : writeWords v [0, 1, 2, 3] y = v := by
  apply block_ext
  intro i hi
  simp only [writeWords, List.foldl_cons, List.foldl_nil, getByte_setWord _ _ _ i hi]
  have hword (j : Nat) (hj : i / 4 = j) : wordByte (getWord v j) (i % 4) = getByte v i := by
    rw [wordByte_getWord v j _ (by omega) (Nat.mod_lt i (by decide)), ← hj, Nat.div_add_mod]
  split
  · exact hword 3 ‹_›
  split
  · exact hword 2 ‹_›
  split
  · exact hword 1 ‹_›
  · exact (if_pos (by omega)).trans (hword 0 (by omega))

/-- A run of a machine whose first step answers a next state goes on from that state. -/
theorem run_succ {M : Host.Core} {s t : M.State} (k : Nat) (h : M.step s = .next t) :
    M.run (k + 1) s = M.run k t := by
  simp only [Host.Core.run, h]

/-- Running the writes of the bus words `js`, by induction on the writes that are left. -/
theorem run_writeWords {x : Operand} (hx : x ≠ .dout) (v : Block) (js : List Nat) :
    ∀ s : State, (∀ j ∈ js, j < 4) → s.phase = .idle →
      s.inputs = js.flatMap (fun j => lineWr s.base (.word x j) (getWord v j)) →
      Sys2Proof.core.run js.length s = .next (putOperand x (writeWords v js (s.operand x)) [] s) := by
  induction js with
  | nil =>
    intro s _ _ hi
    exact congrArg _ (hi ▸ putOperand_self x s).symm
  | cons j js ih =>
    intro s hjs hidle hi
    obtain ⟨hj, hjs⟩ := List.forall_mem_cons.mp hjs
    rw [List.flatMap_cons] at hi
    refine (run_succ _ (step_writeWord hx hj hidle hi)).trans ?_
    exact (ih _ hjs (by simpa) (by simp)).trans (by simp [writeWords])

/-- The line `wr128` on KEY, DIN or IV while IDLE (R52). -/
theorem run_lineWr128 {s : State} {x : Operand} {v : Block} (hx : x ≠ .dout) (hidle : s.phase = .idle)
    (hi : s.inputs = lineWr128 s.base x v) :
    Sys2Proof.core.run 4 s = .next (putOperand x v [] s) := by
  have h := run_writeWords hx v [0, 1, 2, 3] s (by decide) hidle hi
  rwa [writeWords_all] at h

/-- Settles O58: the line, operand by operand. -/
theorem wr128WritesTheOperand : Obligations.Wr128WritesTheOperand := by
  unfold Obligations.Wr128WritesTheOperand
  exact fun s v hidle => ⟨run_lineWr128 (by decide) hidle, run_lineWr128 (by decide) hidle,
    run_lineWr128 (by decide) hidle⟩

end Sys2Proof.Proofs.OperandLine
end

section
/-! The field of the AES-like core (R54, R55): `gmul` is additive on both sides and commutes with `xtime`, and the
field laws follow, because a map of bytes with these two properties is determined by its value at 1. -/

namespace Sys2Proof.Proofs.AesField

open Sys2Proof.Machine

/-- A summand under the xor of two bits is the xor of the summands under each. -/
theorem ite_xor_bits (b c : Bool) (x : Byte) :
    (if (b ^^ c) then x else 0#8) = (if b then x else 0#8) ^^^ (if c then x else 0#8) := by
  cases b <;> cases c <;> simp

/-- The xor of two summands under one bit. -/
theorem ite_xor_values (b : Bool) (x y : Byte) :
    (if b then x ^^^ y else 0#8) = (if b then x else 0#8) ^^^ (if b then y else 0#8) := by
  cases b <;> simp

theorem xtime_zero : xtime 0#8 = 0#8 := rfl

theorem xtimes_xtime (n : Nat) (a : Byte) : xtimes n (xtime a) = xtime (xtimes n a) := by
  induction n with
  | zero => rfl
  | succ n ih => rw [xtimes, ih, xtimes]

/-- A product is additive in its right factor (R55). -/
theorem gmul_xor (a b c : Byte) : gmul a (b ^^^ c) = gmul a b ^^^ gmul a c := by
  simp only [gmul_eq_sum, BitVec.getLsbD_xor, ite_xor_bits]
  ac_rfl

/-- A product is additive in its left factor. -/
theorem xor_gmul (a b c : Byte) : gmul (a ^^^ b) c = gmul a c ^^^ gmul b c := by
  simp only [gmul_eq_sum, xtimes_xor, ite_xor_values]
  ac_rfl

/-- A factor `x` of the left factor is a factor of the product. -/
theorem xtime_gmul (a b : Byte) : gmul (xtime a) b = xtime (gmul a b) := by
  simp only [gmul_eq_sum, xtimes_xtime, xtime_xor, apply_ite xtime, xtime_zero]

theorem gmul_zero (a : Byte) : gmul a 0#8 = 0#8 := by simp [gmul_eq_sum]

theorem gmul_one (a : Byte) : gmul a 1#8 = a := by simp [gmul_eq_sum, xtimes]

theorem gmul_two (a : Byte) : gmul a 2#8 = xtime a := by simp [gmul_eq_sum, xtimes]

theorem gmul_three (a : Byte) : gmul a 3#8 = xtime a ^^^ a := by
  calc gmul a 3#8 = gmul a (2#8 ^^^ 1#8) := rfl
    _ = xtime a ^^^ a := by rw [gmul_xor, gmul_two, gmul_one]

/-- The bits of a byte are its coefficients over the powers of `x` (R53). -/
theorem one_gmul : ∀ a : Byte, gmul 1#8 a = a := by decide +kernel

/-- An additive map of bytes that commutes with `xtime` is the product by its value at 1, for the powers of `x`
span the bytes. -/
theorem eq_gmul_of_xtimeLinear {f : Byte → Byte} (hxor : ∀ a b, f (a ^^^ b) = f a ^^^ f b)
    (hxtime : ∀ a, f (xtime a) = xtime (f a)) (b : Byte) : f b = gmul (f 1#8) b := by
  have hzero : f 0#8 = 0#8 := by simpa using hxor 0#8 0#8
  have hxtimes (n : Nat) : f (xtimes n 1#8) = xtimes n (f 1#8) := by
    induction n with
    | zero => rfl
    | succ n ih => rw [xtimes, hxtime, ih, xtimes]
  calc f b = f (gmul 1#8 b) := by rw [one_gmul]
    _ = gmul (f 1#8) b := by simp only [gmul_eq_sum, hxor, apply_ite f, hzero, hxtimes]

/-- Both sides are linear in `b`, and equal at 1. -/
theorem gmul_comm (a b : Byte) : gmul a b = gmul b a := by
  have h := eq_gmul_of_xtimeLinear (f := (gmul · a)) (xor_gmul · · a) (xtime_gmul · a) b
  rw [h, one_gmul]

theorem zero_gmul (a : Byte) : gmul 0#8 a = 0#8 := by rw [gmul_comm, gmul_zero]

/-- Both sides are linear in `c`, and equal at 1. -/
theorem gmul_assoc (a b c : Byte) : gmul (gmul a b) c = gmul a (gmul b c) := by
  have hxtime (c : Byte) : gmul a (gmul b (xtime c)) = xtime (gmul a (gmul b c)) := by
    rw [gmul_comm b, xtime_gmul, gmul_comm a, xtime_gmul, gmul_comm _ a, gmul_comm c]
  have h := eq_gmul_of_xtimeLinear (f := fun c => gmul a (gmul b c)) (by simp [gmul_xor]) hxtime c
  rw [h, gmul_one]

/-- Settles O39: `xtime` by its definition, the products by constants by their bits, and the field laws. -/
theorem fieldMultiplication : Obligations.FieldMultiplication := by
  unfold Obligations.FieldMultiplication
  exact ⟨fun _ => rfl, rfl, rfl, gmul_comm, gmul_assoc, gmul_xor,
    fun a => ⟨gmul_zero a, gmul_one a, gmul_two a, gmul_three a⟩, rfl⟩

end Sys2Proof.Proofs.AesField
end

section
/-! The tables of the AES-like core against the formula of R56, and that INV_SBOX undoes SBOX (R57). A table has
no structure to reason by, so that its entries are checked one by one; the rest follows from these checks. -/

namespace Sys2Proof.Proofs.AesTables

open Sys2Proof.Machine Sys2Proof.Proofs.AesField

/-- Bit `i` of `A(b) xor 0x63`, the affine map of R56. -/
def affineBit (b : Byte) (i : Nat) : Bool :=
  b.getLsbD i ^^ b.getLsbD ((i + 4) % 8) ^^ b.getLsbD ((i + 5) % 8) ^^
    b.getLsbD ((i + 6) % 8) ^^ b.getLsbD ((i + 7) % 8) ^^ (0x63#8).getLsbD i

/-- The affine map that undoes the one of R56. -/
def undoAffine (y : Byte) : Byte := y.rotateLeft 1 ^^^ y.rotateLeft 3 ^^^ y.rotateLeft 6 ^^^ 0x05#8

theorem affineBit_undoAffine : ∀ y : Byte, ∀ i < 8, affineBit (undoAffine y) i = y.getLsbD i := by decide +kernel

/-- The field inverse, with 0 going to 0, as SBOX holds it: its entry with the affine map undone (R56). -/
def fieldInverse (x : Byte) : Byte := undoAffine (sbox x)

theorem gmul_fieldInverse : ∀ x : Byte, x ≠ 0#8 → gmul x (fieldInverse x) = 1#8 := by decide +kernel

theorem invSbox_sbox : ∀ x : Byte, invSbox (sbox x) = x := by decide +kernel

theorem sbox_ne_self : ∀ x : Byte, sbox x ≠ x := by decide +kernel

/-- SBOX is a permutation of the bytes: it is injective, as INV_SBOX undoes it, and the bytes are finitely many. -/
theorem sbox_surjective : Function.Surjective sbox :=
  Finite.surjective_of_injective (Function.LeftInverse.injective invSbox_sbox)

theorem sbox_invSbox (x : Byte) : sbox (invSbox x) = x :=
  Function.LeftInverse.rightInverse_of_surjective invSbox_sbox sbox_surjective x

/-- Settles O40: SBOX is the affine map of `fieldInverse` because `fieldInverse` undoes that map, and it is the
inverse by the check of its products. -/
theorem substitutionTables : Obligations.SubstitutionTables := by
  unfold Obligations.SubstitutionTables
  exact ⟨⟨fieldInverse, rfl, gmul_fieldInverse, fun x i hi => (affineBit_undoAffine (sbox x) i hi).symm⟩,
    fun x => ⟨invSbox_sbox x, sbox_invSbox x, sbox_ne_self x⟩, rfl, rfl⟩

end Sys2Proof.Proofs.AesTables
end

section
/-! The round steps of the AES-like core and their inverses, entry by entry (R59 to R64). That InvMixColumns undoes
MixColumns is the product of two circulant matrices over GF(2^8). -/

namespace Sys2Proof.Proofs.AesRoundSteps

open Sys2Proof.Machine Sys2Proof.Proofs.AesField Sys2Proof.Proofs.AesTables

section Entries
variable (s : Block) {r c : Nat} (hr : r < 4) (hc : c < 4)
include hr hc

theorem cell_subBytes : cell (subBytes s) r c = sbox (cell s r c) := cell_stateOf _ r c hr hc

theorem cell_invSubBytes : cell (invSubBytes s) r c = invSbox (cell s r c) := cell_stateOf _ r c hr hc

theorem cell_shiftRows : cell (shiftRows s) r c = cell s r ((c + r) % 4) := cell_stateOf _ r c hr hc

theorem cell_invShiftRows : cell (invShiftRows s) r c = cell s r ((c + 4 - r) % 4) := cell_stateOf _ r c hr hc

theorem cell_mixColumns : cell (mixColumns s) r c =
    mixColumn 2#8 3#8 1#8 1#8 (cell s 0 c) (cell s 1 c) (cell s 2 c) (cell s 3 c) r := cell_stateOf _ r c hr hc

theorem cell_invMixColumns : cell (invMixColumns s) r c =
    mixColumn 14#8 11#8 13#8 9#8 (cell s 0 c) (cell s 1 c) (cell s 2 c) (cell s 3 c) r := cell_stateOf _ r c hr hc

end Entries

/-- The words of a round key (R63). -/
theorem getWord_roundKey (w : List Word) (k : Nat) {c : Nat} (hc : c < 4) :
    getWord (roundKey w k) c = w.getD (4 * k + c) 0#32 := by
  apply BitVec.eq_of_getLsbD_eq
  intro j hj
  simp only [getWord, roundKey, BitVec.getLsbD_extractLsb', hj, decide_true, Bool.true_and]
  interval_cases c <;> simp (disch := omega) only [append_left_bit, append_right_bit] <;>
    exact congrArg _ (by omega)

theorem cell_addRoundKey (w : List Word) (k : Nat) (s : Block) {r c : Nat} (hr : r < 4) (hc : c < 4) :
    cell (addRoundKey w k s) r c = cell s r c ^^^ wordByte (w.getD (4 * k + c) 0#32) r := by
  rw [addRoundKey, cell, getByte_xor, ← getWord_roundKey w k hc, wordByte_getWord _ c r hc hr, Nat.add_comm (4 * c)]
  rfl

theorem addRoundKey_addRoundKey (w : List Word) (k : Nat) (s : Block) : addRoundKey w k (addRoundKey w k s) = s := by
  rw [addRoundKey, addRoundKey, BitVec.xor_assoc, BitVec.xor_self, BitVec.xor_zero]

theorem invSubBytes_subBytes (s : Block) : invSubBytes (subBytes s) = s :=
  state_ext fun r c hr hc => by rw [cell_invSubBytes _ hr hc, cell_subBytes _ hr hc, invSbox_sbox]

theorem invShiftRows_shiftRows (s : Block) : invShiftRows (shiftRows s) = s :=
  state_ext fun r c hr hc => by
    rw [cell_invShiftRows _ hr hc, cell_shiftRows _ hr (Nat.mod_lt _ (by decide))]
    rw [show ((c + 4 - r) % 4 + r) % 4 = c by omega]

theorem invSubBytes_invShiftRows (s : Block) : invSubBytes (invShiftRows s) = invShiftRows (invSubBytes s) :=
  state_ext fun r c hr hc => by
    rw [cell_invSubBytes _ hr hc, cell_invShiftRows _ hr hc, cell_invShiftRows _ hr hc,
      cell_invSubBytes _ hr (Nat.mod_lt _ (by decide))]

/-- A circulant after a circulant is the circulant of the product of the two matrices (R62, R64). -/
theorem mixColumn_mixColumn (n0 n1 n2 n3 m0 m1 m2 m3 s0 s1 s2 s3 : Byte) (r : Nat) :
    let t := mixColumn m0 m1 m2 m3 s0 s1 s2 s3
    let p := mixColumn n0 n3 n2 n1 m0 m1 m2 m3
    mixColumn n0 n1 n2 n3 (t 0) (t 1) (t 2) (t 3) r = mixColumn (p 0) (p 1) (p 2) (p 3) s0 s1 s2 s3 r := by
  match r with
  | 0 | 1 | 2 | _ + 3 =>
    simp only [mixColumn, gmul_xor, xor_gmul, gmul_assoc]
    ac_rfl

theorem mixColumn_identity (e : Nat → Byte) {r : Nat} (hr : r < 4) :
    mixColumn 1#8 0#8 0#8 0#8 (e 0) (e 1) (e 2) (e 3) r = e r := by
  interval_cases r <;> simp [mixColumn, one_gmul, zero_gmul]

/-- The matrices of R62 and R64 are inverse: their product has the first row 1, 0, 0, 0. -/
theorem mixColumn_inverse (e : Nat → Byte) {r : Nat} (hr : r < 4) :
    let t := mixColumn 2#8 3#8 1#8 1#8 (e 0) (e 1) (e 2) (e 3)
    mixColumn 14#8 11#8 13#8 9#8 (t 0) (t 1) (t 2) (t 3) r = e r :=
  (mixColumn_mixColumn 14#8 11#8 13#8 9#8 2#8 3#8 1#8 1#8 _ _ _ _ r).trans (mixColumn_identity e hr)

theorem invMixColumns_mixColumns (s : Block) : invMixColumns (mixColumns s) = s :=
  state_ext fun r c hr hc => by
    rw [cell_invMixColumns _ hr hc, cell_mixColumns _ (by decide) hc, cell_mixColumns _ (by decide) hc,
      cell_mixColumns _ (by decide) hc, cell_mixColumns _ (by decide) hc]
    exact mixColumn_inverse (cell s · c) hr

/-- Settles O41: each step by the entry it makes; a factor 1 of the matrix leaves the entry. -/
theorem roundStepsByEntry : Obligations.RoundStepsByEntry := by
  unfold Obligations.RoundStepsByEntry
  refine ⟨fun s r c hr hc => ⟨cell_subBytes s hr hc, cell_shiftRows s hr hc,
    fun w k => cell_addRoundKey w k s hr hc⟩, fun s c hc => ?_, addRoundKey_addRoundKey, by decide +kernel⟩
  have hentry (r : Nat) (hr : r < 4) := cell_mixColumns s hr hc
  refine ⟨(hentry 0 (by decide)).trans ?_, (hentry 1 (by decide)).trans ?_,
    (hentry 2 (by decide)).trans ?_, (hentry 3 (by decide)).trans ?_⟩ <;>
  simp only [mixColumn, one_gmul, cell]

/-- Settles O42: the entries as in O41, and the round trip of each step from its entries. -/
theorem inverseStepsUndo : Obligations.InverseStepsUndo := by
  unfold Obligations.InverseStepsUndo
  refine ⟨fun s r c hr hc => ⟨cell_invSubBytes s hr hc, ?_⟩, fun s c hc => ?_,
    fun s => ⟨invSubBytes_subBytes s, invShiftRows_shiftRows s, invMixColumns_mixColumns s⟩⟩
  · have hback : ((c + r) % 4 + 4 - r) % 4 = c := by omega
    exact (cell_invShiftRows s hr (Nat.mod_lt _ (by decide))).trans (by rw [hback, cell])
  · have hentry (r : Nat) (hr : r < 4) := cell_invMixColumns s hr hc
    exact ⟨hentry 0 (by decide), hentry 1 (by decide), hentry 2 (by decide), hentry 3 (by decide)⟩

end Sys2Proof.Proofs.AesRoundSteps
end

section
/-! The AES key schedule: the recurrence of R65 along its list of words, and its word operations. -/

namespace Sys2Proof.Proofs.AesKeySchedule

open Sys2Proof.Machine

/-- The word that R65 adds to the word four before word `i`, where `d` is the word before it. -/
def scheduleTerm (i : Nat) (d : Word) : Word :=
  if i % 4 = 0 then subWord (rotWord d) ^^^ rcon (i / 4) else d

/-- The recurrence of R65 along the list of four words and those the loop makes from them: each turn of the loop
leaves a list of the same shape, which is the tail of the one before. -/
theorem keyWordsFrom_recurrence (n i j : Nat) (a b c d : Word) (hj : j < n) :
    let w := fun k => (a :: b :: c :: d :: keyWordsFrom n i a b c d).getD k 0#32
    w (j + 4) = w j ^^^ scheduleTerm (i + j) (w (j + 3)) := by
  induction n generalizing i j a b c d with
  | zero => exact absurd hj (Nat.not_lt_zero j)
  | succ n ih =>
    cases j with
    | zero => rfl
    | succ j =>
      have h := ih (i + 1) j b c d (a ^^^ scheduleTerm i d) (Nat.lt_of_succ_lt_succ hj)
      rwa [Nat.add_right_comm, Nat.add_assoc] at h

theorem aesKeyExpand_length (k : Block) : (aesKeyExpand k).length = 44 := by
  simp only [aesKeyExpand, List.length_cons, keyWordsFrom_length]

theorem aesKeyExpand_recurrence (k : Block) (i : Nat) (h4 : 4 ≤ i) (h44 : i < 44) :
    let w := fun i => (aesKeyExpand k).getD i 0#32
    w i = w (i - 4) ^^^ scheduleTerm i (w (i - 1)) := by
  have h := keyWordsFrom_recurrence 40 4 (i - 4) (getWord k 0) (getWord k 1) (getWord k 2) (getWord k 3) (by omega)
  rwa [show i - 4 + 4 = i by omega, show i - 4 + 3 = i - 1 by omega, show 4 + (i - 4) = i by omega] at h

theorem aesKeyExpand_first (k : Block) {i b : Nat} (hi : i < 4) (hb : b < 4) :
    wordByte ((aesKeyExpand k).getD i 0#32) b = getByte k (4 * i + b) := by
  have hword : (aesKeyExpand k).getD i 0#32 = getWord k i := by interval_cases i <;> rfl
  rw [hword, wordByte_getWord k i b hi hb]

theorem wordByte_rotWord (t : Word) (b : Nat) (hb : b < 4) : wordByte (rotWord t) b = wordByte t ((b + 1) % 4) := by
  rw [rotWord, wordByte_wordOf _ _ _ _ b hb]
  interval_cases b <;> rfl

theorem wordByte_subWord (t : Word) (b : Nat) (hb : b < 4) : wordByte (subWord t) b = sbox (wordByte t b) := by
  rw [subWord, wordByte_wordOf _ _ _ _ b hb]
  interval_cases b <;> rfl

/-- SubWord acts on each byte by itself, so that it does not matter where the byte stands (R65). -/
theorem subWord_rotWord (t : Word) : subWord (rotWord t) = rotWord (subWord t) :=
  word_ext fun b hb => by
    rw [wordByte_subWord _ b hb, wordByte_rotWord _ b hb, wordByte_rotWord _ b hb,
      wordByte_subWord _ _ (Nat.mod_lt _ (by decide))]

/-- Each round constant is `x` times the one before (R58). -/
theorem rcon_succ : ∀ j, 1 ≤ j → j < 10 → rcon (j + 1) = wordOf (xtime (wordByte (rcon j) 0)) 0#8 0#8 0#8 := by
  intro j h1 h10
  interval_cases j <;> rfl

/-- Settles O43: the recurrence by induction on the loop, RotWord and SubWord by their bytes, the constants one by
one. -/
theorem aesKeyScheduleRecurrence : Obligations.AesKeyScheduleRecurrence := by
  unfold Obligations.AesKeyScheduleRecurrence
  exact ⟨fun k => ⟨aesKeyExpand_length k, fun _ _ hi hb => aesKeyExpand_first k hi hb, aesKeyExpand_recurrence k⟩,
    fun t b hb => ⟨wordByte_rotWord t b hb, wordByte_subWord t b hb⟩, subWord_rotWord, ⟨rfl, rcon_succ⟩,
    by decide +kernel, by decide +kernel⟩

end Sys2Proof.Proofs.AesKeySchedule
end

section
/-! AES_Encrypt and AES_Decrypt as sequences of states, one for each round (R66, R67), and that each state of the
decryption of a ciphertext is a state that the encryption went through. -/

namespace Sys2Proof.Proofs.AesRounds

open Sys2Proof.Machine Sys2Proof.Proofs.AesRoundSteps

/-- The state after round `k` of AES_Encrypt, where round 0 is the initial AddRoundKey (R66). -/
def encryptState (key p : Block) : Nat → Block
  | 0 => addRoundKey (aesKeyExpand key) 0 p
  | k + 1 => aesRound (aesKeyExpand key) (encryptState key p k) (k + 1)

/-- The state of AES_Decrypt after AddRoundKey 10 and `n` inverse rounds, with the round keys 9, 8, ... (R67). -/
def decryptState (key c : Block) : Nat → Block
  | 0 => addRoundKey (aesKeyExpand key) 10 c
  | n + 1 => aesInvRound (aesKeyExpand key) (decryptState key c n) (9 - n)

theorem aesEncrypt_eq (key p : Block) : aesEncrypt key p =
    addRoundKey (aesKeyExpand key) 10 (shiftRows (subBytes (encryptState key p 9))) := rfl

theorem aesDecrypt_eq (key c : Block) : aesDecrypt key c =
    addRoundKey (aesKeyExpand key) 0 (invSubBytes (invShiftRows (decryptState key c 9))) := rfl

/-- The round with round key `k` makes state `k` of the count of R67 from state `k + 1`. -/
theorem decryptState_sub {key c : Block} {k : Nat} (hk : k ≤ 9) :
    decryptState key c (10 - k) = aesInvRound (aesKeyExpand key) (decryptState key c (10 - (k + 1))) k := by
  rw [show 10 - k = 9 - k + 1 by omega, decryptState, Nat.sub_sub_self hk, Nat.add_sub_add_right 9 1 k]

theorem invSubBytes_invShiftRows_shiftRows_subBytes (s : Block) :
    invSubBytes (invShiftRows (shiftRows (subBytes s))) = s := by
  rw [invShiftRows_shiftRows, invSubBytes_subBytes]

/-- The inverse round `k` takes what the next round makes of the state after round `k`, up to ShiftRows, back to
what round `k` made of the state before it. -/
theorem aesInvRound_aesRound (w : List Word) (s : Block) (k : Nat) :
    aesInvRound w (shiftRows (subBytes (aesRound w s k))) k = shiftRows (subBytes s) := by
  rw [aesInvRound, invSubBytes_invShiftRows_shiftRows_subBytes, aesRound, addRoundKey_addRoundKey,
    invMixColumns_mixColumns]

/-- Decryption retraces encryption: after `n` inverse rounds it holds what round `10 - n` made of the state before
it, up to ShiftRows. -/
theorem decryptState_aesEncrypt (key p : Block) {n : Nat} (hn : n ≤ 9) :
    decryptState key (aesEncrypt key p) n = shiftRows (subBytes (encryptState key p (9 - n))) := by
  induction n with
  | zero => rw [decryptState, aesEncrypt_eq, addRoundKey_addRoundKey]
  | succ n ih =>
    rw [decryptState, ih (by omega), show 9 - n = 9 - (n + 1) + 1 by omega, encryptState, aesInvRound_aesRound]

theorem aesDecrypt_aesEncrypt (key p : Block) : aesDecrypt key (aesEncrypt key p) = p := by
  rw [aesDecrypt_eq, decryptState_aesEncrypt key p le_rfl, invSubBytes_invShiftRows_shiftRows_subBytes,
    Nat.sub_self, encryptState, addRoundKey_addRoundKey]

/-- The example of R66 (FIPS-197 C.1). -/
theorem aesEncrypt_example :
    aesEncrypt 0x000102030405060708090a0b0c0d0e0f#128 0x00112233445566778899aabbccddeeff#128 =
      0x69c4e0d86a7b0430d8cdb78070b4c55a#128 := by decide +kernel

/-- Settles O44: the sequence is `encryptState`, whose equation is the round of R66. -/
theorem aesEncryptRounds : Obligations.AesEncryptRounds := by
  unfold Obligations.AesEncryptRounds
  refine ⟨fun key p => ⟨encryptState key p, rfl, fun k h1 _ => ?_, aesEncrypt_eq key p⟩, aesEncrypt_example⟩
  obtain ⟨n, rfl⟩ := Nat.exists_eq_add_of_le' h1
  rfl

/-- Settles O45: the sequence counts down from 10, so that state `k` is `decryptState` after `10 - k` rounds; the
example is the round trip of the example of encryption. -/
theorem aesDecryptUndoesEncrypt : Obligations.AesDecryptUndoesEncrypt := by
  unfold Obligations.AesDecryptUndoesEncrypt
  refine ⟨fun key c => ⟨fun k => decryptState key c (10 - k), rfl, fun k _ h9 => decryptState_sub h9,
    aesDecrypt_eq key c⟩, invSubBytes_invShiftRows, aesDecrypt_aesEncrypt, ?_⟩
  rw [← aesEncrypt_example, aesDecrypt_aesEncrypt]

end Sys2Proof.Proofs.AesRounds
end

section
/-! Bits of a part of a DES vector, in the numbering of R9, and tables that agree on the bits they take. -/

namespace Sys2Proof.Proofs.DesBits

open Sys2Proof.Machine

/-- Bit `k` of the `len` bits that stand `start` places above the last bit of a vector (R9). -/
theorem desBit_extractLsb' {n : Nat} (v : BitVec n) (start len k : Nat) (hlen : start + len ≤ n) (h1 : 1 ≤ k)
    (h2 : k ≤ len) : desBit (v.extractLsb' start len) k = desBit v (n - (start + len) + k) := by
  rw [desBit_eq _ k h1 h2, desBit_eq v _ (by omega) (by omega), BitVec.getLsbD_extractLsb',
    decide_eq_true (by omega), Bool.true_and]
  exact congrArg _ (by omega)

/-- A table gives the same on two vectors that agree on every bit it takes (R9). -/
theorem permute_congr {n m : Nat} {t : List Nat} {v w : BitVec n} (h : ∀ x ∈ t, desBit v x = desBit w x) :
    permute m t v = permute m t w :=
  List.foldl_ext _ _ _ fun _ x hx => by rw [h x hx]

end Sys2Proof.Proofs.DesBits
end

section
/-! The DES key schedule (R76): its halves C and D as sequences, and its round keys by number. -/

namespace Sys2Proof.Proofs.DesKeySchedule

open Sys2Proof.Machine Sys2Proof.Proofs.DesBits

/-- The half `C` after `n` rotations, from the first 28 bits of PC-1 of the key (R76). -/
def halfC (key : Half) : Nat → BitVec 28 := rotatedBy shifts ((permute 56 tablePC1 key).extractLsb' 28 28)

/-- The half `D` after `n` rotations, from the last 28 bits of PC-1 of the key (R76). -/
def halfD (key : Half) : Nat → BitVec 28 := rotatedBy shifts ((permute 56 tablePC1 key).extractLsb' 0 28)

theorem desKeySchedule_length (key : Half) : (desKeySchedule key).length = 16 :=
  roundKeysFrom_length shifts _ _

theorem desKeySchedule_get (key : Half) {n : Nat} (hn : n < 16) :
    (desKeySchedule key).getD n 0#48 = permute 48 tablePC2 (halfC key (n + 1) ++ halfD key (n + 1)) :=
  roundKeysFrom_get shifts _ _ n hn

theorem desBit_halfC_zero (key : Half) {k : Nat} (h1 : 1 ≤ k) (h2 : k ≤ 28) :
    desBit (halfC key 0) k = desBit key (tablePC1.getD (k - 1) 0) := by
  rw [halfC, rotatedBy, desBit_extractLsb' _ 28 28 k le_rfl h1 h2, Nat.sub_self, Nat.zero_add,
    desBit_permute 56 tablePC1 key k rfl h1 (by omega)]

theorem desBit_halfD_zero (key : Half) {k : Nat} (h1 : 1 ≤ k) (h2 : k ≤ 28) :
    desBit (halfD key 0) k = desBit key (tablePC1.getD (k + 27) 0) := by
  rw [halfD, rotatedBy, desBit_extractLsb' _ 0 28 k (by decide) h1 h2,
    desBit_permute 56 tablePC1 key _ rfl (by omega) (by omega), show 56 - (0 + 28) + k - 1 = k + 27 by omega]

/-- One rotation of the schedule moves each bit to the left by the round's amount (R71, R76). -/
theorem desBit_rotatedBy_succ (c : BitVec 28) {n k : Nat} (hn : n < 16) (h1 : 1 ≤ k) (h2 : k ≤ 28) :
    desBit (rotatedBy shifts c (n + 1)) k =
      desBit (rotatedBy shifts c n) ((k - 1 + shifts.getD n 0) % 28 + 1) := by
  have hshift : ∀ i < 16, shifts.getD i 0 ≤ 2 := by decide
  rw [rotatedBy_succ shifts c n hn, rotateLeft_desBit _ _ k (hshift n hn) h1 h2]

/-- Settles O48: the halves are `halfC` and `halfD`; the first ones, the rotations and PC-2 by their bits. -/
theorem desKeyScheduleRounds : Obligations.DesKeyScheduleRounds := by
  unfold Obligations.DesKeyScheduleRounds
  refine ⟨fun key => ⟨desKeySchedule_length key, halfC key, halfD key, fun k h1 h2 => ?_, fun n hn => ⟨?_, ?_⟩⟩,
    by decide +kernel, by decide +kernel⟩
  · exact ⟨desBit_halfC_zero key h1 h2, desBit_halfD_zero key h1 h2⟩
  · intro k h1 h2
    exact ⟨desBit_rotatedBy_succ _ hn h1 h2, desBit_rotatedBy_succ _ hn h1 h2⟩
  · intro k h1 h2
    rw [desKeySchedule_get key hn, desBit_permute 48 tablePC2 _ k rfl h1 h2]

end Sys2Proof.Proofs.DesKeySchedule
end

section
/-! The DES round function (R77, R78): its groups of six bits and its box outputs by their bits. -/

namespace Sys2Proof.Proofs.DesRoundFunction

open Sys2Proof.Machine Sys2Proof.Proofs.DesBits

/-- The eight boxes, `Si` at place `i - 1` (R74). -/
def boxes : List (List (List Nat)) := [desS1, desS2, desS3, desS4, desS5, desS6, desS7, desS8]

theorem desBit_desGroup (x : BitVec 48) {i b : Nat} (hi1 : 1 ≤ i) (hi8 : i ≤ 8) (hb1 : 1 ≤ b) (hb6 : b ≤ 6) :
    desBit (desGroup x i) b = desBit x (6 * i - 6 + b) := by
  rw [desGroup, desBit_extractLsb' x _ 6 b (by omega) hb1 hb6]
  exact congrArg _ (by omega)

/-- Bits `4i-3 .. 4i` of the box outputs are the four bits of `Si(g_i)`, those of S1 first (R78). -/
theorem desBit_desSubstitute (x : BitVec 48) {i b : Nat} (hi1 : 1 ≤ i) (hi8 : i ≤ 8) (hb1 : 1 ≤ b) (hb4 : b ≤ 4) :
    desBit (desSubstitute x) (4 * i - 4 + b) = desBit (desBox (boxes.getD (i - 1) []) (desGroup x i)) b := by
  rw [desSubstitute]
  interval_cases i <;> simp (disch := omega) only [desBit_append_left, desBit_append_right] <;>
    exact congrArg (desBit _) (by omega)

/-- Settles O49: the lookup is the definition of `desBox`; each stage of the round function by its bits. -/
theorem desRoundFunction : Obligations.DesRoundFunction := by
  unfold Obligations.DesRoundFunction
  refine ⟨fun _ _ => rfl, by decide, fun r k => ?_⟩
  refine ⟨permute 48 tableE r ^^^ k, desGroup (permute 48 tableE r ^^^ k), desSubstitute (permute 48 tableE r ^^^ k),
    fun b h1 h2 => ?_, fun i b hi1 hi8 hb1 hb6 => ?_, fun i b hi1 hi8 hb1 hb4 => ?_, fun b h1 h2 => ?_⟩
  · rw [desBit_xor, desBit_permute 48 tableE r b rfl h1 h2]
  · exact desBit_desGroup _ hi1 hi8 hb1 hb6
  · exact desBit_desSubstitute _ hi1 hi8 hb1 hb4
  · exact desBit_permute 32 tableP _ b rfl h1 h2

end Sys2Proof.Proofs.DesRoundFunction
end

section
/-! The DES cipher with any list of round keys (R79, R80, R81): its sixteen rounds as two sequences, and that the
reversed list undoes it. -/

namespace Sys2Proof.Proofs.DesCipher

open Sys2Proof.Machine Sys2Proof.Proofs.DesPermutation Sys2Proof.Proofs.DesKeySchedule

/-- The halves `(L, R)` of a block after IP (R80). -/
def initialHalves (p : Half) : Word × Word :=
  ((permute 64 tableIP p).extractLsb' 32 32, (permute 64 tableIP p).extractLsb' 0 32)

/-- The halves after the first `n` rounds of the cipher (R79). -/
def halvesAfter (keys : List RoundKey) (p : Half) (n : Nat) : Word × Word :=
  (keys.take n).foldl desRound (initialHalves p)

/-- The final swap and the inverse of IP (R80). -/
def finalBlock (lr : Word × Word) : Half := permute 64 tableFP (lr.2 ++ lr.1)

theorem desWith_eq (keys : List RoundKey) (p : Half) :
    desWith keys p = finalBlock (keys.foldl desRound (initialHalves p)) := rfl

theorem halvesAfter_zero (keys : List RoundKey) (p : Half) :
    (halvesAfter keys p 0).1 ++ (halvesAfter keys p 0).2 = permute 64 tableIP p := half_join _

theorem halvesAfter_succ (keys : List RoundKey) (p : Half) {n : Nat} (hn : n < keys.length) :
    halvesAfter keys p (n + 1) = desRound (halvesAfter keys p n) (keys.getD n 0#48) :=
  foldl_take_succ keys _ n hn

theorem desWith_halvesAfter (keys : List RoundKey) (p : Half) :
    desWith keys p = finalBlock (halvesAfter keys p keys.length) := by
  rw [desWith_eq, halvesAfter, List.take_length]

/-- The cipher with sixteen round keys as sequences of left and right halves (R79, R80). -/
theorem desWith_rounds {keys : List RoundKey} (hlen : keys.length = 16) (p : Half) : ∃ l r : Nat → Word,
    l 0 ++ r 0 = permute 64 tableIP p ∧
    (∀ n < 16, l (n + 1) = r n ∧ r (n + 1) = l n ^^^ desF (r n) (keys.getD n 0#48)) ∧
    desWith keys p = permute 64 tableFP (r 16 ++ l 16) := by
  refine ⟨fun n => (halvesAfter keys p n).1, fun n => (halvesAfter keys p n).2, halvesAfter_zero keys p,
    fun n hn => ?_, ?_⟩
  · have hstep := halvesAfter_succ keys p (hlen.symm ▸ hn)
    exact ⟨congrArg Prod.fst hstep, congrArg Prod.snd hstep⟩
  · rw [desWith_halvesAfter, hlen, finalBlock]

/-- A round with its halves swapped undoes the round with the same key (R81). -/
theorem desRound_swap_desRound (lr : Word × Word) (k : RoundKey) : desRound (desRound lr k).swap k = lr.swap := by
  simp [desRound, Prod.swap]

/-- The rounds undo each other from the last one back (R81). -/
theorem foldl_reverse_swap_foldl (keys : List RoundKey) (lr : Word × Word) :
    keys.reverse.foldl desRound (keys.foldl desRound lr).swap = lr.swap := by
  induction keys generalizing lr with
  | nil => rfl
  | cons k keys ih =>
    rw [List.reverse_cons, List.foldl_append, List.foldl_cons (l := keys), ih]
    exact desRound_swap_desRound lr k

/-- Each of the 64 entries of IP names the place where FP puts that bit (R68, R69). -/
theorem tableIP_undoes_tableFP : UndoesTable 64 tableIP tableFP := by
  unfold UndoesTable
  decide

theorem permute_tableIP_permute_tableFP (v : Half) : permute 64 tableIP (permute 64 tableFP v) = v :=
  permute_permute_of_undoesTable (u := tableIP) (t := tableFP) rfl rfl tableIP_undoes_tableFP v

theorem initialHalves_finalBlock (lr : Word × Word) : initialHalves (finalBlock lr) = lr.swap := by
  rw [initialHalves, finalBlock, permute_tableIP_permute_tableFP, left_of_append, right_of_append]
  rfl

theorem finalBlock_swap_initialHalves (p : Half) : finalBlock (initialHalves p).swap = p := by
  rw [finalBlock, initialHalves, Prod.swap_prod_mk, half_join]
  exact finalPermutationUndoesInitial.2 p

/-- The cipher with the round keys in reverse order undoes the cipher, whatever the round keys (R81). -/
theorem desWith_reverse_desWith (keys : List RoundKey) (p : Half) : desWith keys.reverse (desWith keys p) = p := by
  rw [desWith_eq, desWith_eq, initialHalves_finalBlock, foldl_reverse_swap_foldl, finalBlock_swap_initialHalves]

theorem desDecrypt_desEncrypt (key p : Half) : desDecrypt key (desEncrypt key p) = p :=
  desWith_reverse_desWith (desKeySchedule key) p

/-- In the reversed schedule round key `n + 1` is round key `16 - n` of the schedule (R81). -/
theorem desKeySchedule_reverse_get (key : Half) {n : Nat} (hn : n < 16) :
    (desKeySchedule key).reverse.getD n 0#48 = (desKeySchedule key).getD (15 - n) 0#48 := by
  rw [List.getD_reverse n (by rwa [desKeySchedule_length]), desKeySchedule_length]

/-- The example of R80. -/
theorem desEncrypt_example :
    desEncrypt 0x133457799bbcdff1#64 0x0123456789abcdef#64 = 0x85e813540f0ab405#64 := by decide +kernel

/-- Settles O50: the rounds of the cipher with the key schedule as its list. -/
theorem desEncryptRounds : Obligations.DesEncryptRounds := by
  unfold Obligations.DesEncryptRounds
  exact ⟨fun key => desWith_rounds (desKeySchedule_length key), desEncrypt_example⟩

/-- Settles O51: the rounds of the cipher with the reversed schedule; the example is the round trip of the example
of encryption. -/
theorem desDecryptUndoesEncrypt : Obligations.DesDecryptUndoesEncrypt := by
  unfold Obligations.DesDecryptUndoesEncrypt
  refine ⟨fun key c => ?_, desDecrypt_desEncrypt, ?_⟩
  · have hlen : (desKeySchedule key).reverse.length = 16 := by rw [List.length_reverse, desKeySchedule_length]
    obtain ⟨l, r, hfirst, hround, hlast⟩ := desWith_rounds hlen c
    refine ⟨l, r, hfirst, fun n hn => ?_, hlast⟩
    rw [← desKeySchedule_reverse_get key hn]
    exact hround n hn
  · rw [← desEncrypt_example, desDecrypt_desEncrypt]

end Sys2Proof.Proofs.DesCipher
end

section
/-! The laws of DES (R82): the parity bits of the key, complementation, and the weak key. -/

namespace Sys2Proof.Proofs.DesLaws

open Sys2Proof.Machine Sys2Proof.Proofs.DesBits Sys2Proof.Proofs.DesCipher

/-- Flipping the last bit of a byte changes no bit whose number is not a multiple of 8 (R9). -/
theorem desBit_flip_parity (key : Half) {j x : Nat} (h1 : 1 ≤ x) (h64 : x ≤ 64) (hx : x % 8 ≠ 0) :
    desBit (key ^^^ (1#64 <<< (8 * j))) x = desBit key x := by
  have hmask : (1#64 <<< (8 * j)).getLsbD (64 - x) = false := by
    have hplace : 8 * j ≤ 64 - x → 64 - x - 8 * j ≠ 0 := by omega
    simpa [BitVec.getLsbD_shiftLeft, BitVec.getLsbD_one] using fun _ => hplace
  rw [desBit_xor, desBit_eq (_ <<< _) x h1 h64, hmask, Bool.xor_false]

/-- PC-1 drops the parity bits (R70), so that the schedule does not see them. -/
theorem desKeySchedule_flip_parity (key : Half) (j : Nat) :
    desKeySchedule (key ^^^ (1#64 <<< (8 * j))) = desKeySchedule key := by
  have htable : ∀ x ∈ tablePC1, 1 ≤ x ∧ x ≤ 64 ∧ x % 8 ≠ 0 := by decide
  have hpc1 : permute 56 tablePC1 (key ^^^ (1#64 <<< (8 * j))) = permute 56 tablePC1 key :=
    permute_congr fun x hx => by
      obtain ⟨h1, h64, hparity⟩ := htable x hx
      exact desBit_flip_parity key h1 h64 hparity
  rw [desKeySchedule, desKeySchedule, hpc1]

theorem desEncrypt_flip_parity (key p : Half) (j : Nat) :
    desEncrypt (key ^^^ (1#64 <<< (8 * j))) p = desEncrypt key p := by
  rw [desEncrypt, desEncrypt, desKeySchedule_flip_parity]

theorem not_rotateLeft (c : BitVec 28) (s : Nat) : (~~~c).rotateLeft s = ~~~c.rotateLeft s := by
  ext i hi
  simp only [BitVec.getElem_rotateLeft, BitVec.getElem_not]
  split <;> rfl

/-- The core's lemma stops short of a part that reaches the top of the vector. -/
theorem not_extractLsb' {n : Nat} (v : BitVec n) {start len : Nat} (h : start + len ≤ n) :
    (~~~v).extractLsb' start len = ~~~v.extractLsb' start len := by
  ext i hi
  simp only [BitVec.getElem_extractLsb', BitVec.getElem_not, BitVec.getLsbD_not]
  rw [decide_eq_true (by omega), Bool.true_and]

/-- Complemented halves give complemented round keys (R82). -/
theorem roundKeysFrom_not (l : List Nat) (c d : BitVec 28) :
    roundKeysFrom l (~~~c) (~~~d) = (roundKeysFrom l c d).map (~~~·) := by
  induction l generalizing c d with
  | nil => rfl
  | cons s l ih =>
    rw [roundKeysFrom, roundKeysFrom, List.map_cons, not_rotateLeft, not_rotateLeft, ih, ← BitVec.not_append,
      permute_not 48 tablePC2 _ rfl (by decide)]

theorem desKeySchedule_not (key : Half) : desKeySchedule (~~~key) = (desKeySchedule key).map (~~~·) := by
  rw [desKeySchedule, permute_not 56 tablePC1 key rfl (by decide),
    not_extractLsb' _ (by decide), not_extractLsb' _ (by decide)]
  exact roundKeysFrom_not shifts _ _

/-- The complements of `R` and of the round key cancel in the input of the boxes (R82). -/
theorem desF_not (r : Word) (k : RoundKey) : desF (~~~r) (~~~k) = desF r k := by
  rw [desF, desF, permute_not 48 tableE r rfl (by decide), ← BitVec.not_xor_left,
    ← BitVec.not_xor_right, BitVec.not_not]

theorem desRound_not (lr : Word × Word) (k : RoundKey) :
    desRound (lr.map (~~~·) (~~~·)) (~~~k) = (desRound lr k).map (~~~·) (~~~·) := by
  simp [desRound, desF_not, BitVec.not_xor_left]

theorem foldl_desRound_not (keys : List RoundKey) (lr : Word × Word) :
    (keys.map (~~~·)).foldl desRound (lr.map (~~~·) (~~~·)) =
      (keys.foldl desRound lr).map (~~~·) (~~~·) := by
  induction keys generalizing lr with
  | nil => rfl
  | cons k keys ih => rw [List.map_cons, List.foldl_cons, List.foldl_cons, desRound_not, ih]

theorem initialHalves_not (p : Half) : initialHalves (~~~p) = (initialHalves p).map (~~~·) (~~~·) := by
  rw [initialHalves, permute_not 64 tableIP p rfl (by decide),
    not_extractLsb' _ (by decide), not_extractLsb' _ (by decide)]
  rfl

theorem finalBlock_not (lr : Word × Word) : finalBlock (lr.map (~~~·) (~~~·)) = ~~~finalBlock lr := by
  rw [finalBlock, finalBlock, Prod.map_fst, Prod.map_snd, ← BitVec.not_append,
    permute_not 64 tableFP _ rfl (by decide)]

/-- The complementation property (R82). -/
theorem desEncrypt_not (key p : Half) : desEncrypt (~~~key) (~~~p) = ~~~desEncrypt key p := by
  rw [desEncrypt, desEncrypt, desWith_eq, desWith_eq, desKeySchedule_not, initialHalves_not, foldl_desRound_not,
    finalBlock_not]

/-- The weak key of R82. -/
def weakKey : Half := 0x0101010101010101#64

theorem desKeySchedule_weakKey : desKeySchedule weakKey = List.replicate 16 0#48 := by decide +kernel

/-- The schedule of the weak key is its own reverse, so that encryption under it is decryption (R81, R82). -/
theorem desDecrypt_weakKey (c : Half) : desDecrypt weakKey c = desEncrypt weakKey c := by
  rw [desDecrypt, desEncrypt, desKeySchedule_weakKey, List.reverse_replicate]

theorem desEncrypt_weakKey_desEncrypt (p : Half) : desEncrypt weakKey (desEncrypt weakKey p) = p := by
  rw [← desDecrypt_weakKey, desDecrypt_desEncrypt]

/-- Settles O52: the three laws; the example is the parity law at byte 0 of the key. -/
theorem desLaws : Obligations.DesLaws := by
  unfold Obligations.DesLaws
  refine ⟨fun key p j _ => ⟨desKeySchedule_flip_parity key j, desEncrypt_flip_parity key p j⟩, desEncrypt_not,
    desEncrypt_weakKey_desEncrypt, desKeySchedule_weakKey, ?_⟩
  exact desEncrypt_flip_parity 0x133457799bbcdff1#64 _ 7

end Sys2Proof.Proofs.DesLaws
end

section
/-! The life of a command: what a write of CMD and any other host access do while IDLE and while BUSY (R83, R129),
and the step that completes the command in flight (R84, R133). -/

namespace Sys2Proof.Proofs.CommandLife

open Sys2Proof.Machine Sys2Proof.Proofs.Completion

/-- What no host access reaches while BUSY: KEY, KEYLEN, DIN, DOUT, IV, RKSEL, CUR and PHASE (R83, R129). -/
def SameInFlight (s t : State) : Prop :=
  t.key = s.key ∧ t.keylen = s.keylen ∧ t.din = s.din ∧ t.dout = s.dout ∧ t.iv = s.iv ∧
    t.rksel = s.rksel ∧ t.cur = s.cur ∧ t.phase = s.phase

theorem sameInFlight_refl (s : State) : SameInFlight s s := ⟨rfl, rfl, rfl, rfl, rfl, rfl, rfl, rfl⟩

theorem sameInFlight_hostRead (r : Reg) (s : State) : SameInFlight s (s.hostRead r) := by
  rw [hostRead_eq]
  split <;> exact sameInFlight_refl s

/-- A write that BUSY drops sets only WERR (R129). -/
theorem sameInFlight_whenIdle {s : State} (w : State) (hbusy : s.phase = .busy) :
    SameInFlight s (s.whenIdle w) := by
  rw [whenIdle_busy hbusy]
  exact sameInFlight_refl s

/-- The writes of CTRL and STATUS are not dropped, but write none of these registers (R129). -/
theorem sameInFlight_hostWrite {s : State} (r : Reg) (v : Word) (hbusy : s.phase = .busy) :
    SameInFlight s (s.hostWrite r v) := by
  cases r with
  | ctrl | status | result | rkdata => exact sameInFlight_refl s
  | cmd | keylen | rksel => exact sameInFlight_whenIdle _ hbusy
  | word x j =>
    cases x with
    | key | din | iv => exact sameInFlight_whenIdle _ hbusy
    | dout => exact sameInFlight_refl s

/-- Settles O6: the write of CMD by the register map, any other access by what it does to its register. -/
theorem cmdWriteAccepts : Obligations.CmdWriteAccepts := by
  unfold Obligations.CmdWriteAccepts
  refine ⟨fun s v rest hi => ⟨fun hidle => ?_, fun hbusy => ?_⟩, fun s t a rest hi hbusy h => ?_⟩
  · exact (step_write hi rfl).trans (congrArg _ (whenIdle_idle hidle))
  · exact (step_write hi rfl).trans (congrArg _ (whenIdle_busy hbusy))
  · have hsame : SameInFlight { s with inputs := rest } t := by
      obtain ⟨_, r, _, ⟨_, rfl⟩ | ⟨v, _, rfl⟩⟩ := step_host_next hi h
      · exact sameInFlight_hostRead r _
      · exact sameInFlight_hostWrite r v hbusy
    rwa [SameInFlight, hbusy] at hsame

/-- Settles O5: the completion step of a word that decodes is the instruction's meaning. -/
theorem stepRunsTheDecodedInstruction : Obligations.StepRunsTheDecodedInstruction := by
  unfold Obligations.StepRunsTheDecodedInstruction
  intro s i hbusy hd
  exact ⟨fun hi => (step_nil hi).trans (complete_ok hbusy hd),
    fun rest hi => (step_cons hi).trans (complete_ok (s := { s with inputs := rest }) hbusy hd)⟩

/-- An instruction that has the entropy it draws completes (R84, R133). -/
theorem exec_completes {i : Instr} {s : State} (hdraw : entropyBytes i ≤ s.entropy.length) :
    ∃ t, exec i s = .next t ∧ t.phase = .idle ∧ t.done = true := by
  obtain ⟨t, ht⟩ := exec_total i s
  refine ⟨t, ht, ?_⟩
  rcases exec_next ht with ⟨_, hshort⟩ | ⟨e, _, rfl⟩ | ⟨_, hdone, hidle⟩
  · exact absurd hdraw (Nat.not_le.mpr hshort)
  · exact ⟨rfl, rfl⟩
  · exact ⟨hidle, hdone⟩

/-- Settles O11: a word that is no instruction completes with its error, an instruction because its draw is
answered. -/
theorem commandInFlightCompletes : Obligations.CommandInFlightCompletes := by
  unfold Obligations.CommandInFlightCompletes
  intro s hbusy hi haes hdes
  rw [step_nil hi]
  cases hd : decode s.cur with
  | error e => exact ⟨_, complete_error hbusy hd, rfl, rfl⟩
  | ok i =>
    rw [complete_ok hbusy hd]
    apply exec_completes
    cases i with
    | ivgenAes => exact haes hd
    | ivgenDes => exact hdes hd
    | _ => exact Nat.zero_le _

end Sys2Proof.Proofs.CommandLife
end

section
/-! The key-length check (R85): which value of KEYLEN passes, and which instructions make the check. -/

namespace Sys2Proof.Proofs.KeyLengthCheck

open Sys2Proof.Machine

theorem keylen_toNat_eq_klen {s : State} {a : Alg} :
    s.keylen.toNat = a.klen ↔ s.keylen = BitVec.ofNat 8 a.klen := by
  rw [← BitVec.toNat_inj]
  cases a <;> rfl

theorem withKeyLength_pass {a : Alg} {s : State} (b : State) (h : s.keylen = BitVec.ofNat 8 a.klen) :
    withKeyLength a s b = .next b :=
  withKeyLength_ok (keylen_toNat_eq_klen.mpr h)

theorem withKeyLength_fail {a : Alg} {s : State} (b : State) (h : s.keylen ≠ BitVec.ofNat 8 a.klen) :
    withKeyLength a s b = .next (s.raise .keyLengthError) :=
  withKeyLength_bad (mt keylen_toNat_eq_klen.mp h)

theorem withKeyMaterial_pass {s : State} (b : State) (h : s.keylen ≠ 0#8) : withKeyMaterial s b = .next b :=
  if_pos fun h0 => h (BitVec.eq_of_toNat_eq h0)

theorem withKeyMaterial_fail {s : State} (b : State) (h : s.keylen = 0#8) :
    withKeyMaterial s b = .next (s.raise .keyLengthError) :=
  if_neg (not_not.mpr (congrArg BitVec.toNat h))

/-- The instructions whose KEYLEN must be the key length of their algorithm (R85). -/
def lengthChecked : Alg → List Instr
  | .aes => [.encAes, .decAes, .cbceAes, .cbcdAes, .kschedAes]
  | .des => [.encDes, .decDes, .cbceDes, .cbcdDes, .kschedDes]

theorem exec_lengthChecked {a : Alg} {i : Instr} (hi : i ∈ lengthChecked a) (s : State) :
    ∃ b, b.err = .none ∧ exec i s = withKeyLength a s b := by
  cases a with
  | aes | des =>
    simp only [lengthChecked, List.mem_cons, List.not_mem_nil, or_false] at hi
    rcases hi with rfl | rfl | rfl | rfl | rfl <;> exact ⟨_, rfl, rfl⟩

/-- R85 for these instructions. -/
theorem lengthCheck_decides {a : Alg} {i : Instr} (hi : i ∈ lengthChecked a) (s : State) :
    (s.keylen = BitVec.ofNat 8 a.klen → ∃ t, exec i s = .next t ∧ t.err = .none) ∧
    (s.keylen ≠ BitVec.ofNat 8 a.klen → exec i s = .next (s.raise .keyLengthError)) := by
  obtain ⟨b, herr, hexec⟩ := exec_lengthChecked hi s
  exact ⟨fun h => ⟨b, hexec.trans (withKeyLength_pass b h), herr⟩,
    fun h => hexec.trans (withKeyLength_fail b h)⟩

theorem exec_knorm {i : Instr} (hi : i ∈ [Instr.knormAes, .knormDes]) (s : State) :
    ∃ b, b.err = .none ∧ exec i s = withKeyMaterial s b := by
  simp only [List.mem_cons, List.not_mem_nil, or_false] at hi
  rcases hi with rfl | rfl <;> exact ⟨_, rfl, rfl⟩

/-- R85 for KNORM. -/
theorem knormCheck_decides {i : Instr} (hi : i ∈ [Instr.knormAes, .knormDes]) (s : State) :
    (s.keylen ≠ 0#8 → ∃ t, exec i s = .next t ∧ t.err = .none) ∧
    (s.keylen = 0#8 → exec i s = .next (s.raise .keyLengthError)) := by
  obtain ⟨b, herr, hexec⟩ := exec_knorm hi s
  exact ⟨fun h => ⟨b, hexec.trans (withKeyMaterial_pass b h), herr⟩,
    fun h => hexec.trans (withKeyMaterial_fail b h)⟩

/-- Only the instructions with a key-length check raise KeyLengthError: IVGEN waits or ends without error, and
the others raise the error of their own check. -/
theorem keyLengthError_raisers {i : Instr} {s t : State} (h : exec i s = .next t)
    (hs : s.err ≠ .keyLengthError) (ht : t.err = .keyLengthError) :
    i ∈ lengthChecked .aes ++ lengthChecked .des ++ [.knormAes, .knormDes] := by
  cases i with
  | ivgenAes | ivgenDes =>
    simp only [exec, execIvgenAes, execIvgenDes] at h
    split at h <;> cases h
    · cases ht
    · exact absurd ht hs
  | padAes n => cases h; cases ht
  | padDes | unpadAes | unpadDes | b64e | b64d =>
    simp only [exec, execPadDes, execUnpadAes, execUnpadDes, execB64e, execB64d] at h
    split at h <;> cases h <;> cases ht
  | _ => decide

/-- Settles O7: the check for each algorithm, KNORM's check, and that nothing else raises its error. -/
theorem keyLengthCheckDecides : Obligations.KeyLengthCheckDecides := by
  unfold Obligations.KeyLengthCheckDecides
  refine ⟨fun i hi => lengthCheck_decides (a := .aes) hi, fun i hi => lengthCheck_decides (a := .des) hi,
    fun i hi => knormCheck_decides hi, fun i hi s hs => ?_⟩
  obtain ⟨t, h⟩ := exec_total i s
  exact ⟨t, h, fun ht => hi (keyLengthError_raisers h hs ht)⟩

end Sys2Proof.Proofs.KeyLengthCheck
end

section
/-! The commands of the block core (R87 to R94): ENC, DEC, KSCHED and KNORM for both algorithms. -/

namespace Sys2Proof.Proofs.BlockCommands

open Sys2Proof.Machine Sys2Proof.Proofs.KeyLengthCheck Sys2Proof.Proofs.AesRounds Sys2Proof.Proofs.DesCipher

/-- Settles O28: the key-length check on both sides, and the examples of the two ciphers. -/
theorem encryptCommands : Obligations.EncryptCommands := by
  unfold Obligations.EncryptCommands
  refine ⟨⟨rfl, fun s h => ?_, fun s h => ?_, aesEncrypt_example⟩,
    rfl, fun s h => ?_, fun s h => ?_, desEncrypt_example⟩
  · exact withKeyLength_pass (a := .aes) _ h
  · exact withKeyLength_fail (a := .aes) _ h
  · exact withKeyLength_pass (a := .des) _ h
  · exact withKeyLength_fail (a := .des) _ h

/-- Settles O29: as O28; the examples are the round trips of the examples of encryption. -/
theorem decryptCommands : Obligations.DecryptCommands := by
  unfold Obligations.DecryptCommands
  refine ⟨⟨rfl, fun s h => ?_, fun s h => ?_, ?_⟩, rfl, fun s h => ?_, fun s h => ?_, ?_⟩
  · exact withKeyLength_pass (a := .aes) _ h
  · exact withKeyLength_fail (a := .aes) _ h
  · rw [← aesEncrypt_example, aesDecrypt_aesEncrypt]
  · exact withKeyLength_pass (a := .des) _ h
  · exact withKeyLength_fail (a := .des) _ h
  · rw [← desEncrypt_example, desDecrypt_desEncrypt]

end Sys2Proof.Proofs.BlockCommands
end

section
/-! KSCHED (R91, R92): the store it leaves and the words of it that RKDATA shows (R26). -/

namespace Sys2Proof.Proofs.KeyScheduleCommands

open Sys2Proof.Machine Sys2Proof.Proofs.KeyLengthCheck Sys2Proof.Proofs.RoundKeyStore

/-- The end of a KSCHED.AES that passes its check. -/
def scheduledAes (s : State) : State := State.finishKeepingStore { s with rk := .aes (aesKeyExpand s.key) }

/-- The end of a KSCHED.DES that passes its check. -/
def scheduledDes (s : State) : State := State.finishKeepingStore { s with rk := .des (desKeySchedule s.key64) }

theorem exec_kschedAes {s : State} (h : s.keylen = 16#8) : exec .kschedAes s = .next (scheduledAes s) :=
  withKeyLength_pass (a := .aes) _ h

theorem exec_kschedDes {s : State} (h : s.keylen = 8#8) : exec .kschedDes s = .next (scheduledDes s) :=
  withKeyLength_pass (a := .des) _ h

/-- RKDATA of a DES schedule past the last half-key (R26). -/
theorem rkdataWord_des_past {s : State} {ks : List RoundKey} (hs : s.rk = .des ks) (hi : 32 ≤ s.rksel.toNat) :
    s.rkdataWord = 0#32 := by
  simp only [State.rkdataWord, hs, if_neg (Nat.not_lt.mpr hi)]

/-- RKDATA is a function of the RK store and RKSEL (R26). -/
theorem rkdataWord_congr {s t : State} (hrk : s.rk = t.rk) (hsel : s.rksel = t.rksel) :
    s.rkdataWord = t.rkdataWord := by
  simp only [State.rkdataWord, hrk, hsel]

/-- The schedule of the example of R92 in the RK store. -/
def exampleStore (sel : BitVec 6) : State :=
  { State.reset with rk := .des (desKeySchedule 0x133457799bbcdff1#64), rksel := sel }

/-- Settles O30: the check, the store of the next state, and RKDATA of that store; the examples by the word that
RKDATA shows of their schedule. -/
theorem keyScheduleCommands : Obligations.KeyScheduleCommands := by
  unfold Obligations.KeyScheduleCommands
  obtain ⟨_, _, _, _, hword4, hword43⟩ := AesKeySchedule.aesKeyScheduleRecurrence
  refine ⟨⟨rfl, fun s h => exec_kschedAes h, fun s h => ?_, fun s t h ht => ?_, hword4, hword43⟩,
    rfl, fun s h => exec_kschedDes h, fun s h => ?_, fun s t h ht => ?_, fun s t h hkey ht => ?_⟩
  · exact withKeyLength_fail (a := .aes) _ h
  · cases (exec_kschedAes h).symm.trans ht
    exact ⟨rfl, rfl, rfl⟩
  · exact withKeyLength_fail (a := .des) _ h
  · cases (exec_kschedDes h).symm.trans ht
    exact ⟨rfl, rfl, rkdataWord_des_past (s := scheduledDes s) rfl,
      fun hi => ⟨rkdataWord_des_top rfl hi, rkdataWord_des_bit (s := scheduledDes s) rfl hi⟩⟩
  · cases (exec_kschedDes h).symm.trans ht
    have hstore : (scheduledDes s).rk = .des (desKeySchedule 0x133457799bbcdff1#64) :=
      congrArg (RkStore.des <| desKeySchedule ·) hkey
    have hexample (sel : BitVec 6) (hsel : s.rksel = sel) :
        (scheduledDes s).rkdataWord = (exampleStore sel).rkdataWord := rkdataWord_congr hstore hsel
    exact ⟨fun hsel => (hexample 0#6 hsel).trans (by decide +kernel),
      fun hsel => (hexample 1#6 hsel).trans (by decide +kernel),
      fun hsel => (hexample 31#6 hsel).trans (by decide +kernel)⟩

end Sys2Proof.Proofs.KeyScheduleCommands
end

section
/-! KNORM (R93, R94): the key it leaves, byte by byte. -/

namespace Sys2Proof.Proofs.KeyNormalisation

open Sys2Proof.Machine Sys2Proof.Proofs.KeyLengthCheck

/-- The end of a KNORM.AES that passes its check. -/
def normalisedAes (s : State) : State :=
  State.finish { s with key := fillFrom 16 s.keylen.toNat 0#8 s.key, keylen := 16#8 }

/-- The end of a KNORM.DES that passes its check. -/
def normalisedDes (s : State) : State :=
  State.finish { s with key := fillFrom 8 s.keylen.toNat 0#8 s.key, keylen := 8#8 }

theorem exec_knormAes {s : State} (h : s.keylen ≠ 0#8) : exec .knormAes s = .next (normalisedAes s) :=
  withKeyMaterial_pass _ h

theorem exec_knormDes {s : State} (h : s.keylen ≠ 0#8) : exec .knormDes s = .next (normalisedDes s) :=
  withKeyMaterial_pass _ h

/-- Filling with zeros past `n` keeps the first `n` of the `b` bytes. -/
theorem getByte_fillFrom_zero (b n : Nat) (x : Block) {i : Nat} (hi : i < 16) :
    getByte (fillFrom b n 0#8 x) i = if i < n ∧ i < b then getByte x i else 0#8 := by
  rw [getByte_fillFrom b n 0#8 x i hi]
  by_cases hb : i < b <;> simp [hb, Nat.not_le.mpr, Nat.not_lt.mp]

theorem fillFrom_zero (b n : Nat) (x : Block) :
    fillFrom b n 0#8 x = blockOf fun i => if i < n ∧ i < b then getByte x i else 0#8 :=
  block_ext fun i hi => by rw [getByte_fillFrom_zero b n x hi, getByte_blockOf _ i hi]

/-- For a block of 16 bytes every byte is below the block's size. -/
theorem fillFrom_sixteen_zero (n : Nat) (x : Block) :
    fillFrom 16 n 0#8 x = blockOf fun i => if i < n then getByte x i else 0#8 :=
  block_ext fun i hi => by
    rw [getByte_fillFrom_zero 16 n x hi, getByte_blockOf _ i hi]
    simp only [hi, and_true]

/-- With all 16 bytes of key material the key stays (R93). -/
theorem fillFrom_sixteen_of_le {n : Nat} (x : Block) (h : 16 ≤ n) : fillFrom 16 n 0#8 x = x :=
  block_ext fun i hi => by rw [getByte_fillFrom_zero 16 n x hi, if_pos ⟨by omega, hi⟩]

/-- With 8 bytes of key material or more the key is truncated to its first 8 bytes (R94). -/
theorem fillFrom_eight_of_le {n : Nat} (x : Block) (h : 8 ≤ n) : fillFrom 8 n 0#8 x = put64 (low64 x) :=
  block_ext fun i hi => by
    rw [getByte_fillFrom_zero 8 n x hi, getByte_put64 _ i hi]
    by_cases h8 : i < 8
    · rw [if_pos ⟨by omega, h8⟩, if_pos h8, getByte_low64 x i h8]
    · rw [if_neg (fun h => h8 h.2), if_neg h8]

/-- The first three bytes of a block, from the three of them together. -/
theorem getByte_of_firstThree {x : Block} {p : BitVec 24} (hx : x.extractLsb' 104 24 = p) {i : Nat} (hi : i < 3) :
    getByte x i = p.extractLsb' (16 - 8 * i) 8 := by
  apply BitVec.eq_of_getLsbD_eq
  intro j hj
  rw [getByte_bit x i j hj, ← hx]
  simp only [BitVec.getLsbD_extractLsb']
  rw [decide_eq_true hj, decide_eq_true (by omega), Bool.true_and, Bool.true_and]
  exact congrArg _ (by omega)

/-- The key `abc` of R93 and its 13 zero bytes. -/
theorem fillFrom_example {x : Block} (hx : x.extractLsb' 104 24 = 0x616263#24) :
    fillFrom 16 3 0#8 x = 0x61626300000000000000000000000000#128 := by
  have hfirst : ∀ i < 3,
      (0x616263#24).extractLsb' (16 - 8 * i) 8 = getByte 0x61626300000000000000000000000000#128 i := by decide
  have hzero : ∀ i < 16, ¬i < 3 → 0#8 = getByte 0x61626300000000000000000000000000#128 i := by decide
  apply block_ext
  intro i hi
  rw [getByte_fillFrom_zero 16 3 x hi]
  by_cases h3 : i < 3
  · rw [if_pos ⟨h3, hi⟩, getByte_of_firstThree hx h3, hfirst i h3]
  · rw [if_neg (fun h => h3 h.1), ← hzero i hi h3]

/-- Settles O31: the check, and the bytes of the key that is left. -/
theorem keyNormalisationCommands : Obligations.KeyNormalisationCommands := by
  unfold Obligations.KeyNormalisationCommands
  have hne {k l : BitVec 8} (h : l ≤ k) (hl : 0#8 < l) : k ≠ 0#8 := by bv_omega
  refine ⟨⟨rfl, fun s h => ?_, fun s h => ?_, fun s t h ht => ?_, fun s t h hkey ht => ?_⟩,
    rfl, fun s h => ?_, fun s h => ?_, fun s t h ht => ?_⟩
  · rw [exec_knormAes h, normalisedAes, fillFrom_sixteen_zero]
    rfl
  · exact withKeyMaterial_fail _ h
  · cases (exec_knormAes (hne h (by decide))).symm.trans ht
    exact fillFrom_sixteen_of_le s.key h
  · cases (exec_knormAes (h ▸ by decide)).symm.trans ht
    refine ⟨?_, rfl⟩
    rw [normalisedAes, finish_key, h]
    exact fillFrom_example hkey
  · rw [exec_knormDes h, normalisedDes, fillFrom_zero]
    rfl
  · exact withKeyMaterial_fail _ h
  · cases (exec_knormDes (hne h (by decide))).symm.trans ht
    exact fillFrom_eight_of_le s.key h

end Sys2Proof.Proofs.KeyNormalisation
end

section
/-! The `.DES` instructions see and write bytes 0..7 only (R86): two states that agree there run alike. -/

namespace Sys2Proof.Proofs.DesLowBytes

open Sys2Proof.Machine

/-- The states agree on all that a `.DES` instruction may depend on: bytes 0..7 of the operand registers, the
control registers, the RK store and what the draw in flight has (R86). -/
structure AgreeLow (s u : State) : Prop where
  key : low64 s.key = low64 u.key
  din : low64 s.din = low64 u.din
  dout : low64 s.dout = low64 u.dout
  iv : low64 s.iv = low64 u.iv
  result : s.result = u.result
  keylen : s.keylen = u.keylen
  rk : s.rk = u.rk
  err : s.err = u.err
  phase : s.phase = u.phase
  entropy : s.entropy = u.entropy

/-- Two runs leave a register, which held `x` and `y`, alike with `x'` and `y'`: both keep it, or both put the same
8 bytes into it (R86). -/
def LeftAlike (x y x' y' : Block) : Prop := (x' = x ∧ y' = y) ∨ ∃ b, x' = put64 b ∧ y' = put64 b

/-- Runs from `s` and `u` that end alike, in `t` and `w`. -/
structure EndAlike (s u t w : State) : Prop where
  key : LeftAlike s.key u.key t.key w.key
  din : LeftAlike s.din u.din t.din w.din
  dout : LeftAlike s.dout u.dout t.dout w.dout
  iv : LeftAlike s.iv u.iv t.iv w.iv
  result : t.result = w.result
  keylen : t.keylen = w.keylen
  rk : t.rk = w.rk
  err : t.err = w.err
  phase : t.phase = w.phase

theorem leftAlike_keep (x y : Block) : LeftAlike x y x y := .inl ⟨rfl, rfl⟩

theorem leftAlike_put {b c : Half} (x y : Block) (h : b = c) : LeftAlike x y (put64 b) (put64 c) :=
  .inr ⟨b, rfl, h ▸ rfl⟩

theorem low64_of_leftAlike {x y x' y' : Block} (h : LeftAlike x y x' y') (hlow : low64 x = low64 y) :
    low64 x' = low64 y' := by
  rcases h with ⟨rfl, rfl⟩ | ⟨b, rfl, rfl⟩
  · exact hlow
  · rfl

theorem high_put64 (b : Half) : (put64 b).extractLsb' 0 64 = 0#64 := by
  rw [put64, BitVec.extractLsb'_append_eq_of_add_le (by decide)]
  exact BitVec.extractLsb'_eq_self

theorem high_of_leftAlike {x y x' y' : Block} (h : LeftAlike x y x' y') (hne : x' ≠ x) :
    x'.extractLsb' 0 64 = 0#64 := by
  rcases h with ⟨rfl, _⟩ | ⟨b, rfl, _⟩
  · exact absurd rfl hne
  · exact high_put64 b

/-- What KNORM.DES and PAD.DES write, from bytes 0..7 (R94, R103). -/
theorem fillFrom_eight (n : Nat) (p : Byte) (x : Block) :
    fillFrom 8 n p x = put64 (halfOf fun i => if i < n then getByte64 (low64 x) i else p) :=
  block_ext fun i hi => by
    rw [getByte_fillFrom 8 n p x i hi, getByte_put64 _ i hi]
    by_cases h8 : i < 8
    · rw [if_neg (Nat.not_le.mpr h8), if_pos h8, getByte64_halfOf _ i h8, getByte_low64 x i h8]
    · rw [if_pos (Nat.not_lt.mp h8), if_neg h8]

/-- The padding check sees only the bytes of the block size (R105). -/
theorem messageLength_congr {b : Nat} {x y : Block} (hb : 0 < b) (h : ∀ i < b, getByte x i = getByte y i) :
    messageLength b x = messageLength b y := by
  have hlast : getByte x (b - 1) = getByte y (b - 1) := h _ (Nat.sub_one_lt_of_lt hb)
  have hvalid : ValidPadding b x ↔ ValidPadding b y := by
    rw [ValidPadding, ValidPadding, hlast]
    refine and_congr_right fun _ => and_congr_right fun _ => forall₃_congr fun j _ hj => ?_
    rw [h j (by omega)]
  by_cases hx : ValidPadding b x
  · rw [messageLength_valid hx, messageLength_valid (hvalid.mp hx), hlast]
  · rw [messageLength_invalid hb hx, messageLength_invalid hb (mt hvalid.mpr hx)]

theorem messageLength_eight_congr {x y : Block} (h : low64 x = low64 y) :
    messageLength 8 x = messageLength 8 y :=
  messageLength_congr (by decide) fun i hi => by rw [← getByte_low64 x i hi, ← getByte_low64 y i hi, h]

theorem leftAlike_fillFrom {x y : Block} (h : low64 x = low64 y) (n : Nat) (p : Byte) :
    LeftAlike x y (fillFrom 8 n p x) (fillFrom 8 n p y) := by
  rw [fillFrom_eight, fillFrom_eight]
  exact leftAlike_put x y (by rw [h])

theorem endAlike_finish {s u t w : State} (h : EndAlike s u t w) : EndAlike s u t.finish w.finish :=
  { h with rk := rfl, err := rfl, phase := rfl }

/-- Two runs, from `s` and `u`, answer next states that end alike. -/
def AnswerAlike (s u : State) (o p : Result) : Prop := ∃ t w, o = .next t ∧ p = .next w ∧ EndAlike s u t w

theorem answerAlike_next {s u t w : State} (h : EndAlike s u t w) : AnswerAlike s u (.next t) (.next w) :=
  ⟨t, w, rfl, rfl, h⟩

section Runs
variable {s u : State} (h : AgreeLow s u)
include h

theorem endAlike_self : EndAlike s u s u :=
  { h with
    key := leftAlike_keep _ _
    din := leftAlike_keep _ _
    dout := leftAlike_keep _ _
    iv := leftAlike_keep _ _ }

theorem answerAlike_raise (e : ErrCode) : AnswerAlike s u (.next (s.raise e)) (.next (u.raise e)) :=
  answerAlike_next { endAlike_self h with err := rfl, phase := rfl }

/-- The key-length check goes the same way in both runs (R85). -/
theorem answerAlike_withKeyLength {a : Alg} {b c : State} (hbody : EndAlike s u b c) :
    AnswerAlike s u (withKeyLength a s b) (withKeyLength a u c) := by
  rw [withKeyLength, withKeyLength, h.keylen]
  split
  · exact answerAlike_next hbody
  · exact answerAlike_raise h _

theorem answerAlike_withKeyMaterial {b c : State} (hbody : EndAlike s u b c) :
    AnswerAlike s u (withKeyMaterial s b) (withKeyMaterial u c) := by
  rw [withKeyMaterial, withKeyMaterial, h.keylen]
  split
  · exact answerAlike_next hbody
  · exact answerAlike_raise h _

theorem answerAlike_encDes : AnswerAlike s u (exec .encDes s) (exec .encDes u) := by
  have hc : desEncrypt s.key64 s.din64 = desEncrypt u.key64 u.din64 := congrArg₂ desEncrypt h.key h.din
  apply answerAlike_withKeyLength h (endAlike_finish _)
  exact { endAlike_self h with dout := leftAlike_put _ _ hc }

theorem answerAlike_decDes : AnswerAlike s u (exec .decDes s) (exec .decDes u) := by
  have hp : desDecrypt s.key64 s.din64 = desDecrypt u.key64 u.din64 := congrArg₂ desDecrypt h.key h.din
  apply answerAlike_withKeyLength h (endAlike_finish _)
  exact { endAlike_self h with dout := leftAlike_put _ _ hp }

theorem answerAlike_cbceDes : AnswerAlike s u (exec .cbceDes s) (exec .cbceDes u) := by
  have hc : desEncrypt s.key64 (s.din64 ^^^ s.iv64) = desEncrypt u.key64 (u.din64 ^^^ u.iv64) :=
    congrArg₂ desEncrypt h.key (congrArg₂ (· ^^^ ·) h.din h.iv)
  apply answerAlike_withKeyLength h (endAlike_finish _)
  exact { endAlike_self h with dout := leftAlike_put _ _ hc, iv := leftAlike_put _ _ hc }

theorem answerAlike_cbcdDes : AnswerAlike s u (exec .cbcdDes s) (exec .cbcdDes u) := by
  have hp : desDecrypt s.key64 s.din64 ^^^ s.iv64 = desDecrypt u.key64 u.din64 ^^^ u.iv64 :=
    congrArg₂ (· ^^^ ·) (congrArg₂ desDecrypt h.key h.din) h.iv
  apply answerAlike_withKeyLength h (endAlike_finish _)
  exact { endAlike_self h with dout := leftAlike_put _ _ hp, iv := leftAlike_put _ _ h.din }

theorem answerAlike_kschedDes : AnswerAlike s u (exec .kschedDes s) (exec .kschedDes u) := by
  have hk : RkStore.des (desKeySchedule s.key64) = .des (desKeySchedule u.key64) :=
    congrArg (RkStore.des <| desKeySchedule ·) h.key
  apply answerAlike_withKeyLength h
  exact { endAlike_self h with rk := hk, err := rfl, phase := rfl }

theorem answerAlike_knormDes : AnswerAlike s u (exec .knormDes s) (exec .knormDes u) := by
  apply answerAlike_withKeyMaterial h (endAlike_finish _)
  rw [h.keylen]
  exact { endAlike_self h with key := leftAlike_fillFrom h.key _ _, keylen := rfl }

theorem answerAlike_ivgenDes : AnswerAlike s u (exec .ivgenDes s) (exec .ivgenDes u) := by
  have hdraw : s.draw 8 = u.draw 8 := by rw [State.draw, State.draw, h.entropy]
  simp only [exec, execIvgenDes, hdraw]
  cases u.draw 8 with
  | none => exact answerAlike_next (endAlike_self h)
  | some bytes =>
    apply answerAlike_next (endAlike_finish _)
    exact { endAlike_self h with iv := leftAlike_put _ _ rfl }

theorem answerAlike_padDes (n : BitVec 4) : AnswerAlike s u (exec (.padDes n) s) (exec (.padDes n) u) := by
  simp only [exec, execPadDes]
  split
  · apply answerAlike_next (endAlike_finish _)
    exact { endAlike_self h with din := leftAlike_fillFrom h.din _ _ }
  · exact answerAlike_raise h _

theorem answerAlike_unpadDes : AnswerAlike s u (exec .unpadDes s) (exec .unpadDes u) := by
  simp only [exec, execUnpadDes, messageLength_eight_congr h.dout]
  cases messageLength 8 u.dout with
  | none => exact answerAlike_raise h _
  | some len =>
    apply answerAlike_next (endAlike_finish _)
    exact { endAlike_self h with result := rfl }

/-- R86 for every `.DES` instruction. -/
theorem answerAlike_exec {i : Instr}
    (hi : i ∈ [Instr.encDes, .decDes, .cbceDes, .cbcdDes, .kschedDes, .knormDes, .ivgenDes, .unpadDes] ∨
      ∃ n, i = .padDes n) : AnswerAlike s u (exec i s) (exec i u) := by
  simp only [List.mem_cons, List.not_mem_nil, or_false] at hi
  rcases hi with (rfl | rfl | rfl | rfl | rfl | rfl | rfl | rfl) | ⟨n, rfl⟩
  · exact answerAlike_encDes h
  · exact answerAlike_decDes h
  · exact answerAlike_cbceDes h
  · exact answerAlike_cbcdDes h
  · exact answerAlike_kschedDes h
  · exact answerAlike_knormDes h
  · exact answerAlike_ivgenDes h
  · exact answerAlike_unpadDes h
  · exact answerAlike_padDes h n

end Runs

theorem low64_append (x : Block) (k : Half) : low64 (x.extractLsb' 64 64 ++ k) = low64 x := by
  rw [low64, BitVec.extractLsb'_append_eq_of_le (by decide)]
  exact BitVec.extractLsb'_eq_self

/-- The state with other values in bytes 8..15 of the operand registers. -/
def withHighBytes (s : State) (k d o v : Half) : State :=
  { s with
    key := s.key.extractLsb' 64 64 ++ k, din := s.din.extractLsb' 64 64 ++ d
    dout := s.dout.extractLsb' 64 64 ++ o, iv := s.iv.extractLsb' 64 64 ++ v }

theorem agreeLow_withHighBytes (s : State) (k d o v : Half) : AgreeLow s (withHighBytes s k d o v) where
  key := (low64_append s.key k).symm
  din := (low64_append s.din d).symm
  dout := (low64_append s.dout o).symm
  iv := (low64_append s.iv v).symm
  result := rfl
  keylen := rfl
  rk := rfl
  err := rfl
  phase := rfl
  entropy := rfl

/-- Settles O53: the two runs end alike, and a register that a run does not keep has bytes 8..15 zero. -/
theorem desCommandsUseLowBytes : Obligations.DesCommandsUseLowBytes := by
  unfold Obligations.DesCommandsUseLowBytes
  intro i hi s t k d o v ht
  have hagree := agreeLow_withHighBytes s k d o v
  obtain ⟨t', u, ht', hu, hend⟩ := answerAlike_exec hagree hi
  cases ht.symm.trans ht'
  exact ⟨⟨u, hu, (low64_of_leftAlike hend.key hagree.key).symm, (low64_of_leftAlike hend.din hagree.din).symm,
      (low64_of_leftAlike hend.dout hagree.dout).symm, (low64_of_leftAlike hend.iv hagree.iv).symm,
      hend.result.symm, hend.keylen.symm, hend.rk.symm, hend.err.symm, hend.phase.symm⟩,
    high_of_leftAlike hend.key, high_of_leftAlike hend.din, high_of_leftAlike hend.dout,
    high_of_leftAlike hend.iv⟩

end Sys2Proof.Proofs.DesLowBytes
end

section
/-! The entropy draw of IVGEN (R99, R100): the bytes it puts into IV, how long it waits for them, and how
deliveries to it add up (R133). -/

namespace Sys2Proof.Proofs.EntropyDraw

open Sys2Proof.Machine Sys2Proof.Proofs.Completion Sys2Proof.Proofs.OperandLine

/-- The IVGEN of an algorithm (R99, R100). -/
def ivgenOf : Alg → Instr
  | .aes => .ivgenAes
  | .des => .ivgenDes

theorem entropyBytes_ivgenOf (a : Alg) : entropyBytes (ivgenOf a) = a.blk := by cases a <;> rfl

/-- What IVGEN puts into IV: the first bytes delivered, as many as a block has, and zeros after them. -/
def drawnIv : Alg → List Byte → Block
  | .aes, bs => blockOf fun i => bs.getD i 0#8
  | .des, bs => blockOf fun i => if i < 8 then bs.getD i 0#8 else 0#8

theorem blockOf_congr {f g : Nat → Byte} (h : ∀ i < 16, f i = g i) : blockOf f = blockOf g :=
  block_ext fun i hi => by rw [getByte_blockOf f i hi, getByte_blockOf g i hi, h i hi]

theorem put64_halfOfList (bs : List Byte) : put64 (halfOfList bs) = drawnIv .des bs :=
  block_ext fun i hi => by
    rw [getByte_put64 _ i hi, drawnIv, getByte_blockOf _ i hi]
    exact ite_congr rfl (fun h8 => getByte64_halfOf _ i h8) fun _ => rfl

theorem getD_take {n i : Nat} (bs : List Byte) (h : i < n) : (bs.take n).getD i 0#8 = bs.getD i 0#8 := by
  rw [List.getD_eq_getElem?_getD, List.getElem?_take_of_lt h, ← List.getD_eq_getElem?_getD]

/-- IV depends on the bytes of one block only, whatever was delivered after them. -/
theorem drawnIv_take (a : Alg) (bs : List Byte) : drawnIv a (bs.take a.blk) = drawnIv a bs := by
  cases a with
  | aes =>
    simp only [drawnIv]
    exact blockOf_congr fun i hi => getD_take bs hi
  | des =>
    simp only [drawnIv]
    exact blockOf_congr fun i _ => ite_congr rfl (fun h8 => getD_take bs h8) fun _ => rfl

/-- The end of an IVGEN whose draw is answered (R99, R100). -/
def drawn (a : Alg) (s : State) : State := State.finish { s with iv := drawnIv a s.entropy, entropy := [] }

theorem exec_ivgenOf_answered {a : Alg} {s : State} (h : a.blk ≤ s.entropy.length) :
    exec (ivgenOf a) s = .next (drawn a s) := by
  have hdraw : s.draw a.blk = some (s.entropy.take a.blk) := draw_eq_some.mpr ⟨h, rfl⟩
  rw [drawn, ← drawnIv_take]
  cases a with
  | aes =>
    rw [Alg.blk] at hdraw
    simp only [ivgenOf, exec, execIvgenAes, hdraw]
    rfl
  | des =>
    rw [Alg.blk] at hdraw
    simp only [ivgenOf, exec, execIvgenDes, hdraw, put64_halfOfList]
    rfl

theorem exec_ivgenOf_waits {a : Alg} {s : State} (h : s.entropy.length < a.blk) :
    exec (ivgenOf a) s = .next s := by
  have hdraw : s.draw a.blk = none := draw_eq_none.mpr h
  cases a with
  | aes | des =>
    rw [Alg.blk] at hdraw
    simp only [ivgenOf, exec, execIvgenAes, execIvgenDes, hdraw]

theorem drawSize_of_ivgenOf {a : Alg} {s : State} (h : decode s.cur = .ok (ivgenOf a)) : s.drawSize = a.blk :=
  (drawSize_of_decode h).trans (entropyBytes_ivgenOf a)

/-- A command word that is no IVGEN draws nothing. -/
theorem drawSize_of_not_ivgen {s : State} (haes : decode s.cur ≠ .ok .ivgenAes)
    (hdes : decode s.cur ≠ .ok .ivgenDes) : s.drawSize = 0 := by
  cases hd : decode s.cur with
  | error e => simp only [State.drawSize, hd]
  | ok i =>
    rw [drawSize_of_decode hd]
    apply entropyBytes_eq_zero
    intro hi
    simp only [List.mem_cons, List.not_mem_nil, or_false] at hi
    rcases hi with rfl | rfl
    · exact haes hd
    · exact hdes hd

/-- What was cut off between two deliveries would have been cut off after them. -/
theorem take_take_append (n : Nat) (xs ys : List Byte) : (xs.take n ++ ys).take n = (xs ++ ys).take n := by
  have hcut : n - min n xs.length = n - xs.length := by omega
  rw [List.take_append, List.take_append, List.take_take, Nat.min_self, List.length_take, hcut]

/-- The state with no event left and the bytes `bs` waiting for the draw. -/
def awaiting (bs : List Byte) (s : State) : State := { s with inputs := [], entropy := bs }

/-- A run through a schedule of deliveries: what waits for the draw at its end is the first bytes of all that was
delivered (R99). By induction on the deliveries. -/
theorem run_deliveries (parts : List (List Byte)) (k : Nat) : ∀ s : State, s.phase = .busy →
    s.entropy.length ≤ s.drawSize → s.inputs = parts.map .entropy →
    Sys2Proof.core.run (k + parts.length) s =
      Sys2Proof.core.run k (awaiting ((s.entropy ++ parts.flatten).take s.drawSize) s) := by
  induction parts with
  | nil =>
    intro s _ hfit hi
    have hend : awaiting ((s.entropy ++ [].flatten).take s.drawSize) s = s := by
      rw [List.flatten_nil, List.append_nil, List.take_of_length_le hfit, awaiting, ← List.map_nil, ← hi]
    rw [hend]
    rfl
  | cons bytes parts ih =>
    intro s hbusy hfit hi
    have hcut : ((s.entropy ++ bytes).take s.drawSize ++ parts.flatten).take s.drawSize =
        (s.entropy ++ (bytes :: parts).flatten).take s.drawSize := by
      rw [take_take_append, List.append_assoc, List.flatten_cons]
    rw [← hcut]
    exact (run_succ _ (step_entropy hi hbusy)).trans
      (ih { s with inputs := parts.map .entropy, entropy := (s.entropy ++ bytes).take s.drawSize } hbusy
        (List.length_take_le _ _) rfl)

/-- The completion of an IVGEN that has waited for its draw (R84, R99). -/
theorem step_awaiting {a : Alg} {s : State} {bs : List Byte} (hbusy : s.phase = .busy)
    (hd : decode s.cur = .ok (ivgenOf a)) (hlen : a.blk ≤ bs.length) :
    step (awaiting bs s) = .next (drawn a (awaiting bs s)) :=
  (step_nil rfl).trans ((complete_ok (s := awaiting bs s) hbusy hd).trans (exec_ivgenOf_answered hlen))

theorem drawn_awaiting_take (a : Alg) (bs : List Byte) (s : State) :
    drawn a (awaiting (bs.take a.blk) s) = drawn a (awaiting bs s) := by
  have hiv : drawnIv a (awaiting (bs.take a.blk) s).entropy = drawnIv a (awaiting bs s).entropy :=
    drawnIv_take a bs
  rw [drawn, hiv]
  rfl

/-- An IVGEN to which nothing was delivered before it, and then a schedule of deliveries and a completion (R133).
The bytes are used up. -/
theorem run_deliveries_ivgenOf {a : Alg} {s : State} {parts : List (List Byte)} (hbusy : s.phase = .busy)
    (hnone : s.entropy = []) (hi : s.inputs = parts.map .entropy) (hd : decode s.cur = .ok (ivgenOf a))
    (hlen : a.blk ≤ parts.flatten.length) :
    Sys2Proof.core.run (parts.length + 1) s =
      .next { drawn a (awaiting parts.flatten s) with entropy := s.entropy } := by
  have hrun := run_deliveries parts 1 s hbusy (by rw [hnone]; exact Nat.zero_le _) hi
  rw [hnone, List.nil_append, drawSize_of_ivgenOf hd, Nat.add_comm] at hrun
  have hstep := step_awaiting (bs := parts.flatten.take a.blk) hbusy hd (by
    rw [List.length_take]
    exact le_min le_rfl hlen)
  rw [drawn_awaiting_take] at hstep
  rw [hnone]
  exact hrun.trans (run_succ 0 hstep)

/-- Settles O34: the draw answered and not, one delivery by the size of the draw in flight, and a schedule of
deliveries by the run through it. -/
theorem ivGenerationCommands : Obligations.IvGenerationCommands := by
  unfold Obligations.IvGenerationCommands
  refine ⟨⟨rfl, fun s h => exec_ivgenOf_answered (a := .aes) h, fun s h => exec_ivgenOf_waits (a := .aes) h⟩,
    ⟨rfl, fun s h => exec_ivgenOf_answered (a := .des) h, fun s h => exec_ivgenOf_waits (a := .des) h⟩,
    fun s bytes rest hbusy hi => ?_, fun s parts hbusy hnone hi => ?_⟩
  · have hstep := step_entropy hi hbusy
    refine ⟨fun hd => ?_, fun hd => ?_, fun haes hdes => ?_⟩
    · rwa [drawSize_of_ivgenOf (a := .aes) hd] at hstep
    · rwa [drawSize_of_ivgenOf (a := .des) hd] at hstep
    · rwa [drawSize_of_not_ivgen haes hdes, List.take_zero] at hstep
  · exact ⟨run_deliveries_ivgenOf (a := .aes) hbusy hnone hi,
      run_deliveries_ivgenOf (a := .des) hbusy hnone hi⟩

end Sys2Proof.Proofs.EntropyDraw
end

section
/-! An IVGEN whose draw is not answered (R99, R100, R133): what no step reaches while it waits. -/

namespace Sys2Proof.Proofs.UnansweredDraw

open Sys2Proof.Machine Sys2Proof.Proofs.EntropyDraw Sys2Proof.Proofs.OperandLine

/-- An IVGEN is in flight and fewer bytes have been delivered than it draws (R99). -/
def Waits (s : State) : Prop :=
  s.phase = .busy ∧ ∃ a, decode s.cur = .ok (ivgenOf a) ∧ s.entropy.length < a.blk

/-- An event that neither delivers entropy nor resets. -/
def LeavesDraw (e : Event) : Prop := (∀ bytes, e ≠ .entropy bytes) ∧ ∀ lost, e ≠ .reset lost

/-- The state with all that the host can reach while BUSY put to one value: CTRL, DONE, WERR and what the host has
read (R129, R130). Two states with the same `held` agree on everything else. -/
def held (s : State) : State :=
  { s with ieDone := false, ieErr := false, done := false, werr := false, reads := [], draws := 0 }

/-- The state with the steps `es` still to come. -/
def withInputs (es : List Event) (s : State) : State := { s with inputs := es }

theorem held_hostRead (r : Reg) (s : State) : held (s.hostRead r) = held s := by
  rw [hostRead_eq]
  split <;> rfl

theorem held_whenIdle {s : State} (w : State) (hbusy : s.phase = .busy) : held (s.whenIdle w) = held s := by
  rw [whenIdle_busy hbusy]
  rfl

theorem held_hostWrite {s : State} (r : Reg) (v : Word) (hbusy : s.phase = .busy) :
    held (s.hostWrite r v) = held s := by
  cases r with
  | ctrl | status | result | rkdata => rfl
  | cmd | keylen | rksel => exact held_whenIdle _ hbusy
  | word x j =>
    cases x with
    | key | din | iv => exact held_whenIdle _ hbusy
    | dout => rfl

theorem waits_of_held {s t : State} (h : held t = held s) (hs : Waits s) : Waits t := by
  have hheld : Waits (held t) := h ▸ hs
  exact hheld

/-- A completion finds the draw not answered and changes nothing (R99). -/
theorem complete_of_waits {s : State} (hs : Waits s) : complete s = .next s := by
  obtain ⟨hbusy, a, hd, hshort⟩ := hs
  exact (complete_ok hbusy hd).trans (exec_ivgenOf_waits hshort)

/-- The step of a completion, and the step where no event is left (R133). -/
theorem step_completion {s : State} (hs : Waits s) (hi : ∀ e ∈ s.inputs, e = .complete) :
    step s = .next (withInputs s.inputs.tail s) := by
  cases h : s.inputs with
  | nil =>
    rw [List.tail_nil, ← h]
    exact (step_nil h).trans (complete_of_waits hs)
  | cons e rest =>
    have he : e = .complete := hi e (h ▸ List.mem_cons_self)
    rw [step_cons h, he]
    exact complete_of_waits (s := withInputs rest s) hs

theorem run_completions (n : Nat) : ∀ s : State, Waits s → (∀ e ∈ s.inputs, e = .complete) →
    Sys2Proof.core.run n s = .next (withInputs (s.inputs.drop n) s) := by
  induction n with
  | zero => exact fun _ _ _ => rfl
  | succ n ih =>
    intro s hs hi
    have htail : ∀ e ∈ s.inputs.tail, e = .complete := fun e he => hi e (List.mem_of_mem_tail he)
    rw [← List.drop_tail]
    exact (run_succ n (step_completion hs hi)).trans (ih (withInputs s.inputs.tail s) hs htail)

/-- What any other step can do to an IVGEN that waits: it takes the event off, and reaches nothing that is held. -/
theorem held_of_step {s t : State} (hs : Waits s) (hi : ∀ e ∈ s.inputs, LeavesDraw e) (h : step s = .next t) :
    held t = held (withInputs s.inputs.tail s) := by
  rcases step_next h with ⟨hnil, hc⟩ | ⟨e, rest, hcons, hstep⟩
  · cases (complete_of_waits hs).symm.trans hc
    rw [hnil, List.tail_nil, ← hnil]
    rfl
  have hrest : Waits (withInputs rest s) := hs
  have ⟨hbusy, _⟩ := hs
  have ⟨hentropy, hreset⟩ : LeavesDraw e := hi e (hcons ▸ List.mem_cons_self)
  rw [hcons, List.tail_cons]
  rcases hstep with ⟨a, rfl, _⟩ | ⟨_, hc⟩ | ⟨bs, he, _⟩ | ⟨lost, he, _⟩
  · obtain ⟨_, r, _, ⟨_, rfl⟩ | ⟨v, _, rfl⟩⟩ := step_host_next hcons h
    · exact held_hostRead r _
    · exact held_hostWrite r v hbusy
  · cases (complete_of_waits hrest).symm.trans hc
    rfl
  · exact absurd he (hentropy bs)
  · exact absurd he (hreset lost)

/-- What every step of a machine keeps, every run of it keeps. -/
theorem run_keeps {M : Host.Core} {P : M.State → Prop} (hstep : ∀ s t, P s → M.step s = .next t → P t)
    (n : Nat) : ∀ s t, P s → M.run n s = .next t → P t := by
  induction n with
  | zero =>
    intro s t hs h
    cases h
    exact hs
  | succ n ih =>
    intro s t hs h
    rw [Host.Core.run] at h
    split at h
    next u hu => exact ih u t (hstep s u hs hu) h
    · cases h
    · cases h

/-- The state `t` still holds what `s` held, and no event of its schedule reaches the draw. -/
def StillHeld (s t : State) : Prop := held t = held (withInputs t.inputs s) ∧ ∀ e ∈ t.inputs, LeavesDraw e

theorem stillHeld_of_step {s u t : State} (hs : Waits s) (hu : StillHeld s u) (h : step u = .next t) :
    StillHeld s t := by
  obtain ⟨hheld, hleaves⟩ := hu
  have hstep : held t = held (withInputs u.inputs.tail u) :=
    held_of_step (waits_of_held hheld hs) hleaves h
  have hinputs : t.inputs = u.inputs.tail := congrArg State.inputs hstep
  rw [StillHeld, hinputs]
  refine ⟨hstep.trans ?_, fun e he => hleaves e (List.mem_of_mem_tail he)⟩
  exact congrArg (withInputs u.inputs.tail) hheld

/-- Settles O12: every step keeps what is held, so the run does; a completion takes one event off. -/
theorem unansweredIvgenHangs : Obligations.UnansweredIvgenHangs := by
  unfold Obligations.UnansweredIvgenHangs
  intro s hbusy hshort
  have hs : Waits s := by
    rcases hshort with h | h
    · exact ⟨hbusy, .aes, h⟩
    · exact ⟨hbusy, .des, h⟩
  refine ⟨fun hleaves n t h => ?_, fun hi n => run_completions n s hs hi⟩
  obtain ⟨hheld, _⟩ : StillHeld s t :=
    run_keeps (M := Sys2Proof.core) (fun _ _ => stillHeld_of_step hs) n s t ⟨rfl, hleaves⟩ h
  have hfield {α : Type} (f : State → α) : f (held t) = f (held (withInputs t.inputs s)) := congrArg f hheld
  have hphase : t.phase = .busy := (hfield State.phase).trans hbusy
  have hstatus : t.statusWord.getLsbD 0 = true := by
    simp [statusWord_bit t 0 (by decide), State.busy, hphase]
  exact ⟨hphase, hstatus, hfield State.cur, hfield State.entropy, hfield State.key, hfield State.keylen,
    hfield State.din, hfield State.dout, hfield State.iv, hfield State.result, hfield State.rksel,
    hfield State.rk, hfield State.err⟩

end Sys2Proof.Proofs.UnansweredDraw
end

section
/-! PAD and UNPAD (R102 to R105), once for both algorithms, and that UNPAD undoes PAD. -/

namespace Sys2Proof.Proofs.Padding

open Sys2Proof.Machine Sys2Proof.Proofs.CommandWord Sys2Proof.Proofs.EntropyDraw

/-- The PAD of an algorithm (R102, R103). -/
def padOf : Alg → BitVec 4 → Instr
  | .aes, n => .padAes n
  | .des, n => .padDes n

/-- The UNPAD of an algorithm (R104, R105). -/
def unpadOf : Alg → Instr
  | .aes => .unpadAes
  | .des => .unpadDes

/-- The end of a PAD `n` (R102, R103). -/
def padded (a : Alg) (n : BitVec 4) (s : State) : State :=
  State.finish { s with din := fillFrom a.blk n.toNat (BitVec.ofNat 8 (a.blk - n.toNat)) s.din }

/-- The end of an UNPAD that finds `len` message bytes (R104, R105). -/
def unpadded (len : Nat) (s : State) : State := State.finish { s with result := BitVec.ofNat 5 len }

theorem exec_padOf {a : Alg} {n : BitVec 4} (s : State) (hn : n.toNat < a.blk) :
    exec (padOf a n) s = .next (padded a n s) := by
  cases a with
  | aes => rfl
  | des => exact if_pos hn

theorem exec_unpadOf_some {a : Alg} {s : State} {len : Nat} (h : messageLength a.blk s.dout = some len) :
    exec (unpadOf a) s = .next (unpadded len s) := by
  cases a with
  | aes | des =>
    rw [Alg.blk] at h
    simp only [unpadOf, exec, execUnpadAes, execUnpadDes, h, unpadded]

theorem exec_unpadOf_none {a : Alg} {s : State} (h : messageLength a.blk s.dout = none) :
    exec (unpadOf a) s = .next (s.raise .paddingError) := by
  cases a with
  | aes | des =>
    rw [Alg.blk] at h
    simp only [unpadOf, exec, execUnpadAes, execUnpadDes, h]

theorem blk_pos (a : Alg) : 0 < a.blk := by cases a <;> decide

theorem blk_le (a : Alg) : a.blk ≤ 16 := by cases a <;> decide

/-- UNPAD by the padding of the block in DOUT (R104, R105). -/
theorem unpad_decides (a : Alg) (s : State) :
    (ValidPadding a.blk s.dout →
      exec (unpadOf a) s = .next (unpadded (a.blk - (getByte s.dout (a.blk - 1)).toNat) s)) ∧
    (¬ValidPadding a.blk s.dout → exec (unpadOf a) s = .next (s.raise .paddingError)) :=
  ⟨fun h => exec_unpadOf_some (messageLength_valid h),
    fun h => exec_unpadOf_none (messageLength_invalid (blk_pos a) h)⟩

/-- Settles O36: the two sides of the padding check, for each algorithm. -/
theorem unpadCommands : Obligations.UnpadCommands := by
  unfold Obligations.UnpadCommands
  exact ⟨⟨rfl, unpad_decides .aes⟩, rfl, unpad_decides .des⟩

section Filled
variable {b n : Nat} (x : Block) (hn : n < b) (hb : b ≤ 16)
include hn hb

/-- A byte of the padding that PAD writes holds the number of padding bytes (R102, R103). -/
theorem toNat_getByte_padding {j : Nat} (hnj : n ≤ j) (hj : j < b) :
    (getByte (fillFrom b n (BitVec.ofNat 8 (b - n)) x) j).toNat = b - n := by
  rw [getByte_fillFrom _ _ _ _ _ (by omega), if_neg (by omega), if_neg (by omega), BitVec.toNat_ofNat]
  omega

/-- PAD writes padding that UNPAD accepts (R102 to R105). -/
theorem validPadding_fillFrom : ValidPadding b (fillFrom b n (BitVec.ofNat 8 (b - n)) x) := by
  have hlast := toNat_getByte_padding x hn hb (j := b - 1) (by omega) (by omega)
  rw [ValidPadding, hlast]
  exact ⟨by omega, by omega, fun j hnj hj => toNat_getByte_padding x hn hb (by omega) (by omega)⟩

/-- UNPAD finds the message bytes that PAD kept (R104, R105). -/
theorem messageLength_fillFrom : messageLength b (fillFrom b n (BitVec.ofNat 8 (b - n)) x) = some n := by
  rw [messageLength_valid (validPadding_fillFrom x hn hb),
    toNat_getByte_padding x hn hb (by omega) (by omega), Nat.sub_sub_self hn.le]

end Filled

/-- UNPAD on the block that PAD `n` of the same algorithm left in DIN. -/
theorem unpadOf_padOf {a : Alg} {n : BitVec 4} {s t : State} (hn : n.toNat < a.blk)
    (h : exec (padOf a n) s = .next t) :
    ∃ u, exec (unpadOf a) { t with dout := t.din } = .next u ∧ u.result = n.setWidth 5 ∧ u.err = .none := by
  cases (exec_padOf s hn).symm.trans h
  exact ⟨_, exec_unpadOf_some (messageLength_fillFrom s.din hn (blk_le a)), BitVec.ofNat_toNat 5 n, rfl⟩

/-- Settles O55: what PAD writes passes the check of UNPAD, with the length PAD started from. -/
theorem unpadUndoesPad : Obligations.UnpadUndoesPad := by
  unfold Obligations.UnpadUndoesPad
  exact ⟨fun n _ _ h => unpadOf_padOf (a := .aes) n.isLt h, fun _ _ _ hn h => unpadOf_padOf (a := .des) hn h⟩

/-- For a block of 16 bytes every byte is below the block's size. -/
theorem fillFrom_sixteen (n : Nat) (p : Byte) (x : Block) :
    fillFrom 16 n p x = blockOf fun i => if i < n then getByte x i else p :=
  blockOf_congr fun _ hi => if_neg (Nat.not_le.mpr hi)

/-- The words of PAD.AES and PAD.DES, for each of the 16 values of ARG (R46). -/
theorem padWord_eq : ∀ n : BitVec 4, 0x00000008#32 ||| n.setWidth 32 <<< 8 = commandWord n 0#4 8#4 ∧
    0x00000018#32 ||| n.setWidth 32 <<< 8 = commandWord n 1#4 8#4 := by decide

theorem decode_padAesWord (n : BitVec 4) : decode (commandWord n 0#4 8#4) = .ok (.padAes n) :=
  decode_eq_ok_iff.mpr ⟨decide_eq_true n.isLt, rfl⟩

theorem decode_padDesWord {n : BitVec 4} (hn : n.toNat < 8) : decode (commandWord n 1#4 8#4) = .ok (.padDes n) :=
  decode_eq_ok_iff.mpr ⟨decide_eq_true hn, rfl⟩

/-- An ARG of PAD.DES that is no message length of its block (R50, R103). -/
theorem decode_padDesWord_illegal {n : BitVec 4} (hn : ¬n.toNat < 8) :
    decode (commandWord n 1#4 8#4) = .error .illegalCommand := by
  rw [decode_past_alg (by simp) (by simp) (by simp), if_neg (by simp), if_pos]
  simpa [blockSize] using hn

/-- Settles O35: the words of PAD, and the bytes of the block that PAD leaves. -/
theorem padCommands : Obligations.PadCommands := by
  unfold Obligations.PadCommands
  refine ⟨⟨fun n => ?_, fun n s => ?_⟩, fun n => ?_, fun n s hn => exec_padOf (a := .des) s hn⟩
  · rw [(padWord_eq n).1, decode_padAesWord]
  · rw [← fillFrom_sixteen]
    exact exec_padOf (a := .aes) s n.isLt
  · rw [(padWord_eq n).2]
    split
    · exact decode_padDesWord ‹_›
    · exact decode_padDesWord_illegal ‹_›

end Sys2Proof.Proofs.Padding
end

section
/-! The chained commands CBCE and CBCD (R95 to R98), and that CBCD undoes CBCE. -/

namespace Sys2Proof.Proofs.ChainedCommands

open Sys2Proof.Machine Sys2Proof.Proofs.KeyLengthCheck Sys2Proof.Proofs.AesRounds Sys2Proof.Proofs.DesCipher

/-- The end of a CBCE.AES that passes its check (R95). -/
def chainedEncAes (s : State) : State :=
  State.finish { s with dout := aesEncrypt s.key (s.din ^^^ s.iv), iv := aesEncrypt s.key (s.din ^^^ s.iv) }

/-- The end of a CBCE.DES that passes its check (R96). -/
def chainedEncDes (s : State) : State :=
  State.finish { s with
    dout := put64 (desEncrypt s.key64 (s.din64 ^^^ s.iv64))
    iv := put64 (desEncrypt s.key64 (s.din64 ^^^ s.iv64)) }

/-- The end of a CBCD.AES that passes its check (R97). -/
def chainedDecAes (s : State) : State :=
  State.finish { s with dout := aesDecrypt s.key s.din ^^^ s.iv, iv := s.din }

/-- The end of a CBCD.DES that passes its check (R98). -/
def chainedDecDes (s : State) : State :=
  State.finish { s with dout := put64 (desDecrypt s.key64 s.din64 ^^^ s.iv64), iv := put64 s.din64 }

section Passed
variable {s : State}

theorem exec_cbceAes (h : s.keylen = 16#8) : exec .cbceAes s = .next (chainedEncAes s) :=
  withKeyLength_pass (a := .aes) _ h

theorem exec_cbceDes (h : s.keylen = 8#8) : exec .cbceDes s = .next (chainedEncDes s) :=
  withKeyLength_pass (a := .des) _ h

theorem exec_cbcdAes (h : s.keylen = 16#8) : exec .cbcdAes s = .next (chainedDecAes s) :=
  withKeyLength_pass (a := .aes) _ h

theorem exec_cbcdDes (h : s.keylen = 8#8) : exec .cbcdDes s = .next (chainedDecDes s) :=
  withKeyLength_pass (a := .des) _ h

end Passed

/-- Two commands with the same key-length check leave the same DOUT where their bodies do: an error leaves DOUT
(R85, R117). -/
theorem dout_of_withKeyLength {a : Alg} {s b c t u : State} (hbody : b.dout = c.dout)
    (ht : withKeyLength a s b = .next t) (hu : withKeyLength a s c = .next u) : t.dout = u.dout := by
  rcases withKeyLength_next ht with ⟨hpass, rfl⟩ | ⟨hfail, rfl⟩
  · cases (withKeyLength_ok hpass).symm.trans hu
    exact hbody
  · cases (withKeyLength_bad hfail).symm.trans hu
    rfl

/-- Settles O32: the key-length check on both sides, and that an IV of 0 adds nothing to DIN. -/
theorem chainedEncryptCommands : Obligations.ChainedEncryptCommands := by
  unfold Obligations.ChainedEncryptCommands
  refine ⟨⟨rfl, fun s h => exec_cbceAes h, fun s h => ?_, fun s t u hiv ht hu => ?_⟩,
    rfl, fun s h => exec_cbceDes h, fun s h => ?_⟩
  · exact withKeyLength_fail (a := .aes) _ h
  · have hblock : aesEncrypt s.key (s.din ^^^ s.iv) = aesEncrypt s.key s.din := by rw [hiv, BitVec.xor_zero]
    exact dout_of_withKeyLength hblock ht hu
  · exact withKeyLength_fail (a := .des) _ h

/-- Settles O33: as O32, with the IV added after the decryption. -/
theorem chainedDecryptCommands : Obligations.ChainedDecryptCommands := by
  unfold Obligations.ChainedDecryptCommands
  refine ⟨⟨rfl, fun s h => exec_cbcdAes h, fun s h => ?_, fun s t u hiv ht hu => ?_⟩,
    rfl, fun s h => exec_cbcdDes h, fun s h => ?_⟩
  · exact withKeyLength_fail (a := .aes) _ h
  · have hblock : aesDecrypt s.key s.din ^^^ s.iv = aesDecrypt s.key s.din := by rw [hiv, BitVec.xor_zero]
    exact dout_of_withKeyLength hblock ht hu
  · exact withKeyLength_fail (a := .des) _ h

/-- Chained decryption of the chained encryption of `p`, with the same chaining value `v` (R95, R97). -/
theorem aes_chain_undo (key p v : Block) : aesDecrypt key (aesEncrypt key (p ^^^ v)) ^^^ v = p := by
  rw [aesDecrypt_aesEncrypt, BitVec.xor_assoc, BitVec.xor_self, BitVec.xor_zero]

/-- The same for 8-byte blocks; the ciphertext is read back from bytes 0..7 of DOUT (R96, R98). -/
theorem des_chain_undo (key p v : Half) :
    desDecrypt key (low64 (put64 (desEncrypt key (p ^^^ v)))) ^^^ v = p := by
  rw [low64_put64, desDecrypt_desEncrypt, BitVec.xor_assoc, BitVec.xor_self, BitVec.xor_zero]

/-- Settles O54: the cipher and the chaining value both undo. -/
theorem chainedDecryptUndoesEncrypt : Obligations.ChainedDecryptUndoesEncrypt := by
  unfold Obligations.ChainedDecryptUndoesEncrypt
  refine ⟨fun s t hlen h => ?_, fun s t hlen h => ?_⟩
  · cases (exec_cbceAes hlen).symm.trans h
    exact ⟨_, exec_cbcdAes hlen, aes_chain_undo s.key s.din s.iv, rfl⟩
  · cases (exec_cbceDes hlen).symm.trans h
    exact ⟨_, exec_cbcdDes hlen, congrArg put64 (des_chain_undo s.key64 s.din64 s.iv64),
      congrArg put64 (low64_put64 _)⟩

end Sys2Proof.Proofs.ChainedCommands
end

section
/-! The bytes and bits of an 8-byte value (R109). -/

namespace Sys2Proof.Proofs.DesBytes

open Sys2Proof.Machine

/-- Settles O46: the bit's place counted from either end, and equality of 8-byte values byte by byte. -/
theorem desBitsAreMostSignificantFirst : Obligations.DesBitsAreMostSignificantFirst := by
  unfold Obligations.DesBitsAreMostSignificantFirst
  refine ⟨fun v i k hi hk => ?_, getByte64_halfOf, fun v => half_ext fun i hi => getByte64_halfOf _ i hi⟩
  rw [desBit_eq v _ (by omega) (by omega), getByte64_bit v i _ (by omega)]
  exact congrArg v.getLsbD (by omega)

end Sys2Proof.Proofs.DesBytes
end

section
/-! The base64 alphabet (R110): each value has a character of its own, and no other byte is one. -/

namespace Sys2Proof.Proofs.Base64Alphabet

open Sys2Proof.Machine

theorem b64Index_b64Char : ∀ x : BitVec 6, b64Index (b64Char x) = some x := by decide

/-- Only the characters of the alphabet have an index, of all 256 bytes. -/
theorem eq_b64Char_of_mem_b64Index : ∀ c : Byte, ∀ x ∈ b64Index c, c = b64Char x := by decide +kernel

/-- A byte has the index `x` exactly where it is the character of `x` (R110). -/
theorem b64Index_eq_some_iff {c : Byte} {x : BitVec 6} : b64Index c = some x ↔ b64Char x = c :=
  ⟨fun h => (eq_b64Char_of_mem_b64Index c x h).symm, fun h => h ▸ b64Index_b64Char x⟩

theorem b64Index_padChar : b64Index padChar = none := by decide

theorem b64Char_ne_padChar (x : BitVec 6) : b64Char x ≠ padChar := fun h => by
  have hindex := b64Index_b64Char x
  rw [h, b64Index_padChar] at hindex
  cases hindex

/-- A byte that has an index is the character of that index. -/
theorem b64Char_getD {c : Byte} (h : b64Index c ≠ none) : b64Char ((b64Index c).getD 0#6) = c := by
  obtain ⟨x, hx⟩ := Option.ne_none_iff_exists'.mp h
  rw [hx]
  exact b64Index_eq_some_iff.mp hx

/-- Settles O56: the codes range by range, and the index as the inverse of the character. -/
theorem base64AlphabetIsStandard : Obligations.Base64AlphabetIsStandard := by
  unfold Obligations.Base64AlphabetIsStandard
  exact ⟨by decide, fun _ _ => b64Index_eq_some_iff, rfl, b64Index_padChar⟩

end Sys2Proof.Proofs.Base64Alphabet
end

section
/-! One base64 group as 24 bits: its three bytes, its four 6-bit values, and the four characters that B64E makes of
them (R111). -/

namespace Sys2Proof.Proofs.Base64Group

open Sys2Proof.Machine Sys2Proof.Proofs.Base64Alphabet

/-- Byte `i` of a group, `i` in 0..2 (R111). -/
def groupByte (t : BitVec 24) (i : Nat) : Byte := t.extractLsb' (16 - 8 * i) 8

/-- The 6-bit value `k` of a group, `k` in 0..3 (R111). -/
def sextet (t : BitVec 24) (k : Nat) : BitVec 6 := t.extractLsb' (18 - 6 * k) 6

theorem groupByte_append (b0 b1 b2 : Byte) {i : Nat} (hi : i < 3) :
    groupByte (b0 ++ b1 ++ b2) i = [b0, b1, b2].getD i 0#8 := by
  apply BitVec.eq_of_getLsbD_eq
  intro j hj
  simp only [groupByte, BitVec.getLsbD_extractLsb', hj, decide_true, Bool.true_and]
  interval_cases i <;> simp (disch := omega) only [append_left_bit, append_right_bit] <;>
    exact congrArg _ (by omega)

theorem sextet_append (x0 x1 x2 x3 : BitVec 6) {k : Nat} (hk : k < 4) :
    sextet (x0 ++ x1 ++ x2 ++ x3) k = [x0, x1, x2, x3].getD k 0#6 := by
  apply BitVec.eq_of_getLsbD_eq
  intro j hj
  simp only [sextet, BitVec.getLsbD_extractLsb', hj, decide_true, Bool.true_and]
  interval_cases k <;> simp (disch := omega) only [append_left_bit, append_right_bit] <;>
    exact congrArg _ (by omega)

/-- A bit of a group, in its byte. -/
theorem bit_eq_groupByte (t : BitVec 24) {m : Nat} (hm : m < 24) :
    t.getLsbD m = (groupByte t (2 - m / 8)).getLsbD (m % 8) := by
  rw [groupByte, BitVec.getLsbD_extractLsb', decide_eq_true (by omega), Bool.true_and]
  exact congrArg _ (by omega)

/-- A bit of a group, in its 6-bit value. -/
theorem bit_eq_sextet (t : BitVec 24) {m : Nat} (hm : m < 24) :
    t.getLsbD m = (sextet t (3 - m / 6)).getLsbD (m % 6) := by
  rw [sextet, BitVec.getLsbD_extractLsb', decide_eq_true (by omega), Bool.true_and]
  exact congrArg _ (by omega)

theorem group_ext_bytes {t u : BitVec 24} (h : ∀ i < 3, groupByte t i = groupByte u i) : t = u :=
  BitVec.eq_of_getLsbD_eq fun m hm => by
    rw [bit_eq_groupByte t hm, bit_eq_groupByte u hm, h _ (by omega)]

theorem group_ext_sextets {t u : BitVec 24} (h : ∀ k < 4, sextet t k = sextet u k) : t = u :=
  BitVec.eq_of_getLsbD_eq fun m hm => by
    rw [bit_eq_sextet t hm, bit_eq_sextet u hm, h _ (by omega)]

/-- The bits past the first `n` bytes of a group are 0: the group is canonical for `n` bytes (R112). -/
def Canonical (n : Nat) (t : BitVec 24) : Prop := ∀ m < 8 * (3 - n), t.getLsbD m = false

/-- Canonical as R112 checks it, on the unused bits together. -/
theorem canonical_iff_low {n : Nat} {t : BitVec 24} :
    Canonical n t ↔ t.extractLsb' 0 (8 * (3 - n)) = 0#(8 * (3 - n)) := by
  constructor
  · intro h
    apply BitVec.eq_of_getLsbD_eq
    intro m hm
    rw [BitVec.getLsbD_extractLsb', Nat.zero_add, h m hm, Bool.and_false, BitVec.getLsbD_zero]
  · intro h m hm
    have hbit := congrArg (·.getLsbD m) h
    simpa [hm] using hbit

theorem canonical_iff_bytes {n : Nat} {t : BitVec 24} :
    Canonical n t ↔ ∀ i, n ≤ i → i < 3 → groupByte t i = 0#8 := by
  constructor
  · intro h i hn hi
    apply BitVec.eq_of_getLsbD_eq
    intro j hj
    rw [groupByte, BitVec.getLsbD_extractLsb', h _ (by omega), Bool.and_false, BitVec.getLsbD_zero]
  · intro h m hm
    rw [bit_eq_groupByte t (by omega), h _ (by omega) (by omega), BitVec.getLsbD_zero]

/-- The 6-bit values that a pad character stands for are 0 in a canonical group. -/
theorem sextet_of_canonical {n k : Nat} {t : BitVec 24} (h : Canonical n t) (hnk : n < k) (hk : k < 4) :
    sextet t k = 0#6 := by
  apply BitVec.eq_of_getLsbD_eq
  intro j hj
  rw [sextet, BitVec.getLsbD_extractLsb', h _ (by omega), Bool.and_false, BitVec.getLsbD_zero]

/-- The group of the first `n` bytes of a block, 0 for the bytes past them (`t` of R111). -/
def groupOf (n : Nat) (x : Block) : BitVec 24 :=
  getByte x 0 ++ (if 1 < n then getByte x 1 else 0#8) ++ (if 2 < n then getByte x 2 else 0#8)

theorem groupByte_groupOf {n i : Nat} (x : Block) (hn : 1 ≤ n) (hi : i < 3) :
    groupByte (groupOf n x) i = if i < n then getByte x i else 0#8 := by
  rw [groupOf, groupByte_append _ _ _ hi]
  interval_cases i
  · exact (if_pos hn).symm
  · rfl
  · rfl

theorem canonical_groupOf {n : Nat} (x : Block) (hn : 1 ≤ n) : Canonical n (groupOf n x) :=
  canonical_iff_bytes.mpr fun _ hni hi => (groupByte_groupOf x hn hi).trans (if_neg (Nat.not_lt.mpr hni))

/-- The block of the first `n` bytes of a group (R112). -/
def bytesOf (n : Nat) (t : BitVec 24) : Block := blockOf fun i => if i < n then groupByte t i else 0#8

theorem getByte_bytesOf (n : Nat) (t : BitVec 24) {i : Nat} (hi : i < 16) :
    getByte (bytesOf n t) i = if i < n then groupByte t i else 0#8 :=
  getByte_blockOf _ i hi

/-- The group of the bytes of a canonical group is that group. -/
theorem groupOf_bytesOf {n : Nat} {t : BitVec 24} (hn : 1 ≤ n) (h : Canonical n t) : groupOf n (bytesOf n t) = t := by
  apply group_ext_bytes
  intro i hi
  rw [groupByte_groupOf _ hn hi]
  split
  next hin => rw [getByte_bytesOf n t (by omega), if_pos hin]
  next hin => exact (canonical_iff_bytes.mp h i (by omega) hi).symm

/-- The bytes of the group of the first `n` bytes of a block are those bytes. -/
theorem getByte_bytesOf_groupOf {n i : Nat} (x : Block) (h1 : 1 ≤ n) (h3 : n ≤ 3) (hi : i < 16) :
    getByte (bytesOf n (groupOf n x)) i = if i < n then getByte x i else 0#8 := by
  rw [getByte_bytesOf n _ hi]
  split
  next hin => rw [groupByte_groupOf x h1 (by omega), if_pos hin]
  · rfl

/-- The four characters `c` of the group of `n` bytes with the bits `t`: the 6-bit values that the bytes reach
into, then pad characters (R111). -/
def IsGroup (n : Nat) (t : BitVec 24) (c : Nat → Byte) : Prop :=
  ∀ k < 4, c k = if k ≤ n then b64Char (sextet t k) else padChar

/-- The word that B64E makes has the characters of the group of its bytes (R111). -/
theorem isGroup_b64Encode {n : Nat} (x : Block) (h1 : 1 ≤ n) (h3 : n ≤ 3) :
    IsGroup n (groupOf n x) (wordByte (b64Encode n x)) := by
  intro k hk
  rw [b64Encode, wordByte_wordOf _ _ _ _ _ hk]
  interval_cases k
  · exact (if_pos (Nat.zero_le n)).symm
  · exact (if_pos h1).symm
  · rfl
  · exact if_congr ⟨fun h => h.ge, fun h => le_antisymm h3 h⟩ rfl rfl

section Characters
variable {n k : Nat} {t : BitVec 24} {c : Nat → Byte} (h : IsGroup n t c) (hk : k < 4)
include h hk

theorem eq_padChar_iff_of_isGroup : c k = padChar ↔ n < k := by
  rw [h k hk]
  split
  · exact iff_of_false (b64Char_ne_padChar _) (by omega)
  · exact iff_of_true rfl (by omega)

theorem b64Index_of_isGroup : b64Index (c k) = if k ≤ n then some (sextet t k) else none := by
  rw [h k hk]
  split
  · exact b64Index_b64Char _
  · exact b64Index_padChar

end Characters

/-- Two words with the characters of one group are the same. -/
theorem word_eq_of_isGroup {n : Nat} {t : BitVec 24} {v w : Word} (hv : IsGroup n t (wordByte v))
    (hw : IsGroup n t (wordByte w)) : v = w :=
  word_ext fun k hk => (hv k hk).trans (hw k hk).symm

end Sys2Proof.Proofs.Base64Group
end

section
/-! The decoding of four characters (R112): the checks decide between the bytes and none, and the characters that
pass them are those of a canonical group. -/

namespace Sys2Proof.Proofs.Base64Decoding

open Sys2Proof.Machine Sys2Proof.Proofs.Base64Alphabet Sys2Proof.Proofs.Base64Group

/-- The number of pad characters among the last two of four characters (`p` of R112). -/
def padCount (c : Nat → Byte) : Nat := (if c 2 = padChar then 1 else 0) + (if c 3 = padChar then 1 else 0)

theorem padCount_le (c : Nat → Byte) : padCount c ≤ 2 := by
  rw [padCount]
  split_ifs <;> decide

/-- The indices of four characters, 0 for one that has none (`t` of R112). -/
def indexBits (c : Nat → Byte) : BitVec 24 :=
  (b64Index (c 0)).getD 0#6 ++ (b64Index (c 1)).getD 0#6 ++ (b64Index (c 2)).getD 0#6 ++ (b64Index (c 3)).getD 0#6

/-- One of the checks of R112 fails on four characters. -/
def Rejected (c : Nat → Byte) : Prop :=
  b64Index (c 0) = none ∨ b64Index (c 1) = none ∨ (c 2 = padChar ∧ c 3 ≠ padChar) ∨
    (c 2 ≠ padChar ∧ b64Index (c 2) = none) ∨ (c 3 ≠ padChar ∧ b64Index (c 3) = none) ∨
    (padCount c = 1 ∧ (indexBits c).extractLsb' 0 8 ≠ 0#8) ∨
    (padCount c = 2 ∧ (indexBits c).extractLsb' 0 16 ≠ 0#16)

/-- A character is outside the alphabet where R112 allows no such character. -/
def Foreign (c : Nat → Byte) : Prop :=
  b64Index (c 0) = none ∨ b64Index (c 1) = none ∨ b64IndexOrPad (c 2) = none ∨ b64IndexOrPad (c 3) = none

/-- The pad characters are out of place, or the bits that they leave unused are not 0 (R112). -/
abbrev Malformed (c : Nat → Byte) : Prop :=
  (c 2 = padChar ∧ c 3 ≠ padChar) ∨ (padCount c = 1 ∧ (indexBits c).extractLsb' 0 8 ≠ 0#8) ∨
    (padCount c = 2 ∧ (indexBits c).extractLsb' 0 16 ≠ 0#16)

theorem b64IndexOrPad_eq_none_iff {c : Byte} : b64IndexOrPad c = none ↔ c ≠ padChar ∧ b64Index c = none := by
  rw [b64IndexOrPad]
  split
  next h => exact iff_of_false (Option.some_ne_none _) (fun hc => hc.1 h)
  next h => exact (and_iff_right h).symm

/-- The pad character counts as the value 0, which is what a byte without an index counts as. -/
theorem getD_of_b64IndexOrPad {c : Byte} {x : BitVec 6} (h : b64IndexOrPad c = some x) :
    (b64Index c).getD 0#6 = x := by
  rw [b64IndexOrPad] at h
  split at h
  next hc =>
    cases h
    rw [hc, b64Index_padChar, Option.getD_none]
  next => rw [h, Option.getD_some]

theorem rejected_iff {c : Nat → Byte} : Rejected c ↔ Foreign c ∨ Malformed c := by
  rw [Rejected, Foreign, b64IndexOrPad_eq_none_iff, b64IndexOrPad_eq_none_iff]
  tauto

theorem b64Decode_of_foreign {c : Nat → Byte} (h : Foreign c) : b64Decode (c 0) (c 1) (c 2) (c 3) = none := by
  rw [b64Decode]
  split
  next h0 h1 h2 h3 => simp [Foreign, h0, h1, h2, h3] at h
  · rfl

/-- Four characters that are all allowed decode by the places of the pad characters and the unused bits. -/
theorem b64Decode_of_not_foreign {c : Nat → Byte} (h : ¬Foreign c) : b64Decode (c 0) (c 1) (c 2) (c 3) =
    if Malformed c then none else some (3 - padCount c, bytesOf (3 - padCount c) (indexBits c)) := by
  simp only [Foreign, not_or] at h
  obtain ⟨h0, h1, h2, h3⟩ := h
  obtain ⟨x0, hx0⟩ := Option.ne_none_iff_exists'.mp h0
  obtain ⟨x1, hx1⟩ := Option.ne_none_iff_exists'.mp h1
  obtain ⟨x2, hx2⟩ := Option.ne_none_iff_exists'.mp h2
  obtain ⟨x3, hx3⟩ := Option.ne_none_iff_exists'.mp h3
  have hbits : indexBits c = x0 ++ x1 ++ x2 ++ x3 := by
    rw [indexBits, hx0, hx1, getD_of_b64IndexOrPad hx2, getD_of_b64IndexOrPad hx3]
    rfl
  rw [ite_or, ite_or, hbits]
  simp only [b64Decode, hx0, hx1, hx2, hx3]
  rfl

theorem b64Decode_of_rejected {c : Nat → Byte} (h : Rejected c) : b64Decode (c 0) (c 1) (c 2) (c 3) = none := by
  by_cases hforeign : Foreign c
  · exact b64Decode_of_foreign hforeign
  · rw [b64Decode_of_not_foreign hforeign, if_pos ((rejected_iff.mp h).resolve_left hforeign)]

theorem b64Decode_of_not_rejected {c : Nat → Byte} (h : ¬Rejected c) : b64Decode (c 0) (c 1) (c 2) (c 3) =
    some (3 - padCount c, bytesOf (3 - padCount c) (indexBits c)) := by
  rw [rejected_iff, not_or] at h
  rw [b64Decode_of_not_foreign h.1, if_neg h.2]

theorem sextet_indexBits (c : Nat → Byte) {k : Nat} (hk : k < 4) :
    sextet (indexBits c) k = (b64Index (c k)).getD 0#6 := by
  rw [indexBits, sextet_append _ _ _ _ hk]
  interval_cases k <;> rfl

section OfGroup
variable {n : Nat} {t : BitVec 24} {c : Nat → Byte} (hc : IsGroup n t c)
include hc

theorem padCount_of_isGroup (h1 : 1 ≤ n) (h3 : n ≤ 3) : padCount c = 3 - n := by
  rw [padCount, if_congr (eq_padChar_iff_of_isGroup hc (by decide)) rfl rfl,
    if_congr (eq_padChar_iff_of_isGroup hc (by decide)) rfl rfl]
  split_ifs <;> omega

theorem indexBits_of_isGroup (ht : Canonical n t) : indexBits c = t := by
  apply group_ext_sextets
  intro k hk
  rw [sextet_indexBits c hk, b64Index_of_isGroup hc hk]
  split
  next => rfl
  next hnk => exact (sextet_of_canonical ht (by omega) hk).symm

/-- The characters of a canonical group pass the checks. -/
theorem not_rejected_of_isGroup (h1 : 1 ≤ n) (h3 : n ≤ 3) (ht : Canonical n t) : ¬Rejected c := by
  have hpad {k : Nat} (hk : k < 4) := eq_padChar_iff_of_isGroup hc hk
  have hnone {k : Nat} (hk : k < 4) : b64Index (c k) = none → n < k := by
    rw [b64Index_of_isGroup hc hk]
    split
    next => exact fun h => nomatch h
    next hnk => exact fun _ => Nat.lt_of_not_le hnk
  rw [Rejected, padCount_of_isGroup hc h1 h3, indexBits_of_isGroup hc ht]
  rintro (h | h | ⟨hpad2, hne3⟩ | ⟨hne, h⟩ | ⟨hne, h⟩ | ⟨hp, h⟩ | ⟨hp, h⟩)
  · exact absurd (hnone (by decide) h) (by omega)
  · exact absurd (hnone (by decide) h) (by omega)
  · exact hne3 ((hpad (by decide)).mpr (((hpad (by decide)).mp hpad2).trans (by decide)))
  · exact hne ((hpad (by decide)).mpr (hnone (by decide) h))
  · exact hne ((hpad (by decide)).mpr (hnone (by decide) h))
  · obtain rfl : n = 2 := by omega
    exact h (canonical_iff_low.mp ht)
  · obtain rfl : n = 1 := by omega
    exact h (canonical_iff_low.mp ht)

/-- The characters of a canonical group decode to its bytes (R112). -/
theorem b64Decode_of_isGroup (h1 : 1 ≤ n) (h3 : n ≤ 3) (ht : Canonical n t) :
    b64Decode (c 0) (c 1) (c 2) (c 3) = some (n, bytesOf n t) := by
  rw [b64Decode_of_not_rejected (not_rejected_of_isGroup hc h1 h3 ht), padCount_of_isGroup hc h1 h3,
    indexBits_of_isGroup hc ht, Nat.sub_sub_self h3]

end OfGroup

section Passed
variable {c : Nat → Byte} (h : ¬Rejected c)
include h

theorem b64Index_of_not_rejected {k : Nat} (hk : k < 4) (hne : c k ≠ padChar) : b64Index (c k) ≠ none := by
  simp only [Rejected, not_or, not_and] at h
  obtain ⟨h0, h1, -, h2, h3, -, -⟩ := h
  interval_cases k
  · exact h0
  · exact h1
  · exact h2 hne
  · exact h3 hne

/-- The pad characters are the last `padCount` of the four (R112). -/
theorem eq_padChar_iff_of_not_rejected {k : Nat} (hk : k < 4) : c k = padChar ↔ 3 - padCount c < k := by
  simp only [Rejected, not_or, not_and, not_not] at h
  obtain ⟨h0, h1, hpads, -, -, -, -⟩ := h
  have hfirst {i : Nat} (hi : b64Index (c i) ≠ none) : c i ≠ padChar := fun hc => hi (hc ▸ b64Index_padChar)
  rw [padCount]
  interval_cases k
  · exact iff_of_false (hfirst h0) (Nat.not_lt_zero _)
  · exact iff_of_false (hfirst h1) (by split_ifs <;> decide)
  · by_cases h2 : c 2 = padChar
    · simp [h2, hpads h2]
    · rw [if_neg h2]
      exact iff_of_false h2 (by split_ifs <;> decide)
  · by_cases h3 : c 3 = padChar
    · rw [if_pos h3]
      exact iff_of_true h3 (by omega)
    · simp [h3, mt hpads h3]

theorem canonical_of_not_rejected : Canonical (3 - padCount c) (indexBits c) := by
  simp only [Rejected, not_or, not_and, not_not] at h
  obtain ⟨-, -, -, -, -, hone, htwo⟩ := h
  have hcount := padCount_le c
  rw [canonical_iff_low]
  interval_cases hp : padCount c
  · exact BitVec.of_length_zero
  · exact hone rfl
  · exact htwo rfl

/-- Characters that pass the checks are those of a group: decoding is strict (R112). -/
theorem isGroup_of_not_rejected : IsGroup (3 - padCount c) (indexBits c) c := by
  intro k hk
  have hpad := eq_padChar_iff_of_not_rejected h hk
  split
  next hle =>
    have hindex := b64Index_of_not_rejected h hk (mt hpad.mp (Nat.not_lt.mpr hle))
    rw [sextet_indexBits c hk, b64Char_getD hindex]
  next hlt => exact hpad.mpr (Nat.lt_of_not_le hlt)

end Passed

end Sys2Proof.Proofs.Base64Decoding
end

section
/-! B64E and B64D (R111, R112). -/

namespace Sys2Proof.Proofs.Transcoder

open Sys2Proof.Machine Sys2Proof.Proofs.CommandWord Sys2Proof.Proofs.KeyNormalisation
open Sys2Proof.Proofs.Base64Group Sys2Proof.Proofs.Base64Decoding

/-- The end of a B64E `n` (R111). -/
def encoded (n : Nat) (s : State) : State := State.finish { s with dout := b64Encode n s.din ++ 0#96 }

/-- The end of a B64D that finds the `n` bytes of the group `t` (R112). -/
def decoded (n : Nat) (t : BitVec 24) (s : State) : State :=
  State.finish { s with dout := bytesOf n t, result := BitVec.ofNat 5 n }

theorem exec_b64e {n : BitVec 4} (s : State) (h1 : 1 ≤ n.toNat) (h3 : n.toNat ≤ 3) :
    exec (.b64e n) s = .next (encoded n.toNat s) :=
  if_pos ⟨h1, h3⟩

theorem exec_b64d_some {n : Nat} {t : BitVec 24} {s : State}
    (h : b64Decode (getByte s.din 0) (getByte s.din 1) (getByte s.din 2) (getByte s.din 3) = some (n, bytesOf n t)) :
    exec .b64d s = .next (decoded n t s) := by
  simp only [exec, execB64d, h, decoded]

theorem exec_b64d_rejected {s : State} (h : Rejected (getByte s.din)) :
    exec .b64d s = .next (s.raise .invalidEncodingError) := by
  simp only [exec, execB64d, b64Decode_of_rejected h]

theorem exec_b64d_not_rejected {s : State} (h : ¬Rejected (getByte s.din)) :
    exec .b64d s = .next (decoded (3 - padCount (getByte s.din)) (indexBits (getByte s.din)) s) :=
  exec_b64d_some (b64Decode_of_not_rejected h)

/-- The word of a B64E with any ARG and ALG (R44, R46). -/
theorem b64eWord_eq : ∀ n alg : BitVec 4,
    0x0000000A#32 ||| alg.setWidth 32 <<< 4 ||| n.setWidth 32 <<< 8 = commandWord n alg 10#4 := by decide +kernel

theorem decode_b64eWord {n : BitVec 4} (h : 1 ≤ n.toNat ∧ n.toNat ≤ 3) :
    decode (commandWord n 0#4 10#4) = .ok (.b64e n) :=
  decode_eq_ok_iff.mpr ⟨by simpa [Instr.wf] using h, rfl⟩

/-- An ALG other than 0, and then an ARG outside 1..3, fails its check (R50, R111). -/
theorem decode_b64eWord_illegal {n alg : BitVec 4} (h : ¬(alg = 0#4 ∧ 1 ≤ n.toNat ∧ n.toNat ≤ 3)) :
    decode (commandWord n alg 10#4) = .error .illegalCommand := by
  rw [decode_past_alg (by simp) (by simp) (by simp), opField_commandWord, algField_commandWord, argField_commandWord]
  by_cases halg : alg = 0#4
  · subst halg
    rw [and_iff_right rfl] at h
    have hn : n.toNat = 0 ∨ 3 < n.toNat := by omega
    rw [if_neg (by simp), if_neg (by simp), if_pos ⟨rfl, hn⟩]
  · exact if_pos ⟨.inl rfl, fun h0 => halg (BitVec.eq_of_toNat_eq h0)⟩

/-- DOUT0 holds the four characters of a B64E (R36, R111). -/
theorem getWord_encoded (n : Nat) (s : State) : getWord (encoded n s).dout 0 = b64Encode n s.din := by
  rw [getWord, encoded, finish_dout, BitVec.extractLsb'_append_eq_of_le (by decide)]
  exact BitVec.extractLsb'_eq_self

/-- B64E reads the first three bytes of DIN only (R111). -/
theorem b64Encode_congr {n : Nat} {x y : Block} (h : ∀ i < 3, getByte x i = getByte y i) :
    b64Encode n x = b64Encode n y := by
  rw [b64Encode, b64Encode, h 0 (by decide), h 1 (by decide), h 2 (by decide)]

/-- The characters of the bytes `Man` of R111's examples. -/
theorem b64Encode_example {x : Block} (n : Nat) (hx : x.extractLsb' 104 24 = 0x4d616e#24) :
    b64Encode n x = b64Encode n 0x4d616e00000000000000000000000000#128 :=
  have hman : (0x4d616e00000000000000000000000000#128 : Block).extractLsb' 104 24 = 0x4d616e#24 := by decide
  b64Encode_congr fun i hi => (getByte_of_firstThree hx hi).trans (getByte_of_firstThree hman hi).symm

/-- Settles O37: the word's checks, the four characters, and the three lengths of the example. -/
theorem base64EncodeCommand : Obligations.Base64EncodeCommand := by
  unfold Obligations.Base64EncodeCommand
  refine ⟨fun n alg => ?_, fun n s h1 h3 => exec_b64e s h1 h3, fun s t hdin => ?_⟩
  · rw [b64eWord_eq]
    split
    next h =>
      obtain ⟨rfl, hn⟩ := h
      exact decode_b64eWord hn
    next h => exact decode_b64eWord_illegal h
  · have hexample {n : BitVec 4} (h1 : 1 ≤ n.toNat) (h3 : n.toNat ≤ 3) (h : exec (.b64e n) s = .next t) :
        getWord t.dout 0 = b64Encode n.toNat 0x4d616e00000000000000000000000000#128 := by
      cases (exec_b64e s h1 h3).symm.trans h
      rw [getWord_encoded, b64Encode_example _ hdin]
    exact ⟨hexample (by decide) (by decide), hexample (by decide) (by decide), hexample (by decide) (by decide)⟩

/-- Settles O38: the two sides of the checks on the four characters. -/
theorem base64DecodeCommand : Obligations.Base64DecodeCommand := by
  unfold Obligations.Base64DecodeCommand
  exact ⟨rfl, fun s => ⟨fun h => exec_b64d_rejected h, fun h => exec_b64d_not_rejected h⟩⟩

/-- The characters in DIN are those of its bus word 0 (R36). -/
theorem isGroup_getByte_iff {n : Nat} {t : BitVec 24} {x : Block} :
    IsGroup n t (getByte x) ↔ IsGroup n t (wordByte (getWord x 0)) := by
  refine forall₂_congr fun k hk => ?_
  rw [wordByte_getWord x 0 k (by decide) hk, Nat.mul_zero, Nat.zero_add]

/-- B64D of the four characters of a B64E `n` gives back the `n` bytes. -/
theorem b64d_of_b64e {n : BitVec 4} {s t : State} (h1 : 1 ≤ n.toNat) (h3 : n.toNat ≤ 3)
    (h : exec (.b64e n) s = .next t) :
    ∃ u, exec .b64d { t with din := setWord t.din 0 (getWord t.dout 0) } = .next u ∧ u.err = .none ∧
      u.result = n.setWidth 5 ∧ ∀ i < 16, getByte u.dout i = if i < n.toNat then getByte s.din i else 0#8 := by
  cases (exec_b64e s h1 h3).symm.trans h
  have hgroup : IsGroup n.toNat (groupOf n.toNat s.din)
      (getByte (setWord s.din 0 (getWord (encoded n.toNat s).dout 0))) := by
    rw [isGroup_getByte_iff, getWord_setWord _ _ _ _ (by decide), if_pos rfl, getWord_encoded]
    exact isGroup_b64Encode s.din h1 h3
  exact ⟨_, exec_b64d_some (b64Decode_of_isGroup hgroup h1 h3 (canonical_groupOf s.din h1)), rfl,
    BitVec.ofNat_toNat 5 n, fun i hi => getByte_bytesOf_groupOf s.din h1 h3 hi⟩

/-- B64E of the bytes of a canonical group makes the group's characters. -/
theorem b64e_of_group {n : Nat} {g : BitVec 24} {c : Block} {t : State} (h1 : 1 ≤ n) (h3 : n ≤ 3)
    (hg : Canonical n g) (hc : IsGroup n g (getByte c)) :
    ∃ u, exec (.b64e ((BitVec.ofNat 5 n).setWidth 4)) { t with din := bytesOf n g } = .next u ∧
      u.err = .none ∧ getWord u.dout 0 = getWord c 0 := by
  have hn : ((BitVec.ofNat 5 n).setWidth 4).toNat = n := by
    rw [BitVec.toNat_setWidth, BitVec.toNat_ofNat]
    omega
  refine ⟨_, exec_b64e _ (h1.trans hn.ge) (hn.le.trans h3), rfl, ?_⟩
  rw [getWord_encoded, hn]
  have hword := isGroup_b64Encode (bytesOf n g) h1 h3
  rw [groupOf_bytesOf h1 hg] at hword
  exact word_eq_of_isGroup hword (isGroup_getByte_iff.mp hc)

/-- Settles O57: both ways the characters are those of one canonical group, which fixes its bytes and is fixed by
them. -/
theorem base64DecodeUndoesEncode : Obligations.Base64DecodeUndoesEncode := by
  unfold Obligations.Base64DecodeUndoesEncode
  refine ⟨fun n s t h1 h3 h => b64d_of_b64e h1 h3 h, fun s t h herr => ?_⟩
  by_cases hrej : Rejected (getByte s.din)
  · cases (exec_b64d_rejected hrej).symm.trans h
    cases herr
  · cases (exec_b64d_not_rejected hrej).symm.trans h
    have hcount := padCount_le (getByte s.din)
    exact b64e_of_group (by omega) (Nat.sub_le 3 _) (canonical_of_not_rejected hrej) (isGroup_of_not_rejected hrej)

end Sys2Proof.Proofs.Transcoder
end

section
/-! The error that a completing command reports (R116), that it is precise (R117), and that it stays until the next
accept or reset and repeats on re-issue (R118). -/

namespace Sys2Proof.Proofs.CommandErrors

open Sys2Proof.Machine Sys2Proof.Proofs.CommandLife Sys2Proof.Proofs.CommandWord
open Sys2Proof.Proofs.EntropyDraw Sys2Proof.Proofs.KeyLengthCheck Sys2Proof.Proofs.Padding
open Sys2Proof.Proofs.Transcoder Sys2Proof.Proofs.UnansweredDraw

/-! ### Which error a command reports -/

/-- The instruction fails its key-length check (R85). -/
abbrev KeyFails (i : Instr) (s : State) : Prop :=
  (i ∈ lengthChecked .aes ∧ s.keylen ≠ 16#8) ∨ (i ∈ lengthChecked .des ∧ s.keylen ≠ 8#8) ∨
    (i ∈ [Instr.knormAes, .knormDes] ∧ s.keylen = 0#8)

/-- The error that the body of an instruction finds in its data, or none (R104, R105, R112). -/
def dataError (i : Instr) (s : State) : ErrCode :=
  match i with
  | .unpadAes => if (messageLength 16 s.dout).isSome then .none else .paddingError
  | .unpadDes => if (messageLength 8 s.dout).isSome then .none else .paddingError
  | .b64d =>
    if (b64Decode (getByte s.din 0) (getByte s.din 1) (getByte s.din 2) (getByte s.din 3)).isSome then .none
    else .invalidEncodingError
  | _ => .none

/-- The first error of the command in flight, in the order of R116. -/
def reportedError (s : State) : ErrCode :=
  match decode s.cur with
  | .error e => e
  | .ok i => if KeyFails i s then .keyLengthError else dataError i s

theorem reportedError_of_error {s : State} {e : ErrCode} (hd : decode s.cur = .error e) : reportedError s = e := by
  simp only [reportedError, hd]

theorem reportedError_of_ok {s : State} {i : Instr} (hd : decode s.cur = .ok i) :
    reportedError s = if KeyFails i s then .keyLengthError else dataError i s := by
  simp only [reportedError, hd]

/-- Only UNPAD and B64D find errors in their data, each its own (R104, R105, R112). -/
theorem dataError_cases (i : Instr) (s : State) :
    dataError i s = .none ∨ (dataError i s = .paddingError ∧ i ∈ [Instr.unpadAes, .unpadDes]) ∨
      (dataError i s = .invalidEncodingError ∧ i = .b64d) := by
  cases i with
  | unpadAes | unpadDes =>
    rw [dataError]
    split
    · exact .inl rfl
    · exact .inr (.inl ⟨rfl, by decide⟩)
  | b64d =>
    rw [dataError]
    split
    · exact .inl rfl
    · exact .inr (.inr ⟨rfl, rfl⟩)
  | _ => exact .inl rfl

/-- The error depends on the command word, KEYLEN, DIN and DOUT alone (R116). -/
theorem reportedError_congr {s u : State} (hcur : u.cur = s.cur) (hkeylen : u.keylen = s.keylen)
    (hdin : u.din = s.din) (hdout : u.dout = s.dout) : reportedError u = reportedError s := by
  simp only [reportedError, KeyFails, dataError, hcur, hkeylen, hdin, hdout]

/-! ### The completion reports it -/

theorem exec_of_keyFails {i : Instr} {s : State} (hkey : KeyFails i s) :
    exec i s = .next (s.raise .keyLengthError) := by
  rcases hkey with ⟨hi, hlen⟩ | ⟨hi, hlen⟩ | ⟨hi, hlen⟩
  · exact (lengthCheck_decides (a := .aes) hi s).2 hlen
  · exact (lengthCheck_decides (a := .des) hi s).2 hlen
  · exact (knormCheck_decides hi s).2 hlen

/-- An instruction that passes a key-length check ends without error (R85). -/
theorem err_of_keyPasses {i : Instr} {s t : State}
    (hi : i ∈ lengthChecked .aes ++ lengthChecked .des ++ [.knormAes, .knormDes]) (hkey : ¬KeyFails i s)
    (h : exec i s = .next t) : t.err = .none := by
  obtain ⟨u, hu, herr⟩ : ∃ u, exec i s = .next u ∧ u.err = .none := by
    rw [List.mem_append, List.mem_append] at hi
    rcases hi with (hi | hi) | hi
    · exact (lengthCheck_decides (a := .aes) hi s).1 (not_not.mp fun hlen => hkey (.inl ⟨hi, hlen⟩))
    · exact (lengthCheck_decides (a := .des) hi s).1 (not_not.mp fun hlen => hkey (.inr (.inl ⟨hi, hlen⟩)))
    · exact (knormCheck_decides hi s).1 fun hlen => hkey (.inr (.inr ⟨hi, hlen⟩))
  cases hu.symm.trans h
  exact herr

/-- An instruction past its key-length check and its draw reports the error of its data (R116). -/
theorem err_of_exec {i : Instr} {s t : State} (hwf : i.wf = true) (hdraw : entropyBytes i ≤ s.entropy.length)
    (hkey : ¬KeyFails i s) (h : exec i s = .next t) : t.err = dataError i s := by
  cases i with
  | ivgenAes => cases (exec_ivgenOf_answered (a := .aes) hdraw).symm.trans h; rfl
  | ivgenDes => cases (exec_ivgenOf_answered (a := .des) hdraw).symm.trans h; rfl
  | padAes n => cases h; rfl
  | padDes n => cases (exec_padOf (a := .des) s (of_decide_eq_true hwf)).symm.trans h; rfl
  | b64e n =>
    obtain ⟨h1, h3⟩ : 1 ≤ n.toNat ∧ n.toNat ≤ 3 := by simpa [Instr.wf] using hwf
    cases (exec_b64e s h1 h3).symm.trans h
    rfl
  | unpadAes | unpadDes | b64d =>
    simp only [exec, execUnpadAes, execUnpadDes, execB64d] at h
    split at h <;> cases h <;> simp [dataError, *]
  | _ => exact err_of_keyPasses (by decide) hkey h

/-- A command that has the entropy it draws completes and reports its first error (R84, R116). -/
theorem complete_reports {s : State} (hbusy : s.phase = .busy) (hdraw : s.drawSize ≤ s.entropy.length) :
    ∃ t, complete s = .next t ∧ t.err = reportedError s ∧ t.done = true := by
  cases hd : decode s.cur with
  | error e => exact ⟨_, complete_error hbusy hd, (reportedError_of_error hd).symm, rfl⟩
  | ok i =>
    rw [drawSize_of_decode hd] at hdraw
    obtain ⟨t, ht, _, hdone⟩ := exec_completes hdraw
    refine ⟨t, (complete_ok hbusy hd).trans ht, ?_, hdone⟩
    rw [reportedError_of_ok hd]
    by_cases hkey : KeyFails i s
    · cases (exec_of_keyFails hkey).symm.trans ht
      exact (if_pos hkey).symm
    · rw [if_neg hkey]
      obtain ⟨hwf, _⟩ := decode_eq_ok_iff.mp hd
      exact err_of_exec hwf hdraw hkey ht

/-- Only an IVGEN lacks entropy (R99, R100). -/
theorem waits_of_short {s : State} (hbusy : s.phase = .busy) (hshort : s.entropy.length < s.drawSize) :
    Waits s := by
  cases hd : decode s.cur with
  | error e => simp [State.drawSize, hd] at hshort
  | ok i =>
    rw [drawSize_of_decode hd] at hshort
    cases i with
    | ivgenAes => exact ⟨hbusy, .aes, hd, hshort⟩
    | ivgenDes => exact ⟨hbusy, .des, hd, hshort⟩
    | _ => exact absurd hshort (Nat.not_lt_zero _)

/-- A completion that leaves the machine IDLE had the entropy it draws (R99). -/
theorem drawSize_le_of_complete {s t : State} (hbusy : s.phase = .busy) (h : complete s = .next t)
    (hidle : t.phase = .idle) : s.drawSize ≤ s.entropy.length := by
  by_contra hshort
  cases (complete_of_waits (waits_of_short hbusy (Nat.not_le.mp hshort))).symm.trans h
  simp [hbusy] at hidle

/-- A step in which the CORE completes, whether as the next event or because none is left, is the completion at the
state less the event (R84, R133). -/
theorem step_eq_complete {s : State} (hnext : s.inputs = [] ∨ ∃ rest, s.inputs = .complete :: rest) :
    step s = complete (withInputs s.inputs.tail s) := by
  rcases hnext with hi | ⟨rest, hi⟩
  · rw [hi, List.tail_nil, ← hi]
    exact step_nil hi
  · rw [hi, List.tail_cons]
    exact step_cons hi

/-- A completion step that leaves the machine IDLE leaves the first error in STATUS.ERR (R116). -/
theorem step_reports {s t : State} (hbusy : s.phase = .busy)
    (hnext : s.inputs = [] ∨ ∃ rest, s.inputs = .complete :: rest) (h : step s = .next t)
    (hidle : t.phase = .idle) : t.err = reportedError s := by
  rw [step_eq_complete hnext] at h
  obtain ⟨u, hu, herr, _⟩ := complete_reports (s := withInputs s.inputs.tail s) hbusy
    (drawSize_le_of_complete hbusy h hidle)
  cases hu.symm.trans h
  exact herr

/-- Settles O8: the reported error is the first of R116, and the data errors are those of UNPAD and B64D. -/
theorem firstErrorIsReported : Obligations.FirstErrorIsReported := by
  unfold Obligations.FirstErrorIsReported
  refine ⟨fun s t hbusy hnext h hidle => ?_, rfl⟩
  rw [step_reports hbusy hnext h hidle]
  refine ⟨fun e hd => reportedError_of_error hd, fun i hd => ?_⟩
  rw [reportedError_of_ok hd]
  refine ⟨fun hkey => if_pos hkey, fun (hkey : ¬KeyFails i s) => ?_⟩
  rw [if_neg hkey]
  exact dataError_cases i s

/-! ### Errors are precise, stay and repeat -/

/-- A completion that leaves an error code raised it, and did nothing else (R117). -/
theorem raise_of_complete {s t : State} (hbusy : s.phase = .busy) (h : complete s = .next t)
    (hidle : t.phase = .idle) (herr : t.err ≠ .none) : t = s.raise t.err := by
  rcases complete_next h with ⟨hp, _⟩ | ⟨_, e, _, rfl⟩ | ⟨_, i, _, hexec⟩
  · simp [hbusy] at hp
  · rfl
  · rcases exec_next hexec with ⟨rfl, _⟩ | ⟨e, _, rfl⟩ | ⟨hnone, _⟩
    · simp [hbusy] at hidle
    · rfl
    · exact absurd hnone herr

/-- Settles O9: an error is raised at the state less the event. -/
theorem errorsArePrecise : Obligations.ErrorsArePrecise := by
  unfold Obligations.ErrorsArePrecise
  intro s t hbusy hnext h hidle herr
  rw [step_eq_complete hnext] at h
  exact raise_of_complete (s := withInputs s.inputs.tail s) hbusy h hidle herr

theorem hostRead_err (r : Reg) (s : State) : (s.hostRead r).err = s.err := by
  rw [hostRead_eq]
  split <;> rfl

theorem whenIdle_err {s w : State} (hw : w.err = s.err) : (s.whenIdle w).err = s.err := by
  cases hp : s.phase with
  | idle => rw [whenIdle_idle hp, hw]
  | busy => rw [whenIdle_busy hp]

/-- No host write but that of CMD reaches STATUS.ERR (R22, R83). -/
theorem hostWrite_err {r : Reg} (v : Word) (s : State) (hr : r ≠ .cmd) : (s.hostWrite r v).err = s.err := by
  cases r with
  | cmd => exact absurd rfl hr
  | keylen | rksel => exact whenIdle_err rfl
  | word x j =>
    cases x with
    | key | din | iv => exact whenIdle_err rfl
    | dout => rfl
  | _ => rfl

/-- While IDLE only a write of CMD or a reset changes STATUS.ERR (R118). -/
theorem step_idle_err {s t : State} (hidle : s.phase = .idle) (h : step s = .next t) (hne : t.err ≠ s.err) :
    (∃ v rest, s.inputs = .host (.write 4 (s.base + 0x08) v) :: rest) ∨
      (∃ lost rest, s.inputs = .reset lost :: rest) := by
  rcases step_next h with ⟨_, hc⟩ | ⟨e, rest, hi, ⟨a, rfl, _⟩ | ⟨_, hc⟩ | ⟨bs, _, rfl⟩ | ⟨lost, rfl, _⟩⟩
  · cases (complete_idle hidle).symm.trans hc
    exact absurd rfl hne
  · obtain ⟨off, r, hr, ⟨_, rfl⟩ | ⟨v, rfl, rfl⟩⟩ := step_host_next hi h
    · exact absurd (hostRead_err r _) hne
    · obtain rfl : r = .cmd := not_not.mp fun hcmd => hne (hostWrite_err v _ hcmd)
      obtain ⟨rfl, _⟩ := regAt_eq_some hr
      exact .inl ⟨v, rest, hi⟩
  · cases (complete_idle (s := withInputs rest s) hidle).symm.trans hc
    exact absurd rfl hne
  · exact absurd (by rw [deliver_eq]) hne
  · exact .inr ⟨lost, rest, hi⟩

/-- A command that ended in error, accepted again where it ended, ends in the same error (R118). -/
theorem complete_accept_raise {s : State} {e : ErrCode} (hbusy : s.phase = .busy)
    (h : complete s = .next (s.raise e)) :
    ∃ u, complete ((s.raise e).accept s.cur) = .next u ∧ u.err = e ∧ u.done = true := by
  have hdraw : s.drawSize ≤ s.entropy.length := drawSize_le_of_complete hbusy h rfl
  obtain ⟨t, ht, hfirst, _⟩ := complete_reports hbusy hdraw
  cases ht.symm.trans h
  obtain ⟨u, hu, hagain, hdone⟩ := complete_reports (s := (s.raise e).accept s.cur) rfl hdraw
  have hsame : reportedError ((s.raise e).accept s.cur) = reportedError s := reportedError_congr rfl rfl rfl rfl
  exact ⟨u, hu, hagain.trans (hsame.trans hfirst.symm), hdone⟩

/-- Settles O10: the steps that change ERR while IDLE, and the same command on the operands an error left. -/
theorem errorStaysAndRepeats : Obligations.ErrorStaysAndRepeats := by
  unfold Obligations.ErrorStaysAndRepeats
  refine ⟨fun s t => step_idle_err, fun s t hbusy hi h hidle herr => ?_⟩
  rw [step_nil hi] at h
  have hraise : t = s.raise t.err := raise_of_complete hbusy h hidle herr
  have hinputs : t.inputs = [] := hraise ▸ hi
  rw [hraise] at h
  obtain ⟨u, hu, hrepeat⟩ := complete_accept_raise hbusy h
  rw [← hraise] at hu
  exact ⟨u, (step_nil (s := t.accept s.cur) hinputs).trans hu, hrepeat⟩

end Sys2Proof.Proofs.CommandErrors
end

section
/-! The interrupt line (R120): where it is low, and the steps after which it is. -/

namespace Sys2Proof.Proofs.InterruptLine

open Sys2Proof.Machine

theorem irq_iff (s : State) :
    s.irq = true ↔ s.done = true ∧ (s.ieDone = true ∨ (s.ieErr = true ∧ s.err.code ≠ 0#4)) := by
  simp [State.irq, code_ne_zero]

theorem irq_of_not_done {s : State} (h : s.done = false) : s.irq = false := by simp [State.irq, h]

theorem irq_of_disabled {s : State} (hdone : s.ieDone = false) (herr : s.ieErr = false) : s.irq = false := by
  simp [State.irq, hdone, herr]

/-- Settles O15: three of the four steps clear DONE, the write of CTRL clears both enables. -/
theorem interruptLineFollowsStatus : Obligations.InterruptLineFollowsStatus := by
  unfold Obligations.InterruptLineFollowsStatus
  refine ⟨irq_iff, fun s t v rest h => ⟨fun hi hv => ?_, fun hi hidle => ?_, fun hi hdone herr => ?_,
    fun lost hi => ?_⟩, rfl⟩
  · cases (step_write hi rfl).symm.trans h
    exact irq_of_not_done (by simp [State.hostWrite, hv])
  · cases (step_write hi rfl).symm.trans h
    exact irq_of_not_done (by simp [State.hostWrite, whenIdle_idle, hidle])
  · cases (step_write (off := 0) hi rfl).symm.trans h
    exact irq_of_disabled hdone herr
  · cases (step_cons hi).symm.trans h
    exact irq_of_not_done rfl

end Sys2Proof.Proofs.InterruptLine
end

section
/-! Reset: the state that the reset step leaves (R126), its invariant, and the entropy that comes after it. -/

namespace Sys2Proof.Proofs.ResetStep

open Sys2Proof.Machine Sys2Proof.Proofs.InterruptLine Sys2Proof.Proofs.Invariant

/-- Settles O59: the reset state is what a reset step makes of itself. -/
theorem invHoldsAtReset : Obligations.InvHoldsAtReset := inv_resetStep State.reset

/-- STATUS reads 0 after a reset (R126). -/
theorem statusWord_resetStep (s : State) : s.resetStep.statusWord = 0#32 :=
  calc s.resetStep.statusWord
    _ = State.reset.statusWord := rfl
    _ = 0#32 := by decide

/-- Entropy delivered while no command is in flight is discarded (R126). -/
theorem deliver_idle {s : State} (bytes : List Byte) (hidle : s.phase = .idle) : s.deliver bytes = s := by
  rw [deliver_eq, if_neg (by simp [hidle])]

/-- Settles O14: the reset step field by field, and the delivery that finds no command in flight. -/
theorem resetClearsTheMachine : Obligations.ResetClearsTheMachine := by
  unfold Obligations.ResetClearsTheMachine
  refine ⟨fun s lost rest hi => ?_, fun s bytes rest hidle hi => ?_⟩
  · exact ⟨State.resetStep { s with inputs := rest }, step_cons hi, rfl, rfl, statusWord_resetStep _, rfl, rfl, rfl,
      rfl, rfl, rfl, rfl, rfl, rfl, rfl, irq_of_not_done rfl, rfl⟩
  · rw [step_cons hi]
    exact congrArg _ (deliver_idle (s := { s with inputs := rest }) bytes hidle)

end Sys2Proof.Proofs.ResetStep
end

section
/-! Host accesses while BUSY: the registers sorted by what a read returns (R130) and by what a write does (R129), and
the steps at which WERR falls. -/

namespace Sys2Proof.Proofs.BusyAccesses

open Sys2Proof.Machine Sys2Proof.Proofs.Completion Sys2Proof.Proofs.ControlRegisters

/-! ### Reads -/

/-- The offsets of RKDATA and of the words of KEY, DIN, DOUT and IV (R14). -/
def DataPathOffset (off : Nat) : Prop := off = 0x18 ∨ (0x20 ≤ off ∧ off < 0x60 ∧ off % 4 = 0)

theorem inDataPath_iff {off : Nat} {r : Reg} (hr : regAt off = some r) :
    r.inDataPath = true ↔ DataPathOffset off := by
  have htable : ∀ p ∈ regTable, p.2.inDataPath = true ↔ DataPathOffset p.1 := by
    unfold DataPathOffset
    decide
  exact htable (off, r) (regAt_mem hr)

/-- While BUSY a read of a data-path register returns the next free value (R130). -/
theorem step_read_dataPath {s : State} {off : Nat} {rest : List Event} (hbusy : s.phase = .busy)
    (hi : s.inputs = .host (.read 4 (s.base + off)) :: rest) (hoff : DataPathOffset off) :
    step s = .next { s with
      inputs := rest, reads := Config.busyRead s.draws :: s.reads, draws := s.draws + 1 } := by
  obtain ⟨r, hr⟩ : ∃ r, regAt off = some r := regAt_total (by unfold DataPathOffset at hoff; omega)
  rw [step_read hi hr, hostRead_eq, if_pos ⟨hbusy, (inDataPath_iff hr).mpr hoff⟩]

/-- Settles O24: the control registers by the register map, the data path by its offsets. -/
theorem readsWhileBusy : Obligations.ReadsWhileBusy := by
  unfold Obligations.ReadsWhileBusy
  refine ⟨fun s off w rest _ hi hw => ?_, fun s off rest hbusy hi hoff => step_read_dataPath hbusy hi hoff⟩
  simp only [List.mem_cons, Prod.mk.injEq, List.not_mem_nil, or_false] at hw
  rcases hw with ⟨rfl, rfl⟩ | ⟨rfl, rfl⟩ | ⟨rfl, rfl⟩ | ⟨rfl, rfl⟩ | ⟨rfl, rfl⟩ | ⟨rfl, rfl⟩ <;>
    exact step_read_regWord hi rfl (.inr rfl)

/-! ### Writes -/

/-- The offsets of CMD, KEYLEN, RKSEL and of the words of KEY, DIN and IV: the writes that BUSY drops (R129). -/
def DroppedOffset (off : Nat) : Prop :=
  off = 0x08 ∨ off = 0x10 ∨ off = 0x14 ∨
    (off % 4 = 0 ∧ ((0x20 ≤ off ∧ off < 0x40) ∨ (0x50 ≤ off ∧ off < 0x60)))

/-- The offsets of RESULT, RKDATA and of the words of DOUT: the writes that are ignored in either phase (R129). -/
def IgnoredOffset (off : Nat) : Prop := off = 0x0C ∨ off = 0x18 ∨ (off % 4 = 0 ∧ 0x40 ≤ off ∧ off < 0x50)

/-- What a write of `v` does to the state while BUSY, by the offset written (R129). -/
inductive BusyWrite (s : State) (v : Word) : Nat → State → Prop where
  | ctrl : BusyWrite s v 0x00 (s.writeCtrl v)
  | status : BusyWrite s v 0x04 (s.writeStatus v)
  | dropped {off : Nat} (hoff : DroppedOffset off) : BusyWrite s v off { s with werr := true }
  | ignored {off : Nat} (hoff : IgnoredOffset off) : BusyWrite s v off s

/-- The four words of an operand register fill the 16 bytes from its offset (R14, R36). -/
theorem offset_word_range {off j : Nat} {x : Operand} (hr : regAt off = some (.word x j)) :
    (Reg.word x 0).offset ≤ off ∧ off < (Reg.word x 0).offset + 0x10 ∧ off % 4 = 0 := by
  obtain ⟨rfl, halign, _⟩ := regAt_eq_some hr
  have hj : j < 4 := regAt_word hr
  cases x <;> simp only [Reg.offset] at halign ⊢ <;> omega

theorem busyWrite_hostWrite {s : State} {off : Nat} {r : Reg} (v : Word) (hbusy : s.phase = .busy)
    (hr : regAt off = some r) : BusyWrite s v off (s.hostWrite r v) := by
  obtain ⟨hoffset, _⟩ := regAt_eq_some hr
  cases r with
  | ctrl => cases hoffset; exact .ctrl
  | status => cases hoffset; exact .status
  | result | rkdata => cases hoffset; exact .ignored (by unfold IgnoredOffset; decide)
  | cmd | keylen | rksel =>
    cases hoffset
    rw [State.hostWrite, whenIdle_busy hbusy]
    exact .dropped (by unfold DroppedOffset; decide)
  | word x j =>
    have hrange := offset_word_range hr
    cases x with
    | key | din | iv =>
      rw [State.hostWrite, whenIdle_busy hbusy]
      simp only [Reg.offset] at hrange
      exact .dropped (by unfold DroppedOffset; omega)
    | dout =>
      simp only [Reg.offset] at hrange
      exact .ignored (by unfold IgnoredOffset; omega)

/-- No offset is of two kinds, so the offset tells what the write did (R129). -/
theorem eq_of_busyWrite_dropped {s t : State} {v : Word} {off : Nat} (h : BusyWrite s v off t)
    (hoff : DroppedOffset off) : t = { s with werr := true } := by
  unfold DroppedOffset at hoff
  cases h with
  | ctrl | status => omega
  | dropped => rfl
  | ignored hign => unfold IgnoredOffset at hign; omega

theorem eq_of_busyWrite_ignored {s t : State} {v : Word} {off : Nat} (h : BusyWrite s v off t)
    (hoff : IgnoredOffset off) : t = s := by
  unfold IgnoredOffset at hoff
  cases h with
  | ctrl | status => omega
  | dropped hdrop => unfold DroppedOffset at hdrop; omega
  | ignored => rfl

/-- A host write to a mapped offset while BUSY (R33, R129). -/
theorem step_busyWrite {s : State} {off : Nat} {v : Word} {rest : List Event} (hbusy : s.phase = .busy)
    (hi : s.inputs = .host (.write 4 (s.base + off) v) :: rest)
    (hmapped : ¬(off % 4 ≠ 0 ∨ off = 0x1C ∨ 0x60 ≤ off)) :
    ∃ t, step s = .next t ∧ BusyWrite { s with inputs := rest } v off t := by
  obtain ⟨r, hr⟩ := regAt_total hmapped
  exact ⟨_, step_write hi hr, busyWrite_hostWrite v hbusy hr⟩

/-! ### WERR -/

theorem werr_of_complete {s t : State} (h : complete s = .next t) : t.werr = s.werr := by
  rcases complete_next h with ⟨_, rfl⟩ | ⟨_, e, _, rfl⟩ | ⟨_, i, _, hexec⟩
  · rfl
  · rfl
  · obtain ⟨_, _, hwerr, _⟩ := frame_of_completes (completes_of_exec hexec)
    exact hwerr

theorem werr_hostRead (r : Reg) (s : State) : (s.hostRead r).werr = s.werr := by
  rw [hostRead_eq]
  split <;> rfl

theorem werr_whenIdle {s w : State} (hset : s.werr = true) (hw : w.werr = s.werr) : (s.whenIdle w).werr = true := by
  cases hp : s.phase with
  | idle => rw [whenIdle_idle hp, hw, hset]
  | busy => rw [whenIdle_busy hp]

/-- No host write but that of STATUS clears WERR (R22, R129). -/
theorem werr_hostWrite {r : Reg} {s : State} (v : Word) (hset : s.werr = true) (hr : r ≠ .status) :
    (s.hostWrite r v).werr = true := by
  cases r with
  | status => exact absurd rfl hr
  | cmd | keylen | rksel => exact werr_whenIdle hset rfl
  | word x j =>
    cases x with
    | key | din | iv => exact werr_whenIdle hset rfl
    | dout => exact hset
  | _ => exact hset

/-- WERR falls only by a write of 1 to STATUS bit 2 or by a reset (R129). -/
theorem werr_falls {s t : State} (h : step s = .next t) (hset : s.werr = true) (hclear : t.werr = false) :
    (∃ v rest, s.inputs = .host (.write 4 (s.base + 0x04) v) :: rest ∧ v.getLsbD 2 = true) ∨
      (∃ lost rest, s.inputs = .reset lost :: rest) := by
  have hfell : t.werr ≠ s.werr := by simp [hset, hclear]
  rcases step_next h with ⟨_, hc⟩ | ⟨e, rest, hi, ⟨a, rfl, _⟩ | ⟨_, hc⟩ | ⟨bs, _, rfl⟩ | ⟨lost, rfl, _⟩⟩
  · exact absurd (werr_of_complete hc) hfell
  · obtain ⟨off, r, hr, ⟨_, rfl⟩ | ⟨v, rfl, rfl⟩⟩ := step_host_next hi h
    · exact absurd (werr_hostRead r _) hfell
    · obtain rfl : r = .status := not_not.mp fun hstatus =>
        hfell ((werr_hostWrite (s := { s with inputs := rest }) v hset hstatus).trans hset.symm)
      obtain ⟨rfl, _⟩ := regAt_eq_some hr
      have hbit : v.getLsbD 2 = true := by simpa [State.hostWrite, hset] using hclear
      exact .inl ⟨v, rest, hi, hbit⟩
  · exact absurd (werr_of_complete hc) hfell
  · exact absurd (by rw [deliver_eq]) hfell
  · exact .inr ⟨lost, rest, hi⟩

/-- Settles O25: the destinations by the offsets they have, and WERR by the steps that clear it. -/
theorem writesWhileBusy : Obligations.WritesWhileBusy := by
  unfold Obligations.WritesWhileBusy
  refine ⟨fun s off v rest hbusy hi => ⟨fun hoff => ?_, ?_, ?_, fun hoff => ?_⟩, fun s t => werr_falls⟩
  · obtain ⟨t, ht, hwrite⟩ := step_busyWrite hbusy hi (by omega)
    rw [ht, eq_of_busyWrite_dropped hwrite hoff]
  · rintro rfl
    exact step_write hi rfl
  · rintro rfl
    exact step_write hi rfl
  · obtain ⟨t, ht, hwrite⟩ := step_busyWrite hbusy hi (by omega)
    rw [ht, eq_of_busyWrite_ignored hwrite hoff]

end Sys2Proof.Proofs.BusyAccesses
end

section
/-! A command that stays in flight: the steps that leave it so, and what of the machine they change (R132). -/

namespace Sys2Proof.Proofs.CommandInFlight

open Sys2Proof.Machine Sys2Proof.Proofs.BusyAccesses Sys2Proof.Proofs.Completion

/-- The ways a step can leave in flight the command that was in flight. -/
inductive StaysInFlight (s : State) : State → Prop where
  /-- Any other step: the schedule, what waits for the draw, what the host has read and the free values drawn. -/
  | unobserved (es : List Event) (bytes : List Byte) (ws : List Word) (n : Nat) :
      StaysInFlight s { s with inputs := es, entropy := bytes, reads := ws, draws := n }
  /-- A host write (R129). -/
  | writes {off : Nat} {v : Word} {rest : List Event} {t : State}
      (hi : s.inputs = .host (.write 4 (s.base + off) v) :: rest)
      (hwrite : BusyWrite { s with inputs := rest } v off t) : StaysInFlight s t

/-- A completion that leaves the command in flight is that of an IVGEN that waits, and changes nothing (R99). -/
theorem eq_of_complete_busy {s t : State} (hbusy : s.phase = .busy) (h : complete s = .next t)
    (hstays : t.phase = .busy) : t = s := by
  rcases complete_next h with ⟨_, rfl⟩ | ⟨_, e, _, rfl⟩ | ⟨_, i, _, hexec⟩
  · rfl
  · cases hstays
  · rcases phase_of_completes (completes_of_exec hexec) with rfl | hidle
    · rfl
    · cases hidle.symm.trans hstays

theorem staysInFlight_of_step {s t : State} (hbusy : s.phase = .busy) (h : step s = .next t)
    (hstays : t.phase = .busy) : StaysInFlight s t := by
  rcases step_next h with ⟨_, hc⟩ | ⟨e, rest, hi, ⟨a, rfl, _⟩ | ⟨_, hc⟩ | ⟨bs, _, rfl⟩ | ⟨lost, _, rfl⟩⟩
  · cases eq_of_complete_busy hbusy hc hstays
    exact .unobserved s.inputs s.entropy s.reads s.draws
  · obtain ⟨off, r, hr, ⟨_, rfl⟩ | ⟨v, rfl, rfl⟩⟩ := step_host_next hi h
    · rw [hostRead_eq]
      split <;> exact .unobserved _ _ _ _
    · exact .writes hi (busyWrite_hostWrite v hbusy hr)
  · cases eq_of_complete_busy (s := { s with inputs := rest }) hbusy hc hstays
    exact .unobserved rest s.entropy s.reads s.draws
  · rw [deliver_eq]
    exact .unobserved rest _ s.reads s.draws
  · cases hstays

section Changes

variable {s t : State}

/-- No operand, result, round key, error code or command word changes (R132). -/
theorem operands_of_staysInFlight (h : StaysInFlight s t) :
    t.key = s.key ∧ t.keylen = s.keylen ∧ t.din = s.din ∧ t.dout = s.dout ∧ t.iv = s.iv ∧
      t.result = s.result ∧ t.rksel = s.rksel ∧ t.rk = s.rk ∧ t.err = s.err ∧ t.cur = s.cur := by
  cases h with
  | unobserved => exact ⟨rfl, rfl, rfl, rfl, rfl, rfl, rfl, rfl, rfl, rfl⟩
  | writes _ hwrite => cases hwrite <;> exact ⟨rfl, rfl, rfl, rfl, rfl, rfl, rfl, rfl, rfl, rfl⟩

/-- CTRL changes only by a write of it (R129). -/
theorem ctrl_changes (h : StaysInFlight s t) (hne : t.ieDone ≠ s.ieDone ∨ t.ieErr ≠ s.ieErr) :
    ∃ v rest, s.inputs = .host (.write 4 s.base v) :: rest := by
  cases h with
  | unobserved => simp at hne
  | writes hi hwrite =>
    cases hwrite with
    | ctrl => exact ⟨_, _, hi⟩
    | _ => simp at hne

/-- DONE changes only by a write of 1 to STATUS bit 1 (R22, R129). -/
theorem done_changes (h : StaysInFlight s t) (hne : t.done ≠ s.done) :
    ∃ v rest, s.inputs = .host (.write 4 (s.base + 0x04) v) :: rest ∧ v.getLsbD 1 = true := by
  cases h with
  | unobserved => exact absurd rfl hne
  | @writes _ v rest _ hi hwrite =>
    cases hwrite with
    | status =>
      have ⟨_, hbit⟩ : s.done = true ∧ v.getLsbD 1 = true := by simpa using hne
      exact ⟨v, rest, hi, hbit⟩
    | _ => exact absurd rfl hne

/-- WERR rises only by a write that BUSY drops (R129). -/
theorem werr_rises (h : StaysInFlight s t) (hclear : s.werr = false) (hset : t.werr = true) :
    ∃ off v rest, s.inputs = .host (.write 4 (s.base + off) v) :: rest ∧ DroppedOffset off := by
  cases h with
  | unobserved => simp [hclear] at hset
  | writes hi hwrite =>
    cases hwrite with
    | dropped hoff => exact ⟨_, _, _, hi, hoff⟩
    | _ => simp [hclear] at hset

end Changes

/-- Settles O13: the steps that leave the command in flight; WERR falls by them or by a reset (O25), and a reset
leaves none in flight. -/
theorem commandInFlightIsInvisible : Obligations.CommandInFlightIsInvisible := by
  unfold Obligations.CommandInFlightIsInvisible
  intro s t hbusy h hstays
  have hcase : StaysInFlight s t := staysInFlight_of_step hbusy h hstays
  obtain ⟨hkey, hkeylen, hdin, hdout, hiv, hresult, hrksel, hrk, herr, hcur⟩ := operands_of_staysInFlight hcase
  refine ⟨hkey, hkeylen, hdin, hdout, hiv, hresult, hrksel, hrk, herr, hcur, ctrl_changes hcase,
    done_changes hcase, fun hset hclear => ?_, werr_rises hcase⟩
  rcases werr_falls h hset hclear with hstatus | ⟨lost, rest, hi⟩
  · exact hstatus
  · cases (step_cons hi).symm.trans h
    cases hstays

end Sys2Proof.Proofs.CommandInFlight
end
